-- ==== Sys2Proof/Config.lean ====
section
/-!
DEFINITION. What one implementation of the core fixes and the spec leaves open (00_scope.md R6), as constants that
have no body: nothing in Lean can evaluate them, so a statement about them holds for every choice. Beside them the
parameters whose value the spec does fix.
-/

namespace Sys2Proof.Config

/-- `OobByte(a)`: the byte that a read of the previous frame outside the frame returns, a fixed total function of the
integer index alone (R6, R74, IMP1; log 2). -/
opaque oobByte : Int → BitVec 8

/-- `CROSS_SEL(d, v)`: the Cross pattern, lost from the source (R220, IMP2; log 3). -/
opaque crossSel : Fin 16 → BitVec 8 → Fin 4

/-- `DIAG1[0..63]`: the first diagonal traversal table, lost from the source (R241, IMP2; log 3). -/
opaque diag1 : Fin 64 → Fin 64

/-- `DIAG2[0..63]`: the second diagonal traversal table, lost from the source (R241, IMP2; log 3). -/
opaque diag2 : Fin 64 → Fin 64

/-- What the byte of `PL` at an address reads as when nothing has written it since the reset of the given number
(R38, IMP7; log 1). A free value. -/
opaque unwrittenPl : (resets : Nat) → (address : Nat) → BitVec 8

/-- The free bytes of the tile whose step overran (R321, IMP4; log 4), by the model's counter `freeTick`. -/
opaque faultPixel : Nat → BitVec 8

/-- The free words that a host read of a register or a memory returns while `RUN` = BUSY (R34, R35, IMP6; log 5), by
the model's counter `freeTick`. -/
opaque busyRead : Nat → BitVec 32

/-- `LAST_COLOR_INIT` = 0x00 (R6, D19). -/
def lastColorInit : BitVec 8 := 0x00#8

/-- `HEAD_BYTES` = 4: the size of the payload's head field (R6, D2). -/
def headBytes : Nat := 4

/-- The capacities of the memories, open parameters of an implementation (R6, R21, D32; log 7). The host operations
take them as an argument; no step of the core depends on them (R76). -/
structure Caps where
  /-- `FB_CAP`, bytes in each frame-buffer memory. -/
  fbCap : Nat
  /-- `PL_CAP`, bytes in the payload memory. -/
  plCap : Nat
deriving DecidableEq, Repr

/-- The bounds R6 sets on the capacities: `FB_CAP` at least 64, `PL_CAP` at most 2^32 − 1. -/
abbrev Caps.Legal (c : Caps) : Prop := 64 ≤ c.fbCap ∧ c.plCap ≤ 2 ^ 32 - 1

end Sys2Proof.Config
end

