-- ==== Sys2Proof/Word.lean ====
section
/-!
DEFINITION. The words of the machine: bytes, and the register widths of 10_state.md (`DIM_BITS` = 16, `PTR_BITS` = 32,
00_scope.md R6).
-/

namespace Sys2Proof

/-- A byte of any memory; a pixel is one byte (R12). -/
abbrev Byte := BitVec 8

/-- A 16-bit register: a dimension or a tile coordinate. -/
abbrev Dim := BitVec 16

/-- A 32-bit register: a stream pointer, a length, a linear offset. -/
abbrev Ptr := BitVec 32

end Sys2Proof
end

