-- ==== Sys2Proof/Syntax.lean ====
section
/-!
DEFINITION. The instruction set ACF-T64 (30_encoding.md R109): one constructor per row of the opcode table. An
instruction has no operand fields (R101): its operands are the bytes that its step reads from the two data streams
(R102), so the constructors are constants. Beside them the base primitives and overlays that R103 builds the opcodes
from, and one line of the assembler notation of R112.
-/

namespace Sys2Proof

/-- The 31 base primitives (R103, C4). -/
inductive Base where
  | raw
  | zero
  | shortMotion8
  | motion8
  | shortMotion4
  | motion4
  | singleFill
  | fourFill
  | oneBit
  | twoBit
  | threeBit
  | fourBit
  | oneBitSplit
  | twoBitSplit
  | threeBitSplit
  | cross
  | prime
  | oneBank
  | twoBanks
  | blockH
  | blockV
  | blockD1
  | blockD2
  | bank1H
  | bank1V
  | bank1D1
  | bank1D2
  | roMotion8
  | rcMotion8
  | roMotion4
  | rcMotion4
deriving DecidableEq, Repr

/-- The three overlays that a composite opcode runs after its base (R103, 46_overlays.md). -/
inductive Overlay where
  | update4
  | update8
  | update16
deriving DecidableEq, Repr

/-- The 64 instructions, in opcode order (R109). -/
inductive Instr where
  /-- Opcode 0, `Raw` (42_fill_raw.md R190). -/
  | raw
  /-- Opcode 1, `Zero` (41_motion.md R161). -/
  | zero
  /-- Opcode 2, `Zero+U4` (46_overlays.md R274). -/
  | zeroU4
  /-- Opcode 3, `Zero+U8` (46_overlays.md R275). -/
  | zeroU8
  /-- Opcode 4, `Zero+U16` (46_overlays.md R276). -/
  | zeroU16
  /-- Opcode 5, `ShortMotion8` (41_motion.md R162). -/
  | shortMotion8
  /-- Opcode 6, `SM8+U4` (46_overlays.md R277). -/
  | sm8U4
  /-- Opcode 7, `SM8+U8` (46_overlays.md R278). -/
  | sm8U8
  /-- Opcode 8, `SM8+U16` (46_overlays.md R279). -/
  | sm8U16
  /-- Opcode 9, `Motion8` (41_motion.md R163). -/
  | motion8
  /-- Opcode 10, `M8+U4` (46_overlays.md R280). -/
  | m8U4
  /-- Opcode 11, `M8+U8` (46_overlays.md R281). -/
  | m8U8
  /-- Opcode 12, `M8+U16` (46_overlays.md R282). -/
  | m8U16
  /-- Opcode 13, `ShortMotion4` (41_motion.md R164). -/
  | shortMotion4
  /-- Opcode 14, `SM4+U4` (46_overlays.md R283). -/
  | sm4U4
  /-- Opcode 15, `SM4+U8` (46_overlays.md R284). -/
  | sm4U8
  /-- Opcode 16, `SM4+U16` (46_overlays.md R285). -/
  | sm4U16
  /-- Opcode 17, `Motion4` (41_motion.md R165). -/
  | motion4
  /-- Opcode 18, `M4+U4` (46_overlays.md R286). -/
  | m4U4
  /-- Opcode 19, `M4+U8` (46_overlays.md R287). -/
  | m4U8
  /-- Opcode 20, `M4+U16` (46_overlays.md R288). -/
  | m4U16
  /-- Opcode 21, `SingleFill` (42_fill_raw.md R191). -/
  | singleFill
  /-- Opcode 22, `SF+U4` (46_overlays.md R289). -/
  | sfU4
  /-- Opcode 23, `SF+U8` (46_overlays.md R290). -/
  | sfU8
  /-- Opcode 24, `SF+U16` (46_overlays.md R291). -/
  | sfU16
  /-- Opcode 25, `FourFill` (42_fill_raw.md R192). -/
  | fourFill
  /-- Opcode 26, `FF+U4` (46_overlays.md R292). -/
  | ffU4
  /-- Opcode 27, `FF+U8` (46_overlays.md R293). -/
  | ffU8
  /-- Opcode 28, `FF+U16` (46_overlays.md R294). -/
  | ffU16
  /-- Opcode 29, `OneBit` (43_bitpacked.md R201). -/
  | oneBit
  /-- Opcode 30, `TwoBit` (43_bitpacked.md R202). -/
  | twoBit
  /-- Opcode 31, `ThreeBit` (43_bitpacked.md R203). -/
  | threeBit
  /-- Opcode 32, `FourBit` (43_bitpacked.md R204). -/
  | fourBit
  /-- Opcode 33, `OneBitSplit` (43_bitpacked.md R205). -/
  | oneBitSplit
  /-- Opcode 34, `TwoBitSplit` (43_bitpacked.md R206). -/
  | twoBitSplit
  /-- Opcode 35, `ThreeBitSplit` (43_bitpacked.md R207). -/
  | threeBitSplit
  /-- Opcode 36, `Cross` (44_cross_prime_bank.md R221). -/
  | cross
  /-- Opcode 37, `Prime` (44_cross_prime_bank.md R222). -/
  | prime
  /-- Opcode 38, `OneBank` (44_cross_prime_bank.md R226). -/
  | oneBank
  /-- Opcode 39, `TwoBanks` (44_cross_prime_bank.md R227). -/
  | twoBanks
  /-- Opcode 40, `BlockH` (45_block.md R242). -/
  | blockH
  /-- Opcode 41, `BlockV` (45_block.md R243). -/
  | blockV
  /-- Opcode 42, `BlockD1` (45_block.md R244). -/
  | blockD1
  /-- Opcode 43, `BlockD2` (45_block.md R245). -/
  | blockD2
  /-- Opcode 44, `Bank1-H` (45_block.md R248). -/
  | bank1H
  /-- Opcode 45, `Bank1-V` (45_block.md R249). -/
  | bank1V
  /-- Opcode 46, `Bank1-D1` (45_block.md R250). -/
  | bank1D1
  /-- Opcode 47, `Bank1-D2` (45_block.md R251). -/
  | bank1D2
  /-- Opcode 48, `ROMotion8` (41_motion.md R166). -/
  | roMotion8
  /-- Opcode 49, `ROM8+U4` (46_overlays.md R295). -/
  | rom8U4
  /-- Opcode 50, `ROM8+U8` (46_overlays.md R296). -/
  | rom8U8
  /-- Opcode 51, `ROM8+U16` (46_overlays.md R297). -/
  | rom8U16
  /-- Opcode 52, `RCMotion8` (41_motion.md R167). -/
  | rcMotion8
  /-- Opcode 53, `RCM8+U4` (46_overlays.md R298). -/
  | rcm8U4
  /-- Opcode 54, `RCM8+U8` (46_overlays.md R299). -/
  | rcm8U8
  /-- Opcode 55, `RCM8+U16` (46_overlays.md R300). -/
  | rcm8U16
  /-- Opcode 56, `ROMotion4` (41_motion.md R168). -/
  | roMotion4
  /-- Opcode 57, `ROM4+U4` (46_overlays.md R301). -/
  | rom4U4
  /-- Opcode 58, `ROM4+U8` (46_overlays.md R302). -/
  | rom4U8
  /-- Opcode 59, `ROM4+U16` (46_overlays.md R303). -/
  | rom4U16
  /-- Opcode 60, `RCMotion4` (41_motion.md R169). -/
  | rcMotion4
  /-- Opcode 61, `RCM4+U4` (46_overlays.md R304). -/
  | rcm4U4
  /-- Opcode 62, `RCM4+U8` (46_overlays.md R305). -/
  | rcm4U8
  /-- Opcode 63, `RCM4+U16` (46_overlays.md R306). -/
  | rcm4U16
deriving DecidableEq, Repr

/-- The base primitive of an instruction (R109, column "base primitive"). -/
def Instr.base : Instr → Base
  | .raw => .raw
  | .zero => .zero
  | .zeroU4 => .zero
  | .zeroU8 => .zero
  | .zeroU16 => .zero
  | .shortMotion8 => .shortMotion8
  | .sm8U4 => .shortMotion8
  | .sm8U8 => .shortMotion8
  | .sm8U16 => .shortMotion8
  | .motion8 => .motion8
  | .m8U4 => .motion8
  | .m8U8 => .motion8
  | .m8U16 => .motion8
  | .shortMotion4 => .shortMotion4
  | .sm4U4 => .shortMotion4
  | .sm4U8 => .shortMotion4
  | .sm4U16 => .shortMotion4
  | .motion4 => .motion4
  | .m4U4 => .motion4
  | .m4U8 => .motion4
  | .m4U16 => .motion4
  | .singleFill => .singleFill
  | .sfU4 => .singleFill
  | .sfU8 => .singleFill
  | .sfU16 => .singleFill
  | .fourFill => .fourFill
  | .ffU4 => .fourFill
  | .ffU8 => .fourFill
  | .ffU16 => .fourFill
  | .oneBit => .oneBit
  | .twoBit => .twoBit
  | .threeBit => .threeBit
  | .fourBit => .fourBit
  | .oneBitSplit => .oneBitSplit
  | .twoBitSplit => .twoBitSplit
  | .threeBitSplit => .threeBitSplit
  | .cross => .cross
  | .prime => .prime
  | .oneBank => .oneBank
  | .twoBanks => .twoBanks
  | .blockH => .blockH
  | .blockV => .blockV
  | .blockD1 => .blockD1
  | .blockD2 => .blockD2
  | .bank1H => .bank1H
  | .bank1V => .bank1V
  | .bank1D1 => .bank1D1
  | .bank1D2 => .bank1D2
  | .roMotion8 => .roMotion8
  | .rom8U4 => .roMotion8
  | .rom8U8 => .roMotion8
  | .rom8U16 => .roMotion8
  | .rcMotion8 => .rcMotion8
  | .rcm8U4 => .rcMotion8
  | .rcm8U8 => .rcMotion8
  | .rcm8U16 => .rcMotion8
  | .roMotion4 => .roMotion4
  | .rom4U4 => .roMotion4
  | .rom4U8 => .roMotion4
  | .rom4U16 => .roMotion4
  | .rcMotion4 => .rcMotion4
  | .rcm4U4 => .rcMotion4
  | .rcm4U8 => .rcMotion4
  | .rcm4U16 => .rcMotion4

/-- The overlay of an instruction, if it is a composite (R109, column "overlay"). -/
def Instr.overlay : Instr → Option Overlay
  | .raw => none
  | .zero => none
  | .zeroU4 => some .update4
  | .zeroU8 => some .update8
  | .zeroU16 => some .update16
  | .shortMotion8 => none
  | .sm8U4 => some .update4
  | .sm8U8 => some .update8
  | .sm8U16 => some .update16
  | .motion8 => none
  | .m8U4 => some .update4
  | .m8U8 => some .update8
  | .m8U16 => some .update16
  | .shortMotion4 => none
  | .sm4U4 => some .update4
  | .sm4U8 => some .update8
  | .sm4U16 => some .update16
  | .motion4 => none
  | .m4U4 => some .update4
  | .m4U8 => some .update8
  | .m4U16 => some .update16
  | .singleFill => none
  | .sfU4 => some .update4
  | .sfU8 => some .update8
  | .sfU16 => some .update16
  | .fourFill => none
  | .ffU4 => some .update4
  | .ffU8 => some .update8
  | .ffU16 => some .update16
  | .oneBit => none
  | .twoBit => none
  | .threeBit => none
  | .fourBit => none
  | .oneBitSplit => none
  | .twoBitSplit => none
  | .threeBitSplit => none
  | .cross => none
  | .prime => none
  | .oneBank => none
  | .twoBanks => none
  | .blockH => none
  | .blockV => none
  | .blockD1 => none
  | .blockD2 => none
  | .bank1H => none
  | .bank1V => none
  | .bank1D1 => none
  | .bank1D2 => none
  | .roMotion8 => none
  | .rom8U4 => some .update4
  | .rom8U8 => some .update8
  | .rom8U16 => some .update16
  | .rcMotion8 => none
  | .rcm8U4 => some .update4
  | .rcm8U8 => some .update8
  | .rcm8U16 => some .update16
  | .roMotion4 => none
  | .rom4U4 => some .update4
  | .rom4U8 => some .update8
  | .rom4U16 => some .update16
  | .rcMotion4 => none
  | .rcm4U4 => some .update4
  | .rcm4U8 => some .update8
  | .rcm4U16 => some .update16

/-- One line of the assembler notation of R112: an instruction, the bytes it reads from the aligned stream (`A:`) and
those it reads from the unaligned stream (`U:`), each in address order. -/
structure TileLine where
  instr : Instr
  aligned : List Byte
  unaligned : List Byte
deriving DecidableEq, Repr

/-- The program of one frame: its dimensions in pixels and one line per tile, in raster order (R112). -/
structure FrameProgram where
  width : Nat
  height : Nat
  tiles : List TileLine
deriving DecidableEq, Repr

end Sys2Proof
end

