-- ==== Sys2Proof/WellFormed.lean ====
section
/-!
DEFINITION. When a term of the syntax is well formed. An instruction has no fields, so the only check on it is that its
base primitive takes its overlay (30_encoding.md R103); the checks on an operand record are its sizes (R104), and those
on a frame program are its dimensions and its tile count (00_scope.md R6, 30_encoding.md R100).
-/

namespace Sys2Proof

/-- The eleven base primitives that have `+U4`, `+U8`, `+U16` forms (R103). -/
def Base.takesOverlay : Base → Bool
  | .zero | .shortMotion8 | .motion8 | .shortMotion4 | .motion4 | .singleFill | .fourFill
  | .roMotion8 | .rcMotion8 | .roMotion4 | .rcMotion4 => true
  | .raw | .oneBit | .twoBit | .threeBit | .fourBit | .oneBitSplit | .twoBitSplit | .threeBitSplit
  | .cross | .prime | .oneBank | .twoBanks | .blockH | .blockV | .blockD1 | .blockD2
  | .bank1H | .bank1V | .bank1D1 | .bank1D2 => false

/-- A pair of base primitive and overlay that R103 allows. -/
def pairWellFormed (b : Base) (o : Option Overlay) : Bool := o.isNone || b.takesOverlay

/-- An instruction is well formed when its pair is. All 64 are (R110). -/
def Instr.wellFormed (i : Instr) : Bool := pairWellFormed i.base i.overlay

/-- `A` of R104 for a base primitive: how many bytes it reads from the aligned stream. -/
def Base.alignedSize : Base → Nat
  | .raw => 64
  | .zero | .shortMotion8 | .motion8 | .singleFill | .roMotion8 | .rcMotion8 => 0
  | .shortMotion4 | .fourFill => 4
  | .motion4 | .roMotion4 | .rcMotion4 => 8
  | .oneBit => 8
  | .twoBit => 20
  | .threeBit => 24
  | .fourBit => 32
  | .oneBitSplit => 16
  | .twoBitSplit => 32
  | .threeBitSplit => 24
  | .cross => 20
  | .prime => 8
  | .oneBank => 32
  | .twoBanks => 40
  | .blockH | .blockV | .blockD1 | .blockD2 => 8
  | .bank1H | .bank1V | .bank1D1 | .bank1D2 => 8

/-- `U` of R104 for a base primitive: how many bytes it reads from the unaligned stream when `ones` is `pc`, the number
of set bits in the mask bytes it reads. -/
def Base.unalignedSize (ones : Nat) : Base → Nat
  | .raw | .zero | .shortMotion4 | .motion4 | .fourFill | .twoBit | .oneBitSplit | .twoBitSplit
  | .cross | .roMotion4 | .rcMotion4 => 0
  | .shortMotion8 | .singleFill => 1
  | .motion8 | .roMotion8 | .rcMotion8 | .oneBit => 2
  | .threeBit => 8
  | .fourBit => 16
  | .threeBitSplit => 32
  | .prime => 1 + ones
  | .oneBank | .twoBanks => 1
  | .blockH | .blockV | .blockD1 | .blockD2 => ones
  | .bank1H | .bank1V | .bank1D1 | .bank1D2 => 1 + (ones + 1) / 2

/-- `A` of R104 for an overlay. -/
def Overlay.alignedSize : Overlay → Nat
  | .update4 => 4
  | .update8 => 8
  | .update16 => 8

/-- `U` of R104 for an overlay, `ones` as for a base primitive. -/
def Overlay.unalignedSize (ones : Nat) : Overlay → Nat
  | .update4 => 3
  | .update8 => 6
  | .update16 => ones

/-- `A` of R104 for an instruction: a composite reads the sum of its base and its overlay. -/
def Instr.alignedSize (i : Instr) : Nat :=
  i.base.alignedSize + (i.overlay.map Overlay.alignedSize).getD 0

/-- `U` of R104 for an instruction; `ones` counts the set bits of the one group of mask bytes that it reads (no base
that takes an overlay has masks of its own). -/
def Instr.unalignedSize (ones : Nat) (i : Instr) : Nat :=
  i.base.unalignedSize ones + (i.overlay.map (Overlay.unalignedSize ones)).getD 0

/-- Where in an instruction's aligned record its eight mask bytes begin: at the start for a base that has masks, after
the base's record for Update16 (R102, R104). -/
def Instr.maskOffset (i : Instr) : Nat :=
  match i.overlay with
  | some .update16 => i.base.alignedSize
  | _ => 0

/-- The number of set bits of a byte. -/
def popcount (b : Byte) : Nat := ((List.range 8).filter (fun j => b.getLsbD j)).length

/-- `pc` of R104: the number of set bits in the eight mask bytes that start at `f 0`. -/
def maskOnes (f : Nat → Byte) : Nat := ((List.range 8).map (fun i => popcount (f i))).sum

/-- An operand record has the sizes R104 gives its instruction. -/
def TileLine.wellFormed (l : TileLine) : Bool :=
  l.aligned.length == l.instr.alignedSize
    && l.unaligned.length
        == l.instr.unalignedSize (maskOnes (fun k => l.aligned.getD (l.instr.maskOffset + k) 0))

/-- `CFG_WIDTH` and `CFG_HEIGHT` are positive multiples of 8 (R6). -/
def dimsWellFormed (w h : Nat) : Bool := w != 0 && h != 0 && w % 8 == 0 && h % 8 == 0

/-- A frame program has legal dimensions, exactly one line per tile (R100), and well-formed lines. -/
def FrameProgram.wellFormed (p : FrameProgram) : Bool :=
  dimsWellFormed p.width p.height
    && p.tiles.length == (p.width / 8) * (p.height / 8)
    && p.tiles.all (fun l => l.instr.wellFormed && l.wellFormed)

end Sys2Proof
end

