-- ==== Sys2Proof/Decode.lean ====
section
/-!
DEFINITION. The decoder of the 6-bit opcodes and of the opcode stream, and after it the encoder and the assembler
(30_encoding.md R100, R101, R109, R112, R113; 20_memory.md R62 to R65).
-/

namespace Sys2Proof

/-! ### Decoding -/

/-- Why bytes are no instruction. The 64 opcodes themselves are all assigned (R110). -/
inductive DecodeError where
  /-- There is no byte to take the six opcode bits from. -/
  | noByte
deriving DecidableEq, Repr

/-- The opcode map of R109, by opcode value; above 63 there is none. -/
def decodeNat : Nat → Option Instr
  | 0 => some .raw
  | 1 => some .zero
  | 2 => some .zeroU4
  | 3 => some .zeroU8
  | 4 => some .zeroU16
  | 5 => some .shortMotion8
  | 6 => some .sm8U4
  | 7 => some .sm8U8
  | 8 => some .sm8U16
  | 9 => some .motion8
  | 10 => some .m8U4
  | 11 => some .m8U8
  | 12 => some .m8U16
  | 13 => some .shortMotion4
  | 14 => some .sm4U4
  | 15 => some .sm4U8
  | 16 => some .sm4U16
  | 17 => some .motion4
  | 18 => some .m4U4
  | 19 => some .m4U8
  | 20 => some .m4U16
  | 21 => some .singleFill
  | 22 => some .sfU4
  | 23 => some .sfU8
  | 24 => some .sfU16
  | 25 => some .fourFill
  | 26 => some .ffU4
  | 27 => some .ffU8
  | 28 => some .ffU16
  | 29 => some .oneBit
  | 30 => some .twoBit
  | 31 => some .threeBit
  | 32 => some .fourBit
  | 33 => some .oneBitSplit
  | 34 => some .twoBitSplit
  | 35 => some .threeBitSplit
  | 36 => some .cross
  | 37 => some .prime
  | 38 => some .oneBank
  | 39 => some .twoBanks
  | 40 => some .blockH
  | 41 => some .blockV
  | 42 => some .blockD1
  | 43 => some .blockD2
  | 44 => some .bank1H
  | 45 => some .bank1V
  | 46 => some .bank1D1
  | 47 => some .bank1D2
  | 48 => some .roMotion8
  | 49 => some .rom8U4
  | 50 => some .rom8U8
  | 51 => some .rom8U16
  | 52 => some .rcMotion8
  | 53 => some .rcm8U4
  | 54 => some .rcm8U8
  | 55 => some .rcm8U16
  | 56 => some .roMotion4
  | 57 => some .rom4U4
  | 58 => some .rom4U8
  | 59 => some .rom4U16
  | 60 => some .rcMotion4
  | 61 => some .rcm4U4
  | 62 => some .rcm4U8
  | 63 => some .rcm4U16
  | _ => none

/-- `Decode(op)` (R113): total on the 6-bit opcodes. The default is never reached (R110, `decodeNat_isSome`). -/
def decode (op : BitVec 6) : Instr := (decodeNat op.toNat).getD .raw

/-- The instruction whose opcode lies in the low six bits of the first byte, the place of the first opcode of a triple
(R100). -/
def decodeBytes : List Byte → Except DecodeError Instr
  | [] => .error .noByte
  | b :: _ => .ok (decode (b.setWidth 6))

/-- The `n` bytes of `w`, least significant first (R61). -/
def littleEndianBytes : (n : Nat) → (w : Nat) → List Byte
  | 0, _ => []
  | n + 1, w => BitVec.ofNat 8 w :: littleEndianBytes n (w / 256)

/-- The instruction the decoder reads from a table row's bits `w`, given as `nbits` bits and laid out as bytes, the
first at the lowest address; none where it refuses. -/
def decodeTableWord (nbits w : Nat) : Option Instr :=
  match decodeBytes (littleEndianBytes ((nbits + 7) / 8) w) with
  | .ok i => some i
  | .error _ => none

/-- The opcode of tile `i` in an opcode stream: bits `6*(i mod 4) + 5 .. 6*(i mod 4)` of the little-endian value of the
three bytes at `3*(i div 4)` (R100). Bytes past the end of the stream count as 0; they hold no opcode of a tile. -/
def opcodeAt (stream : List Byte) (i : Nat) : BitVec 6 :=
  let b (k : Nat) : Byte := stream.getD (3 * (i / 4) + k) 0
  let v : BitVec 24 := b 2 ++ b 1 ++ b 0
  v.extractLsb' (6 * (i % 4)) 6

/-- The instructions of tiles `0 .. n-1` of an opcode stream. -/
def decodeStream (n : Nat) (stream : List Byte) : List Instr :=
  (List.range n).map (fun i => decode (opcodeAt stream i))

/-! ### Layout of a payload -/

/-- `T`, the number of tiles of a frame (R6). -/
def tileCount (w h : Nat) : Nat := (w / 8) * (h / 8)

/-- `OPBYTES = ceil(6*T/8)` (R63). -/
def opBytes (tiles : Nat) : Nat := (6 * tiles + 7) / 8

/-- `roundup4` (R7). -/
def roundup4 (n : Nat) : Nat := 4 * ((n + 3) / 4)

/-- `ALN_START`: where the aligned stream starts (R64, D4). -/
def alnStart (w tiles : Nat) : Nat :=
  if w = 320 then 4 + opBytes tiles else 4 + roundup4 (opBytes tiles)

/-! ### Encoding -/

/-- The opcode of an instruction: the `match` column of R109. -/
def Instr.opcode : Instr → BitVec 6
  | .raw => 0#6
  | .zero => 1#6
  | .zeroU4 => 2#6
  | .zeroU8 => 3#6
  | .zeroU16 => 4#6
  | .shortMotion8 => 5#6
  | .sm8U4 => 6#6
  | .sm8U8 => 7#6
  | .sm8U16 => 8#6
  | .motion8 => 9#6
  | .m8U4 => 10#6
  | .m8U8 => 11#6
  | .m8U16 => 12#6
  | .shortMotion4 => 13#6
  | .sm4U4 => 14#6
  | .sm4U8 => 15#6
  | .sm4U16 => 16#6
  | .motion4 => 17#6
  | .m4U4 => 18#6
  | .m4U8 => 19#6
  | .m4U16 => 20#6
  | .singleFill => 21#6
  | .sfU4 => 22#6
  | .sfU8 => 23#6
  | .sfU16 => 24#6
  | .fourFill => 25#6
  | .ffU4 => 26#6
  | .ffU8 => 27#6
  | .ffU16 => 28#6
  | .oneBit => 29#6
  | .twoBit => 30#6
  | .threeBit => 31#6
  | .fourBit => 32#6
  | .oneBitSplit => 33#6
  | .twoBitSplit => 34#6
  | .threeBitSplit => 35#6
  | .cross => 36#6
  | .prime => 37#6
  | .oneBank => 38#6
  | .twoBanks => 39#6
  | .blockH => 40#6
  | .blockV => 41#6
  | .blockD1 => 42#6
  | .blockD2 => 43#6
  | .bank1H => 44#6
  | .bank1V => 45#6
  | .bank1D1 => 46#6
  | .bank1D2 => 47#6
  | .roMotion8 => 48#6
  | .rom8U4 => 49#6
  | .rom8U8 => 50#6
  | .rom8U16 => 51#6
  | .rcMotion8 => 52#6
  | .rcm8U4 => 53#6
  | .rcm8U8 => 54#6
  | .rcm8U16 => 55#6
  | .roMotion4 => 56#6
  | .rom4U4 => 57#6
  | .rom4U8 => 58#6
  | .rom4U16 => 59#6
  | .rcMotion4 => 60#6
  | .rcm4U4 => 61#6
  | .rcm4U8 => 62#6
  | .rcm4U16 => 63#6

/-- Opcodes packed four to three bytes, the first in the lowest bits, the lowest byte first (R100). A last group of
fewer than four opcodes takes only the bytes it needs (R63). -/
def packOpcodes : List (BitVec 6) → List Byte
  | a :: b :: c :: d :: rest => littleEndianBytes 3 (d ++ c ++ b ++ a).toNat ++ packOpcodes rest
  | [a, b, c] => littleEndianBytes 3 (c ++ b ++ a).toNat
  | [a, b] => littleEndianBytes 2 (b ++ a).toNat
  | [a] => littleEndianBytes 1 a.toNat
  | [] => []

/-- The bytes of an opcode stream that holds one instruction. -/
def encode (i : Instr) : List Byte := packOpcodes [i.opcode]

/-- The opcode stream of a list of instructions, one per tile in raster order (R100). -/
def encodeStream (is : List Instr) : List Byte := packOpcodes (is.map Instr.opcode)

/-- Assembling a frame (R112): the head field, the opcode stream, zero padding to `ALN_START`, all `A:` bytes in tile
order, then all `U:` bytes, with `color_offset` the offset at which the `U:` bytes begin. -/
def FrameProgram.assemble (p : FrameProgram) : List Byte :=
  let ops := encodeStream (p.tiles.map TileLine.instr)
  let start := alnStart p.width p.tiles.length
  let padding := List.replicate (start - 4 - ops.length) (0 : Byte)
  let aligned := p.tiles.flatMap TileLine.aligned
  let unaligned := p.tiles.flatMap TileLine.unaligned
  littleEndianBytes 4 (start + aligned.length) ++ ops ++ padding ++ aligned ++ unaligned

end Sys2Proof
end

