-- ==== Sys2Proof/Machine/State.lean ====
section
/-!
DEFINITION. The state of the core as plain data (10_state.md), the reasons a step of the model can stop, and the state
after reset (R38, R350). The list of all fields with their widths, rules and reset values is INVENTORY.md, "State".
-/

namespace Sys2Proof.Machine

/-- A byte memory: the bytes that are listed, by address, addresses strictly rising. What an unlisted address reads as
is said by `frameByte` for a frame buffer and by `State.plByte` for `PL`. -/
abbrev Memory := List Host.Cell

/-- `RUN` (R30). The fourth value of its two bits never occurs. -/
inductive RunState where
  | idle
  | busy
  | halted
deriving DecidableEq, Repr

/-- The access that overran, `FAULT_STREAM` (R32). -/
inductive StreamId where
  | head
  | opcode
  | aligned
  | unaligned
deriving DecidableEq, Repr

/-- The two faults the core raises (R320). Both are TAKEN: they end the run in a next state. -/
inductive FaultCause where
  /-- `PlRead(addr, n, stream)` with `addr + n > PAYLOAD_LEN` (R321). -/
  | streamOverrun (stream : StreamId) (addr : Nat)
  /-- START with an unusable configuration (R322). -/
  | configFault
deriving DecidableEq, Repr

/-- The latched flags of `STATUS` (R31); its mirror bits are computed (`State.statusWord`). -/
structure StatusFlags where
  /-- Bit 1, `DONE`. -/
  done : Bool
  /-- Bit 3, `ERR_OVERRUN`. -/
  errOverrun : Bool
  /-- Bit 4, `ERR_CONFIG`. -/
  errConfig : Bool
  /-- Bit 5, `REF_OOB`. -/
  refOob : Bool
  /-- Bit 6, `DEGRADED`. -/
  degraded : Bool
deriving DecidableEq, Repr

/-- The fault record (R32): `FAULT_KIND`, `FAULT_TILE`, `FAULT_OPCODE`, `FAULT_STREAM`, `FAULT_ADDR`. -/
structure FaultRecord where
  kind : BitVec 2
  tile : Ptr
  opcode : BitVec 6
  stream : BitVec 2
  addr : Ptr
deriving DecidableEq, Repr

/-- One record of `EMIT_LOG` (R40). -/
structure EmitRecord where
  width : Nat
  height : Nat
  bytes : List Byte
deriving DecidableEq, Repr

/-- The state of the core (R20). -/
structure State where
  /-- `PL`, the payload memory (R21). -/
  pl : Memory
  /-- `FB0` (R21). -/
  fb0 : Memory
  /-- `FB1` (R21). -/
  fb1 : Memory
  /-- `CFG_WIDTH` (R23). -/
  cfgWidth : Dim
  /-- `CFG_HEIGHT` (R23). -/
  cfgHeight : Dim
  /-- `CFG_COMPRESSOR` (R23). -/
  cfgCompressor : BitVec 32
  /-- `PAYLOAD_LEN` (R23). -/
  payloadLen : Ptr
  /-- `TILE_IDX` (R25). -/
  tileIdx : Ptr
  /-- `OPC_PTR` (R25). -/
  opcPtr : Ptr
  /-- `OPREG` (R25). -/
  opreg : BitVec 24
  /-- `OPCNT` (R25). -/
  opcnt : BitVec 3
  /-- `TILE_X` (R26). -/
  tileX : Dim
  /-- `TILE_Y` (R26). -/
  tileY : Dim
  /-- `TILE_OFS` (R26). -/
  tileOfs : Ptr
  /-- `ALN_PTR` (R27). -/
  alnPtr : Ptr
  /-- `UNA_PTR` (R27). -/
  unaPtr : Ptr
  /-- `COLOR_OFFSET` (R27). -/
  colorOffset : Ptr
  /-- `BUFSEL`, true for 1 (R28). -/
  bufsel : Bool
  /-- `LAST_COLOR` (R29). -/
  lastColor : Byte
  /-- `NIB_FLAG`, true for 1 (R29). -/
  nibFlag : Bool
  /-- `NIB_BYTE` (R29). -/
  nibByte : Byte
  /-- `BANK` (R29). -/
  bank : Byte
  /-- `RUN` (R30). -/
  run : RunState
  /-- The latched flags of `STATUS` (R31). -/
  flags : StatusFlags
  /-- The fault record (R32). -/
  fault : FaultRecord
  /-- `EMIT_LOG` (R40), oldest record first. -/
  emitLog : List EmitRecord
  /-- The model's own: how many free values have been taken (logs 4 and 5). -/
  freeTick : Nat
  /-- The model's own: how many resets there have been (log 1). -/
  resetCount : Nat
deriving DecidableEq, Repr

/-- Reasons the model stops with a fault. No instruction raises one. -/
inductive Fault where
  /-- Raised by `step` when `RUN` = BUSY and `TILE_IDX` is not below `T`: outside the precondition of `Step` (R135), a
  state no run reaches. Safe: the model stops where the spec gives no behaviour (log 12). -/
  | noTileLeft
  /-- Raised by a host access to a memory byte at or beyond the memory's capacity (R21, R35). Safe: there is no such
  byte (log 8). -/
  | noSuchByte
deriving DecidableEq, Repr

/-- Reasons the model refuses. -/
inductive Refusal where
  /-- An instruction that has no meaning yet, by its mnemonic; raised in `exec` only. Safe. No arm raises it. -/
  | notModelled (mnemonic : String)
  /-- Raised by a host write to `PL`, `FB0` or `FB1` while `RUN` = BUSY, which IMP5 says a model rejects (R361). Safe
  (log 6). -/
  | hostWriteWhileBusy
deriving DecidableEq, Repr

/-- All latched flags clear. -/
def StatusFlags.clear : StatusFlags :=
  { done := false, errOverrun := false, errConfig := false, refOob := false, degraded := false }

/-- No fault recorded since reset (R32). -/
def FaultRecord.none : FaultRecord := { kind := 0, tile := 0, opcode := 0, stream := 0, addr := 0 }

/-- The state after reset (R38, R350). `PL` is unspecified, so nothing of it is listed (log 1); the model's own
counters start at 0 (log 17). -/
def State.reset : State :=
  { pl := [], fb0 := [], fb1 := []
    cfgWidth := 0, cfgHeight := 0, cfgCompressor := 0, payloadLen := 0
    tileIdx := 0, opcPtr := 0, opreg := 0, opcnt := 0
    tileX := 0, tileY := 0, tileOfs := 0
    alnPtr := 0, unaPtr := 0, colorOffset := 0
    bufsel := false
    lastColor := 0, nibFlag := false, nibByte := 0, bank := 0
    run := .idle
    flags := StatusFlags.clear
    fault := FaultRecord.none
    emitLog := []
    freeTick := 0, resetCount := 0 }

end Sys2Proof.Machine
end

