-- ==== Sys2Proof/Machine/Flags.lean ====
section
/-!
DEFINITION. The status flags (10_state.md R31): every write of a flag, and the `STATUS` register as the host reads it.
No opcode reads a flag.
-/

namespace Sys2Proof.Machine

/-- `STATUS.REF_OOB <- 1` (R74). -/
def State.setRefOob (s : State) : State := { s with flags := { s.flags with refOob := true } }

/-- `STATUS.DONE <- 1` (R139). -/
def State.setDone (s : State) : State := { s with flags := { s.flags with done := true } }

/-- The error flag that fault entry sets (R323). -/
def StatusFlags.markFault (f : StatusFlags) : FaultCause → StatusFlags
  | .streamOverrun _ _ => { f with errOverrun := true }
  | .configFault => { f with errConfig := true }

/-- The flags as the first action of START leaves them (R131, R327). -/
def State.startFlags (s : State) : StatusFlags :=
  { done := false, errOverrun := false, errConfig := false, refOob := false
    degraded := decide (s.cfgCompressor ≠ 0) }

/-- The `STATUS` register (R31): bit 0 `BUSY`, 1 `DONE`, 2 `HALTED`, 3 `ERR_OVERRUN`, 4 `ERR_CONFIG`, 5 `REF_OOB`,
6 `DEGRADED`, 7 `BUFSEL`; bits 31:8 read as zero. -/
def State.statusWord (s : State) : BitVec 32 :=
  0#24 ++ BitVec.ofBool s.bufsel ++ BitVec.ofBool s.flags.degraded ++ BitVec.ofBool s.flags.refOob
    ++ BitVec.ofBool s.flags.errConfig ++ BitVec.ofBool s.flags.errOverrun
    ++ BitVec.ofBool (decide (s.run = .halted)) ++ BitVec.ofBool s.flags.done
    ++ BitVec.ofBool (decide (s.run = .busy))

end Sys2Proof.Machine
end

