-- ==== Sys2Proof/Machine/Ops.lean ====
section
/-!
DEFINITION. The named operations over the memories and registers (20_memory.md): byte memories, the derived quantities
of R6, `PlRead`, `Pix`, `QPix`, `Prev`, `Copy8`, `Copy4`, and taking a fault (60_exceptions.md R323). There is no return
from a fault (R325): the host leaves HALTED by START, CLEAR or reset (Machine/HostPort.lean).
-/

namespace Sys2Proof.Machine

/-! ### Byte memories -/

/-- The byte listed at an address. -/
def Memory.find? : Memory → Nat → Option Byte
  | [], _ => none
  | (k, w) :: m, a => if a = k then some w else Memory.find? m a

/-- The memory with `v` listed at `a`. -/
def Memory.insert (a : Nat) (v : Byte) : Memory → Memory
  | [] => [(a, v)]
  | (k, w) :: m =>
    if a < k then (a, v) :: (k, w) :: m
    else if a = k then (a, v) :: m
    else (k, w) :: Memory.insert a v m

/-- The memory with nothing listed at `a`. -/
def Memory.erase (a : Nat) : Memory → Memory
  | [] => []
  | (k, w) :: m => if a = k then Memory.erase a m else (k, w) :: Memory.erase a m

/-- Addresses strictly rising. -/
abbrev Memory.Ascending (m : Memory) : Prop := (m.map Prod.fst).Pairwise (· < ·)

/-- A byte of a frame buffer. An unlisted one is 0x00, the content reset and CLEAR give it (R38, R351). -/
def Memory.frameByte (m : Memory) (a : Nat) : Byte := (m.find? a).getD 0x00#8

/-- Writing a byte of a frame buffer; 0x00 is what an unlisted byte reads as, so it is not listed. -/
def Memory.setFrameByte (m : Memory) (a : Nat) (v : Byte) : Memory :=
  if v = 0x00#8 then m.erase a else m.insert a v

/-- The canonical form of a frame buffer. -/
abbrev Memory.FrameWf (m : Memory) : Prop := m.Ascending ∧ ∀ e ∈ m, e.2 ≠ 0x00#8

/-- The canonical form of every memory: a frame buffer lists no 0x00; an unlisted byte of `PL` has no stated value, so
every byte ever written is listed. -/
abbrev State.MemoryWf (s : State) : Prop := s.pl.Ascending ∧ s.fb0.FrameWf ∧ s.fb1.FrameWf

/-! ### Address spaces (R8, R21, R71) -/

/-- The spaces of the memory primitives (R8). -/
inductive Space where
  | pl
  | cur
  | prv
deriving DecidableEq, Repr

/-- A byte of `PL`: the byte last written there; one that nothing has written since the last reset is a free value
(R38, IMP7; log 1). DESIGN CHOICE: this holds at and beyond `PAYLOAD_LEN` too, where IMP7 allows any value at any time
(log 22). -/
def State.plByte (s : State) (a : Nat) : Byte := (s.pl.find? a).getD (Config.unwrittenPl s.resetCount a)

/-- The memory in the current role (R28). -/
def State.curMem (s : State) : Memory := if s.bufsel then s.fb1 else s.fb0

/-- The memory in the previous role (R28). -/
def State.prvMem (s : State) : Memory := if s.bufsel then s.fb0 else s.fb1

/-- One byte of a space. -/
def State.byteAt (s : State) : Space → Nat → Byte
  | .pl, a => s.plByte a
  | .cur, a => s.curMem.frameByte a
  | .prv, a => s.prvMem.frameByte a

/-- One byte of a space written. -/
def State.setByte (s : State) : Space → Nat → Byte → State
  | .pl, a, v => { s with pl := s.pl.insert a v }
  | .cur, a, v =>
    { s with fb0 := if s.bufsel then s.fb0 else s.fb0.setFrameByte a v
             fb1 := if s.bufsel then s.fb1.setFrameByte a v else s.fb1 }
  | .prv, a, v =>
    { s with fb0 := if s.bufsel then s.fb0.setFrameByte a v else s.fb0
             fb1 := if s.bufsel then s.fb1 else s.fb1.setFrameByte a v }

/-- `MemRead(space, addr, n)` (R8, R61): little-endian. -/
def State.memRead (s : State) (sp : Space) (addr : Nat) : (n : Nat) → Nat
  | 0 => 0
  | n + 1 => (s.byteAt sp addr).toNat + 256 * s.memRead sp (addr + 1) n

/-- `MemWrite(space, addr, n, v)` (R8, R61): the low `8*n` bits, least significant byte first. -/
def State.memWrite (s : State) (sp : Space) (addr : Nat) : (n : Nat) → (v : Nat) → State
  | 0, _ => s
  | n + 1, v => (s.setByte sp addr (BitVec.ofNat 8 v)).memWrite sp (addr + 1) n (v / 256)

/-! ### Quantities derived from the configuration (R6, R39) -/

/-- `W`. -/
def State.width (s : State) : Nat := s.cfgWidth.toNat

/-- `H`. -/
def State.height (s : State) : Nat := s.cfgHeight.toNat

/-- `T`. -/
def State.tiles (s : State) : Nat := tileCount s.width s.height

/-- `TW`. -/
def State.tilesPerRow (s : State) : Nat := s.width / 8

/-- `FBSIZE` = `W*H`, the bytes of a frame. -/
def State.frameSize (s : State) : Nat := s.width * s.height

/-- `OPBYTES` (R63). -/
def State.opBytes (s : State) : Nat := Sys2Proof.opBytes s.tiles

/-- `ALN_START` (R64). -/
def State.alnStart (s : State) : Nat := Sys2Proof.alnStart s.width s.tiles

/-- `QUAD_OFS[q]` (R6, R73): 0, 4, 4*W, 4*W + 4. -/
def State.quadOfs (s : State) : Nat → Nat
  | 0 => 0
  | 1 => 4
  | 2 => 4 * s.width
  | _ => 4 * s.width + 4

/-! ### Running inside a step -/

/-- What `PlRead` raises (R66). -/
structure Overrun where
  stream : StreamId
  addr : Nat
deriving DecidableEq, Repr

/-- A computation inside a run: it may raise an overrun, and the state it had reached then is kept (R321: earlier reads
of the step have advanced their pointers). -/
abbrev Exec := EStateM Overrun State

/-- `for i in 0..n-1`: `f 0`, then `f 1`, and so on (R9). -/
def forUpTo : (n : Nat) → (f : Nat → Exec Unit) → Exec Unit
  | 0, _ => pure ()
  | n + 1, f => do
    forUpTo n f
    f n

/-- The results of `f` run `n` times, in order. -/
def readList (n : Nat) (f : Exec Byte) : Exec (List Byte) :=
  match n with
  | 0 => pure []
  | n + 1 => do
    let v ← f
    let vs ← readList n f
    pure (v :: vs)

/-- `PlRead(addr, n, s)` (R66): bounds-checked on integers against `PAYLOAD_LEN`. -/
def plRead (addr n : Nat) (stream : StreamId) : Exec Nat := fun s =>
  if addr + n > s.payloadLen.toNat then .error { stream := stream, addr := addr } s
  else .ok (s.memRead .pl addr n) s

/-! ### Pixels (R70 to R76) -/

/-- The address of the tile's pixel at row `r`, column `c` (R72). -/
def State.pixAddr (s : State) (r c : Nat) : Nat := s.tileOfs.toNat + r * s.width + c

/-- The address of row `r`, column `c` of quadrant `q` (R73). -/
def State.qpixAddr (s : State) (q r c : Nat) : Nat := s.tileOfs.toNat + s.quadOfs q + r * s.width + c

/-- `Pix(r, c) <- v` (R72). -/
def pix (r c : Nat) (v : Byte) : Exec Unit :=
  modify fun s => s.memWrite .cur (s.pixAddr r c) 1 v.toNat

/-- `QPix(q, r, c) <- v` (R73). -/
def qpix (q r c : Nat) (v : Byte) : Exec Unit :=
  modify fun s => s.memWrite .cur (s.qpixAddr q r c) 1 v.toNat

/-- Is the linear index inside the frame (R74)? -/
abbrev State.InFrame (s : State) (a : Int) : Prop := 0 ≤ a ∧ a < s.frameSize

/-- The value `Prev(a)` returns (R74). -/
def State.prevByte (s : State) (a : Int) : Byte :=
  if s.InFrame a then s.byteAt .prv a.toNat else Config.oobByte a

/-- `Prev(a)` (R74): outside the frame it sets `REF_OOB` and is no fault. -/
def prev (a : Int) : Exec Byte := fun s =>
  .ok (s.prevByte a) (if s.InFrame a then s else s.setRefOob)

/-- `Copy8(src)` (R75). -/
def copy8 (src : Int) : Exec Unit :=
  forUpTo 8 fun r => forUpTo 8 fun c => do
    let s ← get
    let v ← prev (src + (r * s.width + c : Nat))
    pix r c v

/-- `Copy4(q, src)` (R75). -/
def copy4 (q : Nat) (src : Int) : Exec Unit :=
  forUpTo 4 fun r => forUpTo 4 fun c => do
    let s ← get
    let v ← prev (src + (r * s.width + c : Nat))
    qpix q r c v

/-! ### Taking a fault (R320 to R323) -/

/-- The code of `FAULT_STREAM` (R32). -/
def StreamId.code : StreamId → BitVec 2
  | .head => 0
  | .opcode => 1
  | .aligned => 2
  | .unaligned => 3

/-- The code of `FAULT_KIND` (R320). -/
def FaultCause.code : FaultCause → BitVec 2
  | .streamOverrun _ _ => 1
  | .configFault => 2

/-- The fault record that fault entry writes (R323). `op` is the opcode of the step when the fault is in its base or
overlay, else 0; `TILE_IDX` is read when an initialised run overran. -/
def State.faultRecord (s : State) (op : BitVec 6) (c : FaultCause) : FaultRecord :=
  match c with
  | .streamOverrun stream addr =>
    { kind := c.code, tile := s.tileIdx, opcode := op, stream := stream.code, addr := BitVec.ofNat 32 addr }
  | .configFault => { kind := c.code, tile := 0, opcode := 0, stream := 0, addr := 0 }

/-- `FaultEntry` (R323): the record and the error flag are written and the run is over; nothing else changes. -/
def State.faultEntry (s : State) (op : BitVec 6) (c : FaultCause) : State :=
  { s with fault := s.faultRecord op c, flags := s.flags.markFault c, run := .halted }

/-- The 64 pixels of the tile whose step overran hold any value (R321, IMP4): each becomes a free byte (log 4). -/
def State.freeTile (s : State) : State :=
  { (List.range 64).foldl
      (fun t k => t.setByte .cur (s.pixAddr (k / 8) (k % 8)) (Config.faultPixel (s.freeTick + k))) s with
    freeTick := s.freeTick + 64 }

/-- A StreamOverrun inside a step (R321, R323): the tile's pixels are free and the fault is taken. -/
def State.overrunInStep (s : State) (op : BitVec 6) (e : Overrun) : State :=
  s.freeTile.faultEntry op (.streamOverrun e.stream e.addr)

/-- The instruction part of a step (R134, R135): the base and the overlay of `i`, or the overrun that one of their
reads raises, taken. -/
def runTile (i : Instr) (body : Exec Unit) (s : State) : Host.Outcome State Fault Refusal :=
  match body s with
  | .ok _ t => .next t
  | .error e t => .next (t.overrunInStep i.opcode e)

end Sys2Proof.Machine
end

