-- ==== Sys2Proof/Machine/Operands.lean ====
section
/-!
DEFINITION. The operand forms: the stream readers (20_memory.md R67 to R69) and the assembly of operand fields
(30_encoding.md R105 to R108).
-/

namespace Sys2Proof.Machine

/-! ### Stream readers -/

/-- Read `n` bytes at `ALN_PTR`, then advance it; a fault leaves it (R67). -/
def alignedRead (n : Nat) : Exec Nat := do
  let s ← get
  let v ← plRead s.alnPtr.toNat n .aligned
  modify fun t => { t with alnPtr := t.alnPtr + BitVec.ofNat 32 n }
  pure v

/-- Read `n` bytes at `UNA_PTR`, then advance it; a fault leaves it (R68). -/
def unalignedRead (n : Nat) : Exec Nat := do
  let s ← get
  let v ← plRead s.unaPtr.toNat n .unaligned
  modify fun t => { t with unaPtr := t.unaPtr + BitVec.ofNat 32 n }
  pure v

/-- `A8()` (R67). -/
def a8 : Exec Byte := do return BitVec.ofNat 8 (← alignedRead 1)

/-- `A16()` (R67). -/
def a16 : Exec (BitVec 16) := do return BitVec.ofNat 16 (← alignedRead 2)

/-- `A16s()` (R67). -/
def a16s : Exec Int := do return (← a16).toInt

/-- `A24()` (R67). -/
def a24 : Exec (BitVec 24) := do return BitVec.ofNat 24 (← alignedRead 3)

/-- `A32()` (R67). -/
def a32 : Exec (BitVec 32) := do return BitVec.ofNat 32 (← alignedRead 4)

/-- `A40()` (R67). -/
def a40 : Exec (BitVec 40) := do return BitVec.ofNat 40 (← alignedRead 5)

/-- `U8()` (R68). -/
def u8 : Exec Byte := do return BitVec.ofNat 8 (← unalignedRead 1)

/-- `U16()` (R68). -/
def u16 : Exec (BitVec 16) := do return BitVec.ofNat 16 (← unalignedRead 2)

/-- `U16s()` (R68). -/
def u16s : Exec Int := do return (← u16).toInt

/-- `U24()` (R68). -/
def u24 : Exec (BitVec 24) := do return BitVec.ofNat 24 (← unalignedRead 3)

/-! ### Fields -/

/-- `Idx(v, n, j) = v[n*j + n - 1 : n*j]` (R200, R108). -/
def idx {w : Nat} (v : BitVec w) (n j : Nat) : BitVec n := v.extractLsb' (n * j) n

/-- `b[3:0]`. -/
def lowNibble (b : Byte) : BitVec 4 := b.extractLsb' 0 4

/-- `b[7:4]`. -/
def highNibble (b : Byte) : BitVec 4 := b.extractLsb' 4 4

/-- `SMVec(b)` (R160, R106): `dx` in the low nibble, `dy` in the high nibble, one unit of `dy` a full row. -/
def smVec (w : Nat) (b : Byte) : Int := (lowNibble b).toInt + (highNibble b).toInt * w

/-- `xy_offset(W)` of the bytes `dx`, `dy` (R69): half rows, reduced modulo 2^16 and read as signed. -/
def xyOffset (w : Nat) (dx dy : Byte) : Int := (BitVec.ofInt 16 (dx.toInt + dy.toInt * (w / 2 : Nat))).toInt

/-- `AXY()` (R69): `dx` is the byte at the lower address. -/
def axy : Exec Int := do
  let dx ← a8
  let dy ← a8
  return xyOffset (← get).width dx dy

/-- `UXY()` (R69). -/
def uxy : Exec Int := do
  let dx ← u8
  let dy ← u8
  return xyOffset (← get).width dx dy

/-- The bank base of a bank byte: `(byte << 4) mod 256` (R107, D22). -/
def bankBase (b : Byte) : Byte := b <<< 4

/-- `bank + nibble`, modulo 256 (R107). -/
def bankPixel (bank : Byte) (nibble : BitVec 4) : Byte := bank + nibble.setWidth 8

end Sys2Proof.Machine
end

