-- ==== Sys2Proof/Machine/BitPacked.lean ====
section
/-!
DEFINITION. The bit-packed tiles and the split 4×4 tiles (43_bitpacked.md): opcodes 29 to 35. A colour list is read in
increasing index order, its first byte `k[0]` (R200).
-/

namespace Sys2Proof.Machine

/-- `k[i]` of a colour list; the index is always in range. -/
def colour (k : List Byte) (i : Nat) : Byte := k.getD i 0

/-- One row of eight pixels, `n` bits each, least significant first (R200). -/
def packedRow {w : Nat} (k : List Byte) (n : Nat) (v : BitVec w) (r : Nat) : Exec Unit :=
  forUpTo 8 fun c => pix r c (colour k (idx v n c).toNat)

/-- `count` pixels of quadrant `q` from linear index `d0` on, `n` bits each (R73, R200). -/
def packedQuad {w : Nat} (k : List Byte) (n : Nat) (v : BitVec w) (q d0 count : Nat) : Exec Unit :=
  forUpTo count fun j => qpix q ((d0 + j) / 4) ((d0 + j) % 4) (colour k (idx v n j).toNat)

/-- `OneBit` (R201). -/
def baseOneBit : Exec Unit := do
  let k ← readList 2 u8
  forUpTo 8 fun r => do
    let m ← a8
    packedRow k 1 m r

/-- `TwoBit` (R202). -/
def baseTwoBit : Exec Unit := do
  let k ← readList 4 a8
  forUpTo 8 fun r => do
    let v ← a16
    packedRow k 2 v r

/-- `ThreeBit` (R203). -/
def baseThreeBit : Exec Unit := do
  let k ← readList 8 u8
  forUpTo 8 fun r => do
    let v ← a24
    packedRow k 3 v r

/-- `FourBit` (R204). -/
def baseFourBit : Exec Unit := do
  let k ← readList 16 u8
  forUpTo 8 fun r => do
    let v ← a32
    packedRow k 4 v r

/-- `OneBitSplit` (R205). -/
def baseOneBitSplit : Exec Unit :=
  forUpTo 4 fun q => do
    let m ← a16
    let k ← readList 2 a8
    packedQuad k 1 m q 0 16

/-- `TwoBitSplit` (R206). -/
def baseTwoBitSplit : Exec Unit :=
  forUpTo 4 fun q => do
    let v ← a32
    let k ← readList 4 a8
    packedQuad k 2 v q 0 16

/-- `ThreeBitSplit` (R207). -/
def baseThreeBitSplit : Exec Unit :=
  forUpTo 4 fun q => do
    let k ← readList 8 u8
    forUpTo 2 fun h => do
      let v ← a24
      packedQuad k 3 v q (8 * h) 8

/-- Opcode 29, `OneBit` (R201). -/
def execOneBit (s : State) : Host.Outcome State Fault Refusal := runTile .oneBit baseOneBit s

/-- Opcode 30, `TwoBit` (R202). -/
def execTwoBit (s : State) : Host.Outcome State Fault Refusal := runTile .twoBit baseTwoBit s

/-- Opcode 31, `ThreeBit` (R203). -/
def execThreeBit (s : State) : Host.Outcome State Fault Refusal := runTile .threeBit baseThreeBit s

/-- Opcode 32, `FourBit` (R204). -/
def execFourBit (s : State) : Host.Outcome State Fault Refusal := runTile .fourBit baseFourBit s

/-- Opcode 33, `OneBitSplit` (R205). -/
def execOneBitSplit (s : State) : Host.Outcome State Fault Refusal := runTile .oneBitSplit baseOneBitSplit s

/-- Opcode 34, `TwoBitSplit` (R206). -/
def execTwoBitSplit (s : State) : Host.Outcome State Fault Refusal := runTile .twoBitSplit baseTwoBitSplit s

/-- Opcode 35, `ThreeBitSplit` (R207). -/
def execThreeBitSplit (s : State) : Host.Outcome State Fault Refusal := runTile .threeBitSplit baseThreeBitSplit s

end Sys2Proof.Machine
end

