-- ==== Sys2Proof/Machine/Block.lean ====
section
/-!
DEFINITION. The run-to-mask block decodes and the Bank-1 block decodes (45_block.md): opcodes 40 to 47.
-/

namespace Sys2Proof.Machine

/-! ### Traversals (R241) -/

/-- A traversal: the position (row, column) of the pixel of mask byte `i`, bit `j`. -/
abbrev Traversal := Nat → Nat → Nat × Nat

/-- `PosH`. -/
def posH : Traversal := fun i j => (i, j)

/-- `PosV`: mask byte `i` is column `i` (D33). -/
def posV : Traversal := fun i j => (j, i)

/-- A traversal given by a table of linear offsets inside the tile, indexed by `8*i + j` (R241, D20). -/
def posTable (table : Fin 64 → Fin 64) : Traversal := fun i j =>
  let t := (table (Fin.ofNat 64 (8 * i + j))).val
  (t / 8, t % 8)

/-- `PosD1`. -/
def posD1 : Traversal := posTable Config.diag1

/-- `PosD2`. -/
def posD2 : Traversal := posTable Config.diag2

/-! ### Procedures -/

/-- `LAST_COLOR <- v`. -/
def setLastColor (v : Byte) : Exec Unit := modify fun s => { s with lastColor := v }

/-- The loop that R240 and R247 share: along the traversal, a set mask bit takes a new colour from `next`, and every
pixel is written with `LAST_COLOR`. -/
def maskLoop (pos : Traversal) (next : Exec Byte) : Exec Unit :=
  forUpTo 8 fun i => do
    let m ← a8
    forUpTo 8 fun j => do
      if m.getLsbD j then setLastColor (← next)
      pix (pos i j).1 (pos i j).2 (← get).lastColor

/-- `RunMask(Pos)` (R240). -/
def runMask (pos : Traversal) : Exec Unit := do
  setLastColor Config.lastColorInit
  maskLoop pos u8

/-- `NextNibble()` (R246): low nibble first; the pointer passes a byte when its low nibble is taken. -/
def nextNibble : Exec (BitVec 4) := do
  if (← get).nibFlag then
    modify fun s => { s with nibFlag := false }
    return highNibble (← get).nibByte
  else
    let b ← u8
    modify fun s => { s with nibByte := b, nibFlag := true }
    return lowNibble b

/-- `Bank1(Pos)` (R247). -/
def bank1 (pos : Traversal) : Exec Unit := do
  let b ← u8
  modify fun s => { s with bank := bankBase b, nibFlag := false }
  setLastColor Config.lastColorInit
  maskLoop pos do
    let n ← nextNibble
    return bankPixel (← get).bank n

/-- Opcode 40, `BlockH` (R242). -/
def execBlockH (s : State) : Host.Outcome State Fault Refusal := runTile .blockH (runMask posH) s

/-- Opcode 41, `BlockV` (R243). -/
def execBlockV (s : State) : Host.Outcome State Fault Refusal := runTile .blockV (runMask posV) s

/-- Opcode 42, `BlockD1` (R244). -/
def execBlockD1 (s : State) : Host.Outcome State Fault Refusal := runTile .blockD1 (runMask posD1) s

/-- Opcode 43, `BlockD2` (R245). -/
def execBlockD2 (s : State) : Host.Outcome State Fault Refusal := runTile .blockD2 (runMask posD2) s

/-- Opcode 44, `Bank1-H` (R248). -/
def execBank1H (s : State) : Host.Outcome State Fault Refusal := runTile .bank1H (bank1 posH) s

/-- Opcode 45, `Bank1-V` (R249). -/
def execBank1V (s : State) : Host.Outcome State Fault Refusal := runTile .bank1V (bank1 posV) s

/-- Opcode 46, `Bank1-D1` (R250). -/
def execBank1D1 (s : State) : Host.Outcome State Fault Refusal := runTile .bank1D1 (bank1 posD1) s

/-- Opcode 47, `Bank1-D2` (R251). -/
def execBank1D2 (s : State) : Host.Outcome State Fault Refusal := runTile .bank1D2 (bank1 posD2) s

end Sys2Proof.Machine
end

