-- ==== Sys2Proof/Machine/CrossPrimeBank.lean ====
section
/-!
DEFINITION. The Cross, Prime and palette-bank tiles (44_cross_prime_bank.md): opcodes 36 to 39.
-/

namespace Sys2Proof.Machine

/-- `Cross` for a given pattern (R220, R221): sixteen colours, then the 32-bit value; quadrant `q` takes byte `q` of the
value and the colours `4q .. 4q+3`. -/
def crossWith (sel : Fin 16 → Byte → Fin 4) : Exec Unit := do
  let k ← readList 16 a8
  let v ← a32
  forUpTo 4 fun q => forUpTo 16 fun d =>
    qpix q (d / 4) (d % 4) (colour k (4 * q + (sel (Fin.ofNat 16 d) (v.extractLsb' (8 * q) 8)).val))

/-- `Cross` (R221). -/
def baseCross : Exec Unit := crossWith Config.crossSel

/-- `Prime` (R222). -/
def basePrime : Exec Unit := do
  let bg ← u8
  forUpTo 8 fun r => do
    let m ← a8
    forUpTo 8 fun c => do
      if m.getLsbD c then pix r c (← u8) else pix r c bg

/-- `OneBank` (R226). -/
def baseOneBank : Exec Unit := do
  let b ← u8
  modify fun s => { s with bank := bankBase b }
  forUpTo 8 fun r => forUpTo 4 fun j => do
    let p ← a8
    pix r (2 * j) (bankPixel (← get).bank (lowNibble p))
    pix r (2 * j + 1) (bankPixel (← get).bank (highNibble p))

/-- The pixel of a 5-bit field of a `TwoBanks` row: bit 4 selects the bank (R227). -/
def twoBanksPixel (b : Byte) (f : BitVec 5) : Byte :=
  if f.getLsbD 4 then bankPixel (b &&& 0xF0#8) (f.extractLsb' 0 4) else bankPixel (bankBase b) (f.extractLsb' 0 4)

/-- `TwoBanks` (R227): `bank0` is the low nibble moved up, `bank1` the high nibble in place. -/
def baseTwoBanks : Exec Unit := do
  let b ← u8
  forUpTo 8 fun r => do
    let v ← a40
    forUpTo 8 fun c => pix r c (twoBanksPixel b (idx v 5 c))

/-- Opcode 36, `Cross` (R221). -/
def execCross (s : State) : Host.Outcome State Fault Refusal := runTile .cross baseCross s

/-- Opcode 37, `Prime` (R222). -/
def execPrime (s : State) : Host.Outcome State Fault Refusal := runTile .prime basePrime s

/-- Opcode 38, `OneBank` (R226). -/
def execOneBank (s : State) : Host.Outcome State Fault Refusal := runTile .oneBank baseOneBank s

/-- Opcode 39, `TwoBanks` (R227). -/
def execTwoBanks (s : State) : Host.Outcome State Fault Refusal := runTile .twoBanks baseTwoBanks s

end Sys2Proof.Machine
end

