-- ==== Sys2Proof/Machine/FillRaw.lean ====
section
/-!
DEFINITION. The raw tile and the flat fills (42_fill_raw.md): opcodes 0, 21 and 25.
-/

namespace Sys2Proof.Machine

/-- `Raw` (R190): 64 aligned bytes, row-major. -/
def baseRaw : Exec Unit :=
  forUpTo 8 fun r => forUpTo 8 fun c => do pix r c (← a8)

/-- `SingleFill` (R191). -/
def baseSingleFill : Exec Unit := do
  let k ← u8
  forUpTo 8 fun r => forUpTo 8 fun c => pix r c k

/-- `FourFill` (R192). -/
def baseFourFill : Exec Unit :=
  forUpTo 4 fun q => do
    let k ← a8
    forUpTo 4 fun r => forUpTo 4 fun c => qpix q r c k

/-- Opcode 0, `Raw` (R190). -/
def execRaw (s : State) : Host.Outcome State Fault Refusal := runTile .raw baseRaw s

/-- Opcode 21, `SingleFill` (R191). -/
def execSingleFill (s : State) : Host.Outcome State Fault Refusal := runTile .singleFill baseSingleFill s

/-- Opcode 25, `FourFill` (R192). -/
def execFourFill (s : State) : Host.Outcome State Fault Refusal := runTile .fourFill baseFourFill s

end Sys2Proof.Machine
end

