-- ==== Sys2Proof/Machine/Motion.lean ====
section
/-!
DEFINITION. The motion-compensation opcodes (41_motion.md): the nine base primitives, and the meanings of opcodes 1, 5,
9, 13, 17, 48, 52, 56 and 60. Their composites are in Machine/Overlays.lean.
-/

namespace Sys2Proof.Machine

/-- `BIAS8 = 4 + 4*W` (R160). -/
def bias8 (w : Nat) : Int := 4 + 4 * w

/-- `BIAS4 = 2 + 2*W` (R160). -/
def bias4 (w : Nat) : Int := 2 + 2 * w

/-- The source of a relative 8×8 form with the vector `o`: `TILE_OFS + BIAS8 + o` (R160). -/
def State.source8 (s : State) (o : Int) : Int := s.tileOfs.toNat + bias8 s.width + o

/-- The source of a relative 4×4 form in quadrant `q` with the vector `o`: `TILE_OFS + QUAD_OFS[q] + BIAS4 + o`
(R160, D12). -/
def State.source4 (s : State) (q : Nat) (o : Int) : Int :=
  s.tileOfs.toNat + s.quadOfs q + bias4 s.width + o

/-- Copy the 8×8 block displaced by the vector `o`. -/
def copyRelative8 (o : Int) : Exec Unit := do copy8 ((← get).source8 o)

/-- Copy the 4×4 block of quadrant `q` displaced by the vector `o`. -/
def copyRelative4 (q : Nat) (o : Int) : Exec Unit := do copy4 q ((← get).source4 q o)

/-- `Zero` (R161). -/
def baseZero : Exec Unit := do copy8 (← get).tileOfs.toNat

/-- `ShortMotion8` (R162). -/
def baseShortMotion8 : Exec Unit := do
  let b ← u8
  copyRelative8 (smVec (← get).width b)

/-- `Motion8` (R163): an absolute index. -/
def baseMotion8 : Exec Unit := do
  let o ← u16
  copy8 o.toNat

/-- `ShortMotion4` (R164). -/
def baseShortMotion4 : Exec Unit :=
  forUpTo 4 fun q => do
    let b ← a8
    copyRelative4 q (smVec (← get).width b)

/-- `Motion4` (R165): absolute indices. -/
def baseMotion4 : Exec Unit :=
  forUpTo 4 fun q => do
    let o ← a16
    copy4 q o.toNat

/-- `ROMotion8` (R166). -/
def baseRoMotion8 : Exec Unit := do
  let o ← u16s
  copyRelative8 o

/-- `RCMotion8` (R167). -/
def baseRcMotion8 : Exec Unit := do
  let o ← uxy
  copyRelative8 o

/-- `ROMotion4` (R168). -/
def baseRoMotion4 : Exec Unit :=
  forUpTo 4 fun q => do
    let o ← a16s
    copyRelative4 q o

/-- `RCMotion4` (R169). -/
def baseRcMotion4 : Exec Unit :=
  forUpTo 4 fun q => do
    let o ← axy
    copyRelative4 q o

/-- Opcode 1, `Zero` (R161). -/
def execZero (s : State) : Host.Outcome State Fault Refusal := runTile .zero baseZero s

/-- Opcode 5, `ShortMotion8` (R162). -/
def execShortMotion8 (s : State) : Host.Outcome State Fault Refusal := runTile .shortMotion8 baseShortMotion8 s

/-- Opcode 9, `Motion8` (R163). -/
def execMotion8 (s : State) : Host.Outcome State Fault Refusal := runTile .motion8 baseMotion8 s

/-- Opcode 13, `ShortMotion4` (R164). -/
def execShortMotion4 (s : State) : Host.Outcome State Fault Refusal := runTile .shortMotion4 baseShortMotion4 s

/-- Opcode 17, `Motion4` (R165). -/
def execMotion4 (s : State) : Host.Outcome State Fault Refusal := runTile .motion4 baseMotion4 s

/-- Opcode 48, `ROMotion8` (R166). -/
def execRoMotion8 (s : State) : Host.Outcome State Fault Refusal := runTile .roMotion8 baseRoMotion8 s

/-- Opcode 52, `RCMotion8` (R167). -/
def execRcMotion8 (s : State) : Host.Outcome State Fault Refusal := runTile .rcMotion8 baseRcMotion8 s

/-- Opcode 56, `ROMotion4` (R168). -/
def execRoMotion4 (s : State) : Host.Outcome State Fault Refusal := runTile .roMotion4 baseRoMotion4 s

/-- Opcode 60, `RCMotion4` (R169). -/
def execRcMotion4 (s : State) : Host.Outcome State Fault Refusal := runTile .rcMotion4 baseRcMotion4 s

end Sys2Proof.Machine
end

