-- ==== Sys2Proof/Machine/Overlays.lean ====
section
/-!
DEFINITION. The update overlays and the 33 composite opcodes (46_overlays.md). A composite runs its base and then its
overlay, on the same tile, each stream pointer going on from where the base left it (R273).
-/

namespace Sys2Proof.Machine

/-- `Update4` (R270): four patches, patch `k` at the 6-bit position field `k`, column in its low three bits. -/
def update4 : Exec Unit := do
  let v ← u24
  forUpTo 4 fun k => do
    let p := idx v 6 k
    pix (idx p 3 1).toNat (idx p 3 0).toNat (← a8)

/-- `Update8` (R271). -/
def update8 : Exec Unit := do
  update4
  update4

/-- `Update16` (R272). -/
def update16 : Exec Unit :=
  forUpTo 8 fun r => do
    let m ← a8
    forUpTo 8 fun c => do
      if m.getLsbD c then pix r c (← u8)

/-- Opcode 2, `Zero+U4` (R274). -/
def execZeroU4 (s : State) : Host.Outcome State Fault Refusal :=
  runTile .zeroU4 (do baseZero; update4) s

/-- Opcode 3, `Zero+U8` (R275). -/
def execZeroU8 (s : State) : Host.Outcome State Fault Refusal :=
  runTile .zeroU8 (do baseZero; update8) s

/-- Opcode 4, `Zero+U16` (R276). -/
def execZeroU16 (s : State) : Host.Outcome State Fault Refusal :=
  runTile .zeroU16 (do baseZero; update16) s

/-- Opcode 6, `SM8+U4` (R277). -/
def execSm8U4 (s : State) : Host.Outcome State Fault Refusal :=
  runTile .sm8U4 (do baseShortMotion8; update4) s

/-- Opcode 7, `SM8+U8` (R278). -/
def execSm8U8 (s : State) : Host.Outcome State Fault Refusal :=
  runTile .sm8U8 (do baseShortMotion8; update8) s

/-- Opcode 8, `SM8+U16` (R279). -/
def execSm8U16 (s : State) : Host.Outcome State Fault Refusal :=
  runTile .sm8U16 (do baseShortMotion8; update16) s

/-- Opcode 10, `M8+U4` (R280). -/
def execM8U4 (s : State) : Host.Outcome State Fault Refusal :=
  runTile .m8U4 (do baseMotion8; update4) s

/-- Opcode 11, `M8+U8` (R281). -/
def execM8U8 (s : State) : Host.Outcome State Fault Refusal :=
  runTile .m8U8 (do baseMotion8; update8) s

/-- Opcode 12, `M8+U16` (R282). -/
def execM8U16 (s : State) : Host.Outcome State Fault Refusal :=
  runTile .m8U16 (do baseMotion8; update16) s

/-- Opcode 14, `SM4+U4` (R283). -/
def execSm4U4 (s : State) : Host.Outcome State Fault Refusal :=
  runTile .sm4U4 (do baseShortMotion4; update4) s

/-- Opcode 15, `SM4+U8` (R284). -/
def execSm4U8 (s : State) : Host.Outcome State Fault Refusal :=
  runTile .sm4U8 (do baseShortMotion4; update8) s

/-- Opcode 16, `SM4+U16` (R285). -/
def execSm4U16 (s : State) : Host.Outcome State Fault Refusal :=
  runTile .sm4U16 (do baseShortMotion4; update16) s

/-- Opcode 18, `M4+U4` (R286). -/
def execM4U4 (s : State) : Host.Outcome State Fault Refusal :=
  runTile .m4U4 (do baseMotion4; update4) s

/-- Opcode 19, `M4+U8` (R287). -/
def execM4U8 (s : State) : Host.Outcome State Fault Refusal :=
  runTile .m4U8 (do baseMotion4; update8) s

/-- Opcode 20, `M4+U16` (R288). -/
def execM4U16 (s : State) : Host.Outcome State Fault Refusal :=
  runTile .m4U16 (do baseMotion4; update16) s

/-- Opcode 22, `SF+U4` (R289). -/
def execSfU4 (s : State) : Host.Outcome State Fault Refusal :=
  runTile .sfU4 (do baseSingleFill; update4) s

/-- Opcode 23, `SF+U8` (R290). -/
def execSfU8 (s : State) : Host.Outcome State Fault Refusal :=
  runTile .sfU8 (do baseSingleFill; update8) s

/-- Opcode 24, `SF+U16` (R291). -/
def execSfU16 (s : State) : Host.Outcome State Fault Refusal :=
  runTile .sfU16 (do baseSingleFill; update16) s

/-- Opcode 26, `FF+U4` (R292). -/
def execFfU4 (s : State) : Host.Outcome State Fault Refusal :=
  runTile .ffU4 (do baseFourFill; update4) s

/-- Opcode 27, `FF+U8` (R293). -/
def execFfU8 (s : State) : Host.Outcome State Fault Refusal :=
  runTile .ffU8 (do baseFourFill; update8) s

/-- Opcode 28, `FF+U16` (R294). -/
def execFfU16 (s : State) : Host.Outcome State Fault Refusal :=
  runTile .ffU16 (do baseFourFill; update16) s

/-- Opcode 49, `ROM8+U4` (R295). -/
def execRom8U4 (s : State) : Host.Outcome State Fault Refusal :=
  runTile .rom8U4 (do baseRoMotion8; update4) s

/-- Opcode 50, `ROM8+U8` (R296). -/
def execRom8U8 (s : State) : Host.Outcome State Fault Refusal :=
  runTile .rom8U8 (do baseRoMotion8; update8) s

/-- Opcode 51, `ROM8+U16` (R297). -/
def execRom8U16 (s : State) : Host.Outcome State Fault Refusal :=
  runTile .rom8U16 (do baseRoMotion8; update16) s

/-- Opcode 53, `RCM8+U4` (R298). -/
def execRcm8U4 (s : State) : Host.Outcome State Fault Refusal :=
  runTile .rcm8U4 (do baseRcMotion8; update4) s

/-- Opcode 54, `RCM8+U8` (R299). -/
def execRcm8U8 (s : State) : Host.Outcome State Fault Refusal :=
  runTile .rcm8U8 (do baseRcMotion8; update8) s

/-- Opcode 55, `RCM8+U16` (R300). -/
def execRcm8U16 (s : State) : Host.Outcome State Fault Refusal :=
  runTile .rcm8U16 (do baseRcMotion8; update16) s

/-- Opcode 57, `ROM4+U4` (R301). -/
def execRom4U4 (s : State) : Host.Outcome State Fault Refusal :=
  runTile .rom4U4 (do baseRoMotion4; update4) s

/-- Opcode 58, `ROM4+U8` (R302). -/
def execRom4U8 (s : State) : Host.Outcome State Fault Refusal :=
  runTile .rom4U8 (do baseRoMotion4; update8) s

/-- Opcode 59, `ROM4+U16` (R303). -/
def execRom4U16 (s : State) : Host.Outcome State Fault Refusal :=
  runTile .rom4U16 (do baseRoMotion4; update16) s

/-- Opcode 61, `RCM4+U4` (R304). -/
def execRcm4U4 (s : State) : Host.Outcome State Fault Refusal :=
  runTile .rcm4U4 (do baseRcMotion4; update4) s

/-- Opcode 62, `RCM4+U8` (R305). -/
def execRcm4U8 (s : State) : Host.Outcome State Fault Refusal :=
  runTile .rcm4U8 (do baseRcMotion4; update8) s

/-- Opcode 63, `RCM4+U16` (R306). -/
def execRcm4U16 (s : State) : Host.Outcome State Fault Refusal :=
  runTile .rcm4U16 (do baseRcMotion4; update16) s

end Sys2Proof.Machine
end

