-- ==== Sys2Proof/Machine/Dispatch.lean ====
section
/-!
DEFINITION. The dispatcher (40_sequencer.md R134): one arm per instruction.
-/

namespace Sys2Proof.Machine

/-- The base and the overlay of an instruction, run in the current step (R134). -/
def exec (i : Instr) (s : State) : Host.Outcome State Fault Refusal :=
  match i with
  | .raw => Sys2Proof.Machine.execRaw s
  | .zero => Sys2Proof.Machine.execZero s
  | .zeroU4 => Sys2Proof.Machine.execZeroU4 s
  | .zeroU8 => Sys2Proof.Machine.execZeroU8 s
  | .zeroU16 => Sys2Proof.Machine.execZeroU16 s
  | .shortMotion8 => Sys2Proof.Machine.execShortMotion8 s
  | .sm8U4 => Sys2Proof.Machine.execSm8U4 s
  | .sm8U8 => Sys2Proof.Machine.execSm8U8 s
  | .sm8U16 => Sys2Proof.Machine.execSm8U16 s
  | .motion8 => Sys2Proof.Machine.execMotion8 s
  | .m8U4 => Sys2Proof.Machine.execM8U4 s
  | .m8U8 => Sys2Proof.Machine.execM8U8 s
  | .m8U16 => Sys2Proof.Machine.execM8U16 s
  | .shortMotion4 => Sys2Proof.Machine.execShortMotion4 s
  | .sm4U4 => Sys2Proof.Machine.execSm4U4 s
  | .sm4U8 => Sys2Proof.Machine.execSm4U8 s
  | .sm4U16 => Sys2Proof.Machine.execSm4U16 s
  | .motion4 => Sys2Proof.Machine.execMotion4 s
  | .m4U4 => Sys2Proof.Machine.execM4U4 s
  | .m4U8 => Sys2Proof.Machine.execM4U8 s
  | .m4U16 => Sys2Proof.Machine.execM4U16 s
  | .singleFill => Sys2Proof.Machine.execSingleFill s
  | .sfU4 => Sys2Proof.Machine.execSfU4 s
  | .sfU8 => Sys2Proof.Machine.execSfU8 s
  | .sfU16 => Sys2Proof.Machine.execSfU16 s
  | .fourFill => Sys2Proof.Machine.execFourFill s
  | .ffU4 => Sys2Proof.Machine.execFfU4 s
  | .ffU8 => Sys2Proof.Machine.execFfU8 s
  | .ffU16 => Sys2Proof.Machine.execFfU16 s
  | .oneBit => Sys2Proof.Machine.execOneBit s
  | .twoBit => Sys2Proof.Machine.execTwoBit s
  | .threeBit => Sys2Proof.Machine.execThreeBit s
  | .fourBit => Sys2Proof.Machine.execFourBit s
  | .oneBitSplit => Sys2Proof.Machine.execOneBitSplit s
  | .twoBitSplit => Sys2Proof.Machine.execTwoBitSplit s
  | .threeBitSplit => Sys2Proof.Machine.execThreeBitSplit s
  | .cross => Sys2Proof.Machine.execCross s
  | .prime => Sys2Proof.Machine.execPrime s
  | .oneBank => Sys2Proof.Machine.execOneBank s
  | .twoBanks => Sys2Proof.Machine.execTwoBanks s
  | .blockH => Sys2Proof.Machine.execBlockH s
  | .blockV => Sys2Proof.Machine.execBlockV s
  | .blockD1 => Sys2Proof.Machine.execBlockD1 s
  | .blockD2 => Sys2Proof.Machine.execBlockD2 s
  | .bank1H => Sys2Proof.Machine.execBank1H s
  | .bank1V => Sys2Proof.Machine.execBank1V s
  | .bank1D1 => Sys2Proof.Machine.execBank1D1 s
  | .bank1D2 => Sys2Proof.Machine.execBank1D2 s
  | .roMotion8 => Sys2Proof.Machine.execRoMotion8 s
  | .rom8U4 => Sys2Proof.Machine.execRom8U4 s
  | .rom8U8 => Sys2Proof.Machine.execRom8U8 s
  | .rom8U16 => Sys2Proof.Machine.execRom8U16 s
  | .rcMotion8 => Sys2Proof.Machine.execRcMotion8 s
  | .rcm8U4 => Sys2Proof.Machine.execRcm8U4 s
  | .rcm8U8 => Sys2Proof.Machine.execRcm8U8 s
  | .rcm8U16 => Sys2Proof.Machine.execRcm8U16 s
  | .roMotion4 => Sys2Proof.Machine.execRoMotion4 s
  | .rom4U4 => Sys2Proof.Machine.execRom4U4 s
  | .rom4U8 => Sys2Proof.Machine.execRom4U8 s
  | .rom4U16 => Sys2Proof.Machine.execRom4U16 s
  | .rcMotion4 => Sys2Proof.Machine.execRcMotion4 s
  | .rcm4U4 => Sys2Proof.Machine.execRcm4U4 s
  | .rcm4U8 => Sys2Proof.Machine.execRcm4U8 s
  | .rcm4U16 => Sys2Proof.Machine.execRcm4U16 s

end Sys2Proof.Machine
end

