-- ==== Sys2Proof/Machine/Sequencer.lean ====
section
/-!
DEFINITION. The frame sequencer (40_sequencer.md): the two actions of START, the opcode fetch, the tile advance and the
completion of a frame.
-/

namespace Sys2Proof.Machine

/-- `Fetch()` (R133). -/
def fetch : Exec (BitVec 6) := do
  let s ← get
  if s.opcnt = 0 then
    let v ← plRead s.opcPtr.toNat (min 3 (4 + s.opBytes - s.opcPtr.toNat)) .opcode
    modify fun t => { t with opreg := BitVec.ofNat 24 v, opcPtr := t.opcPtr + 3, opcnt := 4 }
  let t ← get
  set { t with opreg := t.opreg >>> 6, opcnt := t.opcnt - 1 }
  return t.opreg.setWidth 6

/-- `Advance()` (R137). -/
def State.advance (s : State) : State :=
  if s.tileX.toNat + 1 = s.tilesPerRow then
    { s with tileIdx := s.tileIdx + 1, tileX := 0, tileY := s.tileY + 1
             tileOfs := s.tileOfs + 8 + BitVec.ofNat 32 (7 * s.width) }
  else
    { s with tileIdx := s.tileIdx + 1, tileX := s.tileX + 1, tileOfs := s.tileOfs + 8 }

/-- `CUR[0 .. n-1]`. -/
def State.curBytes (s : State) (n : Nat) : List Byte := (List.range n).map (s.byteAt .cur)

/-- `Complete()` (R139): the frame is logged, the roles are swapped, `DONE` is set and the run is over. -/
def State.complete (s : State) : State :=
  { s.setDone with
    emitLog := s.emitLog ++ [{ width := s.width, height := s.height, bytes := s.curBytes s.frameSize }]
    bufsel := !s.bufsel
    run := .idle }

/-- The end of a step that took no fault (R135): `Advance`, and `Complete` after the last tile. -/
def State.finishStep (s : State) : State :=
  let t := s.advance
  if t.tileIdx.toNat = t.tiles then t.complete else t

/-- Why START refuses a configuration (R131). -/
def State.configBad (caps : Config.Caps) (s : State) : Bool :=
  !dimsWellFormed s.width s.height || decide (s.frameSize > caps.fbCap) || decide (s.payloadLen.toNat > caps.plCap)

/-- Run initialisation, the second action of START (R132). -/
def initRun : Exec Unit := do
  modify fun s =>
    { s with run := .busy, tileIdx := 0, tileX := 0, tileY := 0, tileOfs := 0
             opcPtr := 4, opreg := 0, opcnt := 0 }
  let c ← plRead 0 Config.headBytes .head
  modify fun s =>
    { s with colorOffset := BitVec.ofNat 32 c, unaPtr := BitVec.ofNat 32 c
             alnPtr := BitVec.ofNat 32 s.alnStart }

/-- START (R130 to R132), with the faults it may take: ConfigFault before anything of the run has happened (R322), or
the overrun of the head-field read, which is in no tile (R321). -/
def State.start (caps : Config.Caps) (s : State) : State :=
  let s1 := { s with flags := s.startFlags }
  if s1.configBad caps then s1.faultEntry 0 .configFault
  else
    match initRun s1 with
    | .ok _ t => t
    | .error e t => t.faultEntry 0 (.streamOverrun e.stream e.addr)

/-- CLEAR (R351). -/
def State.clear (s : State) : State :=
  { s with fb0 := [], fb1 := [], bufsel := false, flags := StatusFlags.clear, run := .idle }

end Sys2Proof.Machine
end

