-- ==== Sys2Proof/Machine/HostPort.lean ====
section
/-!
DEFINITION. What crosses the core's boundary (70_reset_and_hazards.md R353): `HostWriteReg`, `HostReadReg`,
`HostWriteMem`, `HostReadMem`, `Reset`, over the register numbers of 10_state.md R34. Host operations fall between steps
(log 13).
-/

namespace Sys2Proof.Machine

/-- The memories as the host reaches them, by name and not by role (R35). -/
inductive HostMem where
  | pl
  | fb0
  | fb1
deriving DecidableEq, Repr

/-- The capacity of a memory (R21). -/
def HostMem.capacity (caps : Config.Caps) : HostMem → Nat
  | .pl => caps.plCap
  | .fb0 => caps.fbCap
  | .fb1 => caps.fbCap

/-- A write to `CTRL` while `RUN` ≠ BUSY (R33): CLEAR wins over START, bits 31:2 are ignored. -/
def State.writeCtrl (caps : Config.Caps) (v : BitVec 32) (s : State) : State :=
  if v.getLsbD 1 then s.clear
  else if v.getLsbD 0 then s.start caps
  else s

/-- `HostWriteReg` (R23, R33, R34): every write is ignored while `RUN` = BUSY; a configuration register keeps the low
bits that fit it (log 9); a write to a read-only register (log 10) or to an unlisted number is ignored. -/
def State.hostWriteReg (caps : Config.Caps) (no : Nat) (v : BitVec 32) (s : State) : State :=
  if s.run = .busy then s
  else
    match no with
    | 0 => s.writeCtrl caps v
    | 2 => { s with cfgWidth := v.setWidth 16 }
    | 3 => { s with cfgHeight := v.setWidth 16 }
    | 4 => { s with cfgCompressor := v }
    | 5 => { s with payloadLen := v }
    | _ => s

/-- The content of a register by number, a narrower one zero-extended to 32 bits; `CTRL` and unlisted numbers read as
zero (R33, R34). -/
def State.regValue (s : State) : (no : Nat) → BitVec 32
  | 1 => s.statusWord
  | 2 => s.cfgWidth.setWidth 32
  | 3 => s.cfgHeight.setWidth 32
  | 4 => s.cfgCompressor
  | 5 => s.payloadLen
  | 6 => s.fault.kind.setWidth 32
  | 7 => s.fault.tile
  | 8 => s.fault.opcode.setWidth 32
  | 9 => s.fault.stream.setWidth 32
  | 10 => s.fault.addr
  | 11 => s.tileIdx
  | 12 => s.tileX.setWidth 32
  | 13 => s.tileY.setWidth 32
  | 14 => s.tileOfs
  | 15 => s.opcPtr
  | 16 => s.opreg.setWidth 32
  | 17 => s.opcnt.setWidth 32
  | 18 => s.alnPtr
  | 19 => s.unaPtr
  | 20 => s.colorOffset
  | 21 => s.lastColor.setWidth 32
  | 22 => (BitVec.ofBool s.nibFlag ++ s.nibByte).setWidth 32
  | 23 => s.bank.setWidth 32
  | _ => 0

/-- Registers 11 to 23: a read while BUSY returns an unspecified value (R34). -/
abbrev UnspecifiedWhileBusy (no : Nat) : Prop := 11 ≤ no ∧ no ≤ 23

/-- A free word for a read during a run; the run itself is not disturbed (R361, IMP6; log 5). -/
def State.busyRead (s : State) : BitVec 32 × State :=
  (Config.busyRead s.freeTick, { s with freeTick := s.freeTick + 1 })

/-- `HostReadReg` (R34): the value read, and the state after. -/
def State.hostReadReg (no : Nat) (s : State) : BitVec 32 × State :=
  if s.run = .busy ∧ UnspecifiedWhileBusy no then s.busyRead else (s.regValue no, s)

/-- The byte of a memory as the host names it. -/
def State.hostByte (s : State) : HostMem → Nat → Byte
  | .pl, a => s.plByte a
  | .fb0, a => s.fb0.frameByte a
  | .fb1, a => s.fb1.frameByte a

/-- `HostWriteMem` (R35): refused while BUSY (R361, IMP5; log 6); a byte beyond the capacity does not exist (log 8). -/
def State.hostWriteMem (caps : Config.Caps) (m : HostMem) (a : Nat) (v : Byte) (s : State) :
    Host.Outcome State Fault Refusal :=
  if s.run = .busy then .refused .hostWriteWhileBusy
  else if m.capacity caps ≤ a then .fault .noSuchByte
  else
    .next (match m with
      | .pl => { s with pl := s.pl.insert a v }
      | .fb0 => { s with fb0 := s.fb0.setFrameByte a v }
      | .fb1 => { s with fb1 := s.fb1.setFrameByte a v })

/-- `HostReadMem` (R35): the byte read and the state after; unspecified while BUSY (IMP6; log 5). -/
def State.hostReadMem (caps : Config.Caps) (m : HostMem) (a : Nat) (s : State) : Except Fault (Byte × State) :=
  if m.capacity caps ≤ a then .error .noSuchByte
  else if s.run = .busy then .ok (s.busyRead.1.setWidth 8, s.busyRead.2)
  else .ok (s.hostByte m a, s)

/-- `Reset` (R350), in any run state. The model's own counters go on, so that what is unspecified after this reset is
not what it was after another (log 17). -/
def State.hostReset (s : State) : State :=
  { State.reset with freeTick := s.freeTick, resetCount := s.resetCount + 1 }

/-- The host's operations (R353). -/
inductive HostOp where
  | writeReg (no : Nat) (v : BitVec 32)
  | readReg (no : Nat)
  | writeMem (m : HostMem) (a : Nat) (v : Byte)
  | readMem (m : HostMem) (a : Nat)
  | reset
deriving DecidableEq, Repr

/-- The state after a host operation. -/
def State.hostStep (caps : Config.Caps) (op : HostOp) (s : State) : Host.Outcome State Fault Refusal :=
  match op with
  | .writeReg no v => .next (s.hostWriteReg caps no v)
  | .readReg no => .next (s.hostReadReg no).2
  | .writeMem m a v => s.hostWriteMem caps m a v
  | .readMem m a =>
    match s.hostReadMem caps m a with
    | .ok (_, t) => .next t
    | .error f => .fault f
  | .reset => .next s.hostReset

end Sys2Proof.Machine
end

