-- ==== Sys2Proof/Machine/Loader.lean ====
section
/-!
DEFINITION. Placing one instruction where the next step fetches (log 14). The core fetches only while a run is BUSY, so
this stands for the host's load of a payload and the initialisation that START performs (70_reset_and_hazards.md R352).
-/

namespace Sys2Proof.Machine

/-- Bytes written to consecutive addresses of `PL`. -/
def State.loadPl (s : State) (a : Nat) : List Byte → State
  | [] => s
  | b :: bs => (s.setByte .pl a b).loadPl (a + 1) bs

/-- Legal dimensions: those the state has, or one 8×8 tile where it has none. -/
def State.withLegalDims (s : State) : State :=
  if dimsWellFormed s.width s.height then s else { s with cfgWidth := 8, cfgHeight := 8 }

/-- How many zero operand bytes lie behind the opcode stream: the longest record that zero operand bytes make, the 64
aligned bytes of Raw (R104). -/
def operandZeros : Nat := 64

/-- A payload whose first opcode-stream bytes are `bytes` and whose two streams both start at `ALN_START`, at operand
bytes of zeros. -/
def State.loadOneInstruction (s : State) (bytes : List Byte) : State :=
  let start := s.alnStart
  let s1 := s.loadPl 0 (littleEndianBytes 4 start)
  let s2 := s1.loadPl Config.headBytes (bytes.take (start - Config.headBytes))
  let s3 := s2.loadPl start (List.replicate operandZeros 0)
  { s3 with payloadLen := BitVec.ofNat 32 (start + operandZeros) }

/-- The state in which the next step fetches the instruction of `bytes` as tile 0 of a new run. -/
def State.placeInstruction (s : State) (bytes : List Byte) : State :=
  match initRun (s.withLegalDims.loadOneInstruction bytes) with
  | .ok _ t => t
  | .error _ t => t

end Sys2Proof.Machine
end

