-- ==== Sys2Proof/Machine/Step.lean ====
section
/-!
DEFINITION. One step of the core (40_sequencer.md R135). While `RUN` ≠ BUSY the core does nothing (R325, R350), so its
step changes nothing (log 11).
-/

namespace Sys2Proof.Machine

/-- `Step()` (R135): fetch, the instruction, and, unless one of their reads overran, the end of the step. -/
def step (s : State) : Host.Outcome State Fault Refusal :=
  match s.run with
  | .idle => .next s
  | .halted => .next s
  | .busy =>
    if s.tileIdx.toNat < s.tiles then
      match fetch s with
      | .error e t => .next (t.overrunInStep 0 e)
      | .ok op t =>
        match exec (decode op) t with
        | .next u => .next (if u.run = .busy then u.finishStep else u)
        | .fault f => .fault f
        | .refused r => .refused r
    else .fault .noTileLeft

/-- `s` with the instruction whose bits are `w` stored where `step` fetches its next instruction (log 14). -/
def State.withFetchWord (s : State) (nbits w : Nat) : State :=
  s.placeInstruction (littleEndianBytes ((nbits + 7) / 8) w)

end Sys2Proof.Machine
end

