-- ==== Sys2Proof/Safety.lean ====
section
/-!
DEFINITION. The terms that claims about the core use: which operand record fits in the payload, what a step may change,
the invariant of a run, the states that can be reached, and the host's test of a clean decode.
-/

namespace Sys2Proof

/-! ### How wide the reads of an instruction are -/

/-- The bytes of the widest single read of the aligned stream by a base, 0 where there is none (R67 and the rule of the
base). -/
def Base.widestAligned : Base → Nat
  | .zero | .shortMotion8 | .motion8 | .singleFill | .roMotion8 | .rcMotion8 => 0
  | .raw | .shortMotion4 | .fourFill | .rcMotion4 | .oneBit | .prime | .oneBank => 1
  | .blockH | .blockV | .blockD1 | .blockD2 | .bank1H | .bank1V | .bank1D1 | .bank1D2 => 1
  | .motion4 | .roMotion4 | .twoBit | .oneBitSplit => 2
  | .threeBit | .threeBitSplit => 3
  | .fourBit | .twoBitSplit | .cross => 4
  | .twoBanks => 5

/-- The same for the unaligned stream (R68). -/
def Base.widestUnaligned : Base → Nat
  | .raw | .zero | .shortMotion4 | .motion4 | .fourFill | .twoBit | .oneBitSplit | .twoBitSplit | .cross => 0
  | .roMotion4 | .rcMotion4 => 0
  | .shortMotion8 | .rcMotion8 | .singleFill | .oneBit | .threeBit | .fourBit | .threeBitSplit => 1
  | .prime | .oneBank | .twoBanks => 1
  | .blockH | .blockV | .blockD1 | .blockD2 | .bank1H | .bank1V | .bank1D1 | .bank1D2 => 1
  | .motion8 | .roMotion8 => 2

/-- The bytes of the widest single read of the unaligned stream by an overlay; of the aligned stream an overlay reads
single bytes (R270 to R272). -/
def Overlay.widestUnaligned : Overlay → Nat
  | .update4 | .update8 => 3
  | .update16 => 1

/-- The bytes of the widest single read of the aligned stream by an instruction, its overlay's single bytes among
them. -/
def Instr.widestAligned (i : Instr) : Nat := max i.base.widestAligned (if i.overlay.isSome then 1 else 0)

/-- The bytes of the widest single read of the unaligned stream by an instruction. -/
def Instr.widestUnaligned (i : Instr) : Nat :=
  max i.base.widestUnaligned ((i.overlay.map Overlay.widestUnaligned).getD 0)

end Sys2Proof

namespace Sys2Proof.Machine

/-! ### Operand records -/

/-- `n` bytes read one after the other from pointer `p` on are all inside the payload (R66). A record of no bytes reads
nothing and always fits. -/
abbrev State.Fits (s : State) (p : Ptr) (n : Nat) : Prop := n = 0 ∨ p.toNat + n ≤ s.payloadLen.toNat

/-- Mask byte `k` of the record that instruction `i` would read in state `s`. -/
def State.mask (s : State) (i : Instr) (k : Nat) : Byte := s.plByte (s.alnPtr.toNat + i.maskOffset + k)

/-- Byte `k` of the aligned record. -/
def State.alignedByte (s : State) (k : Nat) : Byte := s.plByte (s.alnPtr.toNat + k)

/-- Byte `k` of the unaligned record. -/
def State.unalignedByte (s : State) (k : Nat) : Byte := s.plByte (s.unaPtr.toNat + k)

/-- The little-endian value of the `n` bytes at offset `k` of the aligned record (R61). -/
def State.alignedWord (s : State) (k n : Nat) : Nat := s.memRead .pl (s.alnPtr.toNat + k) n

/-- The little-endian value of the `n` bytes at offset `k` of the unaligned record (R61). -/
def State.unalignedWord (s : State) (k n : Nat) : Nat := s.memRead .pl (s.unaPtr.toNat + k) n

/-- `U` of R104 for instruction `i` in state `s`. -/
def State.unalignedNeed (s : State) (i : Instr) : Nat := i.unalignedSize (maskOnes (s.mask i))

/-- Both operand records of `i` fit in the payload: the condition on which its step reads all it needs (R104, R321). -/
abbrev State.Readable (s : State) (i : Instr) : Prop :=
  s.Fits s.alnPtr i.alignedSize ∧ s.Fits s.unaPtr (s.unalignedNeed i)

/-- The number of set bits among the first `n` bits of eight mask bytes, bit 0 of byte 0 first (R108). -/
def bitsBefore (m : Nat → Byte) (n : Nat) : Nat :=
  ((List.range n).filter (fun k => (m (k / 8)).getLsbD (k % 8))).length

/-! ### What a step may change -/

/-- `a` is not the address of a pixel of the tile under construction. -/
abbrev State.OutsideTile (s : State) (a : Nat) : Prop := ∀ r c, r < 8 → c < 8 → a ≠ s.pixAddr r c

/-- `t` differs from `s` at most in the bytes of the tile under construction in `CUR`, the two stream pointers,
`REF_OOB`, which is never cleared (R31), and the primitive-local registers: all that a base or an overlay may change
(R60, R79). -/
def State.InTile (s t : State) : Prop :=
  t = { s with
        fb0 := t.fb0, fb1 := t.fb1, alnPtr := t.alnPtr, unaPtr := t.unaPtr
        flags := { s.flags with refOob := t.flags.refOob }
        lastColor := t.lastColor, nibFlag := t.nibFlag, nibByte := t.nibByte, bank := t.bank }
    ∧ t.prvMem = s.prvMem
    ∧ (∀ a, s.OutsideTile a → t.byteAt .cur a = s.byteAt .cur a)
    ∧ (s.flags.refOob = true → t.flags.refOob = true)

/-- The primitive-local registers (R29) of `t` are those of `s`. -/
def State.SameLocals (s t : State) : Prop :=
  t.lastColor = s.lastColor ∧ t.nibFlag = s.nibFlag ∧ t.nibByte = s.nibByte ∧ t.bank = s.bank

/-- `t` is what completing an instruction leaves that reads `A` aligned and `U` unaligned bytes: the pointers are moved
by exactly that, the pixel at row `r`, column `c` of the tile is `px r c`, `REF_OOB` is set if it was or if `oob` holds,
and beyond the primitive-local registers nothing else differs (`InTile`). -/
structure State.TileDone (s t : State) (A U : Nat) (px : Nat → Nat → Byte) (oob : Prop) : Prop where
  rest : s.InTile t
  aligned : t.alnPtr.toNat = s.alnPtr.toNat + A
  unaligned : t.unaPtr.toNat = s.unaPtr.toNat + U
  pixels : ∀ r c, r < 8 → c < 8 → t.byteAt .cur (s.pixAddr r c) = px r c
  refOob : t.flags.refOob = true ↔ s.flags.refOob = true ∨ oob

/-- `t` is what the overrun of instruction `i` in `s` leaves (R321, R323): the run is halted with `ERR_OVERRUN` and the
fault record; the reads before the faulting one have moved their pointers, the faulting one has not; the read reported
runs past the payload itself, so in a stream that is read by single bytes the address is the first byte outside; the
tile's own pixels are free, every other byte is as it was, and so is every other register but `REF_OOB` and the
primitive-local ones. -/
structure State.Overran (s t : State) (i : Instr) : Prop where
  rest : t = { s with
    fb0 := t.fb0, fb1 := t.fb1, alnPtr := t.alnPtr, unaPtr := t.unaPtr
    flags := { s.flags with errOverrun := true, refOob := t.flags.refOob }
    lastColor := t.lastColor, nibFlag := t.nibFlag, nibByte := t.nibByte, bank := t.bank
    run := .halted
    fault := { kind := 1, tile := s.tileIdx, opcode := i.opcode, stream := t.fault.stream, addr := t.fault.addr }
    freeTick := t.freeTick }
  refOob : s.flags.refOob = true → t.flags.refOob = true
  prv : t.prvMem = s.prvMem
  outside : ∀ a, s.OutsideTile a → t.byteAt .cur a = s.byteAt .cur a
  pointers : ∃ a u, a ≤ i.alignedSize ∧ u ≤ s.unalignedNeed i ∧ s.Fits s.alnPtr a ∧ s.Fits s.unaPtr u
    ∧ t.alnPtr.toNat = s.alnPtr.toNat + a ∧ t.unaPtr.toNat = s.unaPtr.toNat + u
  stream : (t.fault.stream = 2 ∧ t.fault.addr = t.alnPtr ∧ ¬ s.Fits s.alnPtr i.alignedSize
      ∧ s.payloadLen.toNat < t.alnPtr.toNat + i.widestAligned)
    ∨ (t.fault.stream = 3 ∧ t.fault.addr = t.unaPtr ∧ ¬ s.Fits s.unaPtr (s.unalignedNeed i)
      ∧ s.payloadLen.toNat < t.unaPtr.toNat + i.widestUnaligned)

/-- The overruns of the composite `i` of the base instruction `b` and an overlay whose first read takes `n` bytes from
`first` (R273, R324). If the base's records do not fit, the composite's fault is the base's own, under the composite's
opcode: the same read is reported and no operand of the overlay is read. If they do fit, the base has read all of its
operands before any of the overlay's is read, and the overlay's first read is reported if that one does not fit. -/
structure State.CompositeOverruns (s : State) (b i : Instr) (first : StreamId) (n : Nat) : Prop where
  inBase : ¬ s.Readable b →
    ∃ u t, exec b s = .next u ∧ exec i s = .next t ∧ s.Overran u b ∧ s.Overran t i ∧ t.alnPtr = u.alnPtr
      ∧ t.unaPtr = u.unaPtr ∧ t.flags = u.flags ∧ t.fault = { u.fault with opcode := i.opcode }
  inOverlay : s.Readable b → ¬ s.Readable i →
    ∃ u t, exec b s = .next u ∧ exec i s = .next t ∧ s.Overran t i
      ∧ u.alnPtr.toNat ≤ t.alnPtr.toNat ∧ u.unaPtr.toNat ≤ t.unaPtr.toNat
      ∧ (s.payloadLen.toNat < (if first = .aligned then u.alnPtr else u.unaPtr).toNat + n →
        t.alnPtr = u.alnPtr ∧ t.unaPtr = u.unaPtr ∧ t.fault.stream = first.code)

/-! ### Pixels that the rules describe in closed form -/

/-- The quadrant that the pixel at row `r`, column `c` of the tile lies in (R73). -/
def quadrantOf (r c : Nat) : Nat := 2 * (r / 4) + c / 4

/-- The linear index inside its quadrant of the pixel at row `r`, column `c` of the tile (R73). -/
def quadrantIndex (r c : Nat) : Nat := 4 * (r % 4) + c % 4

/-- Field `j` of `n` bits of a packed value, least significant first (R108, R200). -/
def fieldOf (v n j : Nat) : Nat := v / 2 ^ (n * j) % 2 ^ n

/-- The index into `PRV` of the source of pixel `(r, c)` when the 8×8 block at `src` is copied (R75). -/
def State.source8x8 (s : State) (src : Int) (r c : Nat) : Int := src + (r * s.width + c : Nat)

/-- The index into `PRV` of the source of pixel `(r, c)` when quadrant `q` is a copy of the 4×4 block at `src q`
(R75). -/
def State.source4x4 (s : State) (src : Nat → Int) (r c : Nat) : Int :=
  src (quadrantOf r c) + (r % 4 * s.width + c % 4 : Nat)

/-- Some pixel of the tile has its source, by `index`, outside the frame (R74). -/
def State.SourceOutside (s : State) (index : Nat → Nat → Int) : Prop :=
  ∃ r c, r < 8 ∧ c < 8 ∧ ¬ s.InFrame (index r c)

/-- The top-left of quadrant `q` in the frame (R73). -/
def State.quadrantOrigin (s : State) (q : Nat) : Int := s.tileOfs.toNat + (4 * (q / 2) * s.width + 4 * (q % 2) : Nat)

/-- `(byte << 4) + nibble` modulo 256: entry `n` of the bank that the low nibble of `b` names (R107). -/
def bankEntry (b : Byte) (n : Nat) : Byte := BitVec.ofNat 8 (16 * (b.toNat % 16) + n % 16)

/-- Nibble `k` of bytes that are read low nibble first (R105). -/
def nibbleOf (f : Nat → Byte) (k : Nat) : Nat := (f (k / 2)).toNat / 16 ^ (k % 2) % 16

/-- `LAST_COLOR` of R240 after pixel `k` of the traversal: the colour of the last set mask bit so far, or
`LAST_COLOR_INIT`. -/
def State.runColour (s : State) (k : Nat) : Byte :=
  if bitsBefore s.alignedByte (k + 1) = 0 then Config.lastColorInit
  else s.unalignedByte (bitsBefore s.alignedByte (k + 1) - 1)

/-- `LAST_COLOR` of R247 after pixel `k` of the traversal: the bank entry of the last nibble taken so far, or
`LAST_COLOR_INIT`. The nibbles start at byte 1 of the unaligned record. -/
def State.bankRunColour (s : State) (k : Nat) : Byte :=
  if bitsBefore s.alignedByte (k + 1) = 0 then Config.lastColorInit
  else bankEntry (s.unalignedByte 0)
    (nibbleOf (fun j => s.unalignedByte (1 + j)) (bitsBefore s.alignedByte (k + 1) - 1))

/-- Pixel `(r, c)` is `v`, by writes at the tile offsets `place 0, place 1, …, place (n - 1)` of the values `val 0`,
`val 1`, …: the last write to it counts, and with no write to it, it is `old` (R79). -/
def LastWrite (n : Nat) (place : Nat → Nat) (val : Nat → Byte) (old : Byte) (r c : Nat) (v : Byte) : Prop :=
  (∀ k, k < n → place k = 8 * r + c → (∀ j, k < j → j < n → place j ≠ 8 * r + c) → v = val k)
    ∧ ((∀ k, k < n → place k ≠ 8 * r + c) → v = old)

/-! ### The invariant of a run -/

/-- The three bytes of the opcode stream that hold the opcode of tile `i`, as one value (R100). -/
def State.opcodeTriple (s : State) (i : Nat) : Nat := s.memRead .pl (4 + 3 * (i / 4)) 3

/-- What holds of the sequencer while a run is on: legal dimensions (R131); the tile registers agree (R26, R137); the
opcode registers are where R133 has them; and the opcodes that `OPREG` still holds are those of the tiles to come. -/
structure State.SequencerOk (s : State) : Prop where
  dims : dimsWellFormed s.width s.height = true
  tileIdx : s.tileIdx.toNat < s.tiles
  tileX : s.tileX.toNat < s.tilesPerRow
  index : s.tileIdx.toNat = s.tileY.toNat * s.tilesPerRow + s.tileX.toNat
  offset : s.tileOfs.toNat = s.tileX.toNat * 8 + s.tileY.toNat * 8 * s.width
  opcnt : s.opcnt.toNat = (4 - s.tileIdx.toNat % 4) % 4
  opcPtr : s.opcPtr.toNat = 4 + 3 * ((s.tileIdx.toNat + 3) / 4)
  opreg : ∀ k, s.tileIdx.toNat ≤ k → k < s.tiles → k / 4 = s.tileIdx.toNat / 4 → s.tileIdx.toNat % 4 ≠ 0 →
    s.opreg.toNat / 2 ^ (6 * (k - s.tileIdx.toNat)) % 64 = s.opcodeTriple k / 2 ^ (6 * (k % 4)) % 64

/-- The invariant: the memories keep their canonical form, and while `RUN` = BUSY the sequencer is in order. -/
def State.Inv (s : State) : Prop := s.MemoryWf ∧ (s.run = .busy → s.SequencerOk)

/-- The states that the core and the host can reach from reset, for given capacities (R353). -/
inductive Reachable (caps : Config.Caps) : State → Prop where
  | reset : Reachable caps State.reset
  | step {s t : State} : Reachable caps s → Machine.step s = .next t → Reachable caps t
  | host {s t : State} (op : HostOp) : Reachable caps s → s.hostStep caps op = .next t → Reachable caps t

/-- The host's test of a clean decode, after `DONE` (R333). The core computes none of it. -/
def State.cleanDecode (s : State) : Bool :=
  decide (s.alnPtr.toNat ≤ s.colorOffset.toNat ∧ s.colorOffset.toNat ≤ s.alnPtr.toNat + 3
    ∧ s.unaPtr.toNat ≤ s.payloadLen.toNat ∧ s.payloadLen.toNat ≤ s.unaPtr.toNat + 3)

end Sys2Proof.Machine
end

