-- ==== Sys2Proof/Certificates/Slice0/Obligations.lean ====
section
/-!
DEFINITION. The statements for the provers, from the numbered rules of spec/. Each docstring says what is stated; the
list with the rules each rests on is OBLIGATIONS.json. A result of an instruction is stated for every state whose rows
are at least a tile wide: in a narrower frame, which START never lets run, pixels of one tile share addresses.
-/

open Sys2Proof Sys2Proof.Machine

/-- Every instruction decodes from its own opcode, and every opcode is an instruction's (R109, R110, R113). -/
def Obligations.DecodeInvertsEncode : Prop :=
  (∀ i : Instr, decodeBytes (encode i) = .ok i ∧ decode i.opcode = i ∧ i.wellFormed = true) ∧
  ∀ op : BitVec 6, (decode op).opcode = op

/-- A packed opcode stream decodes to the instructions it was packed from, in tile order, and is exactly OPBYTES long
(R100, R63, R109). -/
def Obligations.OpcodeStreamRoundTrip : Prop :=
  ∀ (is : List Instr) (rest : List Byte),
    (encodeStream is).length = opBytes is.length ∧
    decodeStream is.length (encodeStream is ++ rest) = is

/-- Bit k of the opcode of tile i is bit 6*i + k of the opcode stream read as one little-endian bit string (R100). -/
def Obligations.OpcodeBitsInStream : Prop :=
  ∀ (stream : List Byte) (i k : Nat), k < 6 →
    (opcodeAt stream i).getLsbD k = (stream.getD ((6 * i + k) / 8) 0).getLsbD ((6 * i + k) % 8)

/-- Words written out from the opcode map decode to the instructions they stand for, and the map has its group structure
(R100, R103, R109). -/
def Obligations.OpcodeWordsDecodeRight : Prop :=
  decodeBytes [0x15#8] = .ok .singleFill ∧ decodeBytes [0x19#8] = .ok .fourFill ∧
  decodeBytes [0x1D#8] = .ok .oneBit ∧ decodeBytes [0x24#8] = .ok .cross ∧
  decodeBytes [0x25#8] = .ok .prime ∧ decodeBytes [0x28#8] = .ok .blockH ∧
  decodeBytes [0x2F#8] = .ok .bank1D2 ∧ decodeBytes [0x31#8] = .ok .rom8U4 ∧
  decodeStream 4 [0x55#8, 0xD6#8, 0xA1#8] = [.singleFill, .fourFill, .oneBit, .blockH] ∧
  (∀ op : BitVec 6, 1 ≤ op.toNat → op.toNat ≤ 28 →
    [Base.zero, .shortMotion8, .motion8, .shortMotion4, .motion4, .singleFill, .fourFill][(op.toNat - 1) / 4]?
        = some (decode op).base ∧
    [none, some Overlay.update4, some .update8, some .update16][(op.toNat - 1) % 4]? = some (decode op).overlay) ∧
  (∀ op : BitVec 6, 48 ≤ op.toNat →
    [Base.roMotion8, .rcMotion8, .roMotion4, .rcMotion4][(op.toNat - 48) / 4]? = some (decode op).base ∧
    [none, some Overlay.update4, some .update8, some .update16][op.toNat % 4]? = some (decode op).overlay) ∧
  ∀ op : BitVec 6, op.toNat = 0 ∨ (29 ≤ op.toNat ∧ op.toNat ≤ 47) → (decode op).overlay = none

/-- An assembled frame has the payload layout: head field, opcodes, zero padding, aligned bytes, unaligned bytes (R112,
R62, R63, R64, R65). -/
def Obligations.AssembledPayloadLayout : Prop :=
  ∀ p : FrameProgram, p.wellFormed = true → p.assemble.length < 2 ^ 32 →
    let T := p.tiles.length
    let start := alnStart p.width T
    let aligned := p.tiles.flatMap TileLine.aligned
    let unaligned := p.tiles.flatMap TileLine.unaligned
    let byte := fun k => p.assemble.getD k 0
    p.assemble.length = start + aligned.length + unaligned.length ∧
    (byte 0).toNat + 2 ^ 8 * (byte 1).toNat + 2 ^ 16 * (byte 2).toNat + 2 ^ 24 * (byte 3).toNat
      = start + aligned.length ∧
    decodeStream T (p.assemble.drop 4) = p.tiles.map TileLine.instr ∧
    (∀ k, 4 + opBytes T ≤ k → k < start → byte k = 0) ∧
    (∀ k, k < aligned.length → byte (start + k) = aligned.getD k 0) ∧
    ∀ k, k < unaligned.length → byte (start + aligned.length + k) = unaligned.getD k 0

/-- Short vectors, XY offsets and bank entries have the values the operand rules give them (R105, R106, R107, R69). -/
def Obligations.OperandFieldValues : Prop :=
  (∀ (w : Nat) (b : Byte),
    let sext4 := fun n : Nat => if n < 8 then (n : Int) else n - 16;
    smVec w b = sext4 (b.toNat % 16) + sext4 (b.toNat / 16) * w) ∧
  (∀ (w : Nat) (dx dy : Byte),
    let sext8 := fun n : Nat => if n < 128 then (n : Int) else n - 256;
    -32768 ≤ xyOffset w dx dy ∧ xyOffset w dx dy ≤ 32767 ∧
    (xyOffset w dx dy - (sext8 dx.toNat + sext8 dy.toNat * (w / 2 : Nat))) % 2 ^ 16 = 0) ∧
  ∀ (b : Byte) (n : BitVec 4), (bankPixel (bankBase b) n).toNat = 16 * (b.toNat % 16) + n.toNat

/-- Zero: opcode 1 copies the tile at the same position of the previous frame and reads no operand (R161, R75, R76). -/
def Obligations.ZeroResult : Prop :=
  decode 1#6 = .zero ∧
  ∀ s : State, 8 ≤ s.width →
    (∃ t, exec .zero s = .next t ∧
      s.TileDone t 0 0 (fun r c => s.prevByte (s.pixAddr r c)) (s.SourceOutside fun r c => s.pixAddr r c) ∧
      s.SameLocals t) ∧
    (s.SequencerOk → ¬ s.SourceOutside fun r c => s.pixAddr r c)

/-- ShortMotion8: opcode 5 copies the 8×8 block of the previous frame at TILE_OFS + BIAS8 + SMVec(b) (R162). -/
def Obligations.ShortMotion8Result : Prop :=
  decode 5#6 = .shortMotion8 ∧
  ∀ s : State, 8 ≤ s.width →
    let src : Int := s.tileOfs.toNat + 4 + 4 * s.width + smVec s.width (s.unalignedByte 0)
    (s.Readable .shortMotion8 →
      ∃ t, exec .shortMotion8 s = .next t ∧
        s.TileDone t 0 1 (fun r c => s.prevByte (s.source8x8 src r c))
          (s.SourceOutside (s.source8x8 src)) ∧
        s.SameLocals t) ∧
    (¬ s.Readable .shortMotion8 → ∃ t, exec .shortMotion8 s = .next t ∧ s.Overran t .shortMotion8)

/-- Motion8: opcode 9 copies the 8×8 block of the previous frame at the u16 index o (R163). -/
def Obligations.Motion8Result : Prop :=
  decode 9#6 = .motion8 ∧
  ∀ s : State, 8 ≤ s.width →
    let src : Int := (s.unalignedWord 0 2 : Nat)
    (s.Readable .motion8 →
      ∃ t, exec .motion8 s = .next t ∧
        s.TileDone t 0 2 (fun r c => s.prevByte (s.source8x8 src r c))
          (s.SourceOutside (s.source8x8 src)) ∧
        s.SameLocals t) ∧
    (¬ s.Readable .motion8 → ∃ t, exec .motion8 s = .next t ∧ s.Overran t .motion8)

/-- ROMotion8: opcode 48 copies the 8×8 block of the previous frame at TILE_OFS + BIAS8 + o, o an s16 (R166). -/
def Obligations.ROMotion8Result : Prop :=
  decode 48#6 = .roMotion8 ∧
  ∀ s : State, 8 ≤ s.width →
    let src : Int := s.tileOfs.toNat + 4 + 4 * s.width + (BitVec.ofNat 16 (s.unalignedWord 0 2)).toInt
    (s.Readable .roMotion8 →
      ∃ t, exec .roMotion8 s = .next t ∧
        s.TileDone t 0 2 (fun r c => s.prevByte (s.source8x8 src r c))
          (s.SourceOutside (s.source8x8 src)) ∧
        s.SameLocals t) ∧
    (¬ s.Readable .roMotion8 → ∃ t, exec .roMotion8 s = .next t ∧ s.Overran t .roMotion8)

/-- RCMotion8: opcode 52 copies the 8×8 block of the previous frame at TILE_OFS + BIAS8 + the XY offset (R167). -/
def Obligations.RCMotion8Result : Prop :=
  decode 52#6 = .rcMotion8 ∧
  ∀ s : State, 8 ≤ s.width →
    let src : Int := s.tileOfs.toNat + 4 + 4 * s.width + xyOffset s.width (s.unalignedByte 0) (s.unalignedByte 1)
    (s.Readable .rcMotion8 →
      ∃ t, exec .rcMotion8 s = .next t ∧
        s.TileDone t 0 2 (fun r c => s.prevByte (s.source8x8 src r c))
          (s.SourceOutside (s.source8x8 src)) ∧
        s.SameLocals t) ∧
    (¬ s.Readable .rcMotion8 → ∃ t, exec .rcMotion8 s = .next t ∧ s.Overran t .rcMotion8)

/-- ShortMotion4: opcode 13 copies a 4×4 block of the previous frame into each quadrant, from the quadrant's position +
BIAS4 + SMVec(b) (R164). -/
def Obligations.ShortMotion4Result : Prop :=
  decode 13#6 = .shortMotion4 ∧
  ∀ s : State, 8 ≤ s.width →
    let src : Nat → Int := fun q =>
      s.quadrantOrigin q + 2 + 2 * s.width + smVec s.width (s.alignedByte q)
    (s.Readable .shortMotion4 →
      ∃ t, exec .shortMotion4 s = .next t ∧
        s.TileDone t 4 0 (fun r c => s.prevByte (s.source4x4 src r c))
          (s.SourceOutside (s.source4x4 src)) ∧
        s.SameLocals t) ∧
    (¬ s.Readable .shortMotion4 → ∃ t, exec .shortMotion4 s = .next t ∧ s.Overran t .shortMotion4)

/-- Motion4: opcode 17 copies a 4×4 block of the previous frame into each quadrant, from the u16 index o (R165). -/
def Obligations.Motion4Result : Prop :=
  decode 17#6 = .motion4 ∧
  ∀ s : State, 8 ≤ s.width →
    let src : Nat → Int := fun q =>
      (s.alignedWord (2 * q) 2 : Nat)
    (s.Readable .motion4 →
      ∃ t, exec .motion4 s = .next t ∧
        s.TileDone t 8 0 (fun r c => s.prevByte (s.source4x4 src r c))
          (s.SourceOutside (s.source4x4 src)) ∧
        s.SameLocals t) ∧
    (¬ s.Readable .motion4 → ∃ t, exec .motion4 s = .next t ∧ s.Overran t .motion4)

/-- ROMotion4: opcode 56 copies a 4×4 block of the previous frame into each quadrant, from the quadrant's position +
BIAS4 + o (R168). -/
def Obligations.ROMotion4Result : Prop :=
  decode 56#6 = .roMotion4 ∧
  ∀ s : State, 8 ≤ s.width →
    let src : Nat → Int := fun q =>
      s.quadrantOrigin q + 2 + 2 * s.width + (BitVec.ofNat 16 (s.alignedWord (2 * q) 2)).toInt
    (s.Readable .roMotion4 →
      ∃ t, exec .roMotion4 s = .next t ∧
        s.TileDone t 8 0 (fun r c => s.prevByte (s.source4x4 src r c))
          (s.SourceOutside (s.source4x4 src)) ∧
        s.SameLocals t) ∧
    (¬ s.Readable .roMotion4 → ∃ t, exec .roMotion4 s = .next t ∧ s.Overran t .roMotion4)

/-- RCMotion4: opcode 60 copies a 4×4 block of the previous frame into each quadrant, from the quadrant's position +
BIAS4 + the XY offset (R169). -/
def Obligations.RCMotion4Result : Prop :=
  decode 60#6 = .rcMotion4 ∧
  ∀ s : State, 8 ≤ s.width →
    let src : Nat → Int := fun q =>
      s.quadrantOrigin q + 2 + 2 * s.width + xyOffset s.width (s.alignedByte (2 * q)) (s.alignedByte (2 * q + 1))
    (s.Readable .rcMotion4 →
      ∃ t, exec .rcMotion4 s = .next t ∧
        s.TileDone t 8 0 (fun r c => s.prevByte (s.source4x4 src r c))
          (s.SourceOutside (s.source4x4 src)) ∧
        s.SameLocals t) ∧
    (¬ s.Readable .rcMotion4 → ∃ t, exec .rcMotion4 s = .next t ∧ s.Overran t .rcMotion4)

/-- Raw: opcode 0 copies 64 aligned bytes row-major into the tile (R190). -/
def Obligations.RawResult : Prop :=
  decode 0#6 = .raw ∧
  ∀ s : State, 8 ≤ s.width →
    (s.Readable .raw →
      ∃ t, exec .raw s = .next t ∧
        s.TileDone t 64 0 (fun r c => s.alignedByte (8 * r + c))
          False ∧
        s.SameLocals t) ∧
    (¬ s.Readable .raw → ∃ t, exec .raw s = .next t ∧ s.Overran t .raw) ∧
  ∀ (n i : Nat), decode (opcodeAt (List.replicate n 0#8) i) = .raw

/-- SingleFill: opcode 21 fills the tile with one unaligned byte (R191). -/
def Obligations.SingleFillResult : Prop :=
  decode 21#6 = .singleFill ∧
  ∀ s : State, 8 ≤ s.width →
    (s.Readable .singleFill →
      ∃ t, exec .singleFill s = .next t ∧
        s.TileDone t 0 1 (fun _ _ => s.unalignedByte 0)
          False ∧
        s.SameLocals t) ∧
    (¬ s.Readable .singleFill → ∃ t, exec .singleFill s = .next t ∧ s.Overran t .singleFill)

/-- FourFill: opcode 25 fills quadrant q with aligned byte q (R192). -/
def Obligations.FourFillResult : Prop :=
  decode 25#6 = .fourFill ∧
  ∀ s : State, 8 ≤ s.width →
    (s.Readable .fourFill →
      ∃ t, exec .fourFill s = .next t ∧
        s.TileDone t 4 0 (fun r c => s.alignedByte (quadrantOf r c))
          False ∧
        s.SameLocals t) ∧
    (¬ s.Readable .fourFill → ∃ t, exec .fourFill s = .next t ∧ s.Overran t .fourFill)

/-- OneBit: opcode 29 gives every pixel of the tile the value its record says (R201). -/
def Obligations.OneBitResult : Prop :=
  decode 29#6 = .oneBit ∧
  ∀ s : State, 8 ≤ s.width →
    (s.Readable .oneBit →
      ∃ t, exec .oneBit s = .next t ∧
        s.TileDone t 8 2 (fun r c => s.unalignedByte (if (s.alignedByte r).getLsbD c then 1 else 0))
          False ∧
        s.SameLocals t) ∧
    (¬ s.Readable .oneBit → ∃ t, exec .oneBit s = .next t ∧ s.Overran t .oneBit)

/-- TwoBit: opcode 30 gives every pixel of the tile the value its record says (R202). -/
def Obligations.TwoBitResult : Prop :=
  decode 30#6 = .twoBit ∧
  ∀ s : State, 8 ≤ s.width →
    (s.Readable .twoBit →
      ∃ t, exec .twoBit s = .next t ∧
        s.TileDone t 20 0 (fun r c => s.alignedByte (fieldOf (s.alignedWord (4 + 2 * r) 2) 2 c))
          False ∧
        s.SameLocals t) ∧
    (¬ s.Readable .twoBit → ∃ t, exec .twoBit s = .next t ∧ s.Overran t .twoBit)

/-- ThreeBit: opcode 31 gives every pixel of the tile the value its record says (R203). -/
def Obligations.ThreeBitResult : Prop :=
  decode 31#6 = .threeBit ∧
  ∀ s : State, 8 ≤ s.width →
    (s.Readable .threeBit →
      ∃ t, exec .threeBit s = .next t ∧
        s.TileDone t 24 8 (fun r c => s.unalignedByte (fieldOf (s.alignedWord (3 * r) 3) 3 c))
          False ∧
        s.SameLocals t) ∧
    (¬ s.Readable .threeBit → ∃ t, exec .threeBit s = .next t ∧ s.Overran t .threeBit)

/-- FourBit: opcode 32 gives every pixel of the tile the value its record says (R204). -/
def Obligations.FourBitResult : Prop :=
  decode 32#6 = .fourBit ∧
  ∀ s : State, 8 ≤ s.width →
    (s.Readable .fourBit →
      ∃ t, exec .fourBit s = .next t ∧
        s.TileDone t 32 16 (fun r c => s.unalignedByte (fieldOf (s.alignedWord (4 * r) 4) 4 c))
          False ∧
        s.SameLocals t) ∧
    (¬ s.Readable .fourBit → ∃ t, exec .fourBit s = .next t ∧ s.Overran t .fourBit)

/-- OneBitSplit: opcode 33 gives every pixel of the tile the value its record says (R205). -/
def Obligations.OneBitSplitResult : Prop :=
  decode 33#6 = .oneBitSplit ∧
  ∀ s : State, 8 ≤ s.width →
    (s.Readable .oneBitSplit →
      ∃ t, exec .oneBitSplit s = .next t ∧
        s.TileDone t 16 0 (fun r c => s.alignedByte (4 * quadrantOf r c + 2 +
          fieldOf (s.alignedWord (4 * quadrantOf r c) 2) 1 (quadrantIndex r c)))
          False ∧
        s.SameLocals t) ∧
    (¬ s.Readable .oneBitSplit → ∃ t, exec .oneBitSplit s = .next t ∧ s.Overran t .oneBitSplit)

/-- TwoBitSplit: opcode 34 gives every pixel of the tile the value its record says (R206). -/
def Obligations.TwoBitSplitResult : Prop :=
  decode 34#6 = .twoBitSplit ∧
  ∀ s : State, 8 ≤ s.width →
    (s.Readable .twoBitSplit →
      ∃ t, exec .twoBitSplit s = .next t ∧
        s.TileDone t 32 0 (fun r c => s.alignedByte (8 * quadrantOf r c + 4 +
          fieldOf (s.alignedWord (8 * quadrantOf r c) 4) 2 (quadrantIndex r c)))
          False ∧
        s.SameLocals t) ∧
    (¬ s.Readable .twoBitSplit → ∃ t, exec .twoBitSplit s = .next t ∧ s.Overran t .twoBitSplit)

/-- ThreeBitSplit: opcode 35 gives every pixel of the tile the value its record says (R207). -/
def Obligations.ThreeBitSplitResult : Prop :=
  decode 35#6 = .threeBitSplit ∧
  ∀ s : State, 8 ≤ s.width →
    (s.Readable .threeBitSplit →
      ∃ t, exec .threeBitSplit s = .next t ∧
        s.TileDone t 24 32 (fun r c => s.unalignedByte (8 * quadrantOf r c +
          fieldOf (s.alignedWord (6 * quadrantOf r c + 3 * (quadrantIndex r c / 8)) 3) 3 (quadrantIndex r c % 8)))
          False ∧
        s.SameLocals t) ∧
    (¬ s.Readable .threeBitSplit → ∃ t, exec .threeBitSplit s = .next t ∧ s.Overran t .threeBitSplit)

/-- Cross: opcode 36 gives every pixel of the tile the value its record says (R221). -/
def Obligations.CrossResult : Prop :=
  decode 36#6 = .cross ∧
  ∀ s : State, 8 ≤ s.width →
    (s.Readable .cross →
      ∃ t, exec .cross s = .next t ∧
        s.TileDone t 20 0 (fun r c => s.alignedByte (4 * quadrantOf r c +
          (Config.crossSel (Fin.ofNat 16 (quadrantIndex r c)) (s.alignedByte (16 + quadrantOf r c))).val))
          False ∧
        s.SameLocals t) ∧
    (¬ s.Readable .cross → ∃ t, exec .cross s = .next t ∧ s.Overran t .cross)

/-- Prime: opcode 37 gives every pixel of the tile the value its record says (R222). -/
def Obligations.PrimeResult : Prop :=
  decode 37#6 = .prime ∧
  ∀ s : State, 8 ≤ s.width →
    (s.Readable .prime →
      ∃ t, exec .prime s = .next t ∧
        s.TileDone t 8 (1 + bitsBefore s.alignedByte 64) (fun r c =>
          if (s.alignedByte r).getLsbD c then s.unalignedByte (1 + bitsBefore s.alignedByte (8 * r + c))
          else s.unalignedByte 0)
          False ∧
        s.SameLocals t) ∧
    (¬ s.Readable .prime → ∃ t, exec .prime s = .next t ∧ s.Overran t .prime)

/-- OneBank: opcode 38 gives every pixel of the tile the value its record says (R226). -/
def Obligations.OneBankResult : Prop :=
  decode 38#6 = .oneBank ∧
  ∀ s : State, 8 ≤ s.width →
    (s.Readable .oneBank →
      ∃ t, exec .oneBank s = .next t ∧
        s.TileDone t 32 1 (fun r c => bankEntry (s.unalignedByte 0) (nibbleOf s.alignedByte (8 * r + c)))
          False ∧
        t.bank = bankEntry (s.unalignedByte 0) 0 ∧ t.lastColor = s.lastColor ∧ t.nibFlag = s.nibFlag ∧ t.nibByte = s.nibByte) ∧
    (¬ s.Readable .oneBank → ∃ t, exec .oneBank s = .next t ∧ s.Overran t .oneBank)

/-- TwoBanks: opcode 39 gives every pixel of the tile the value its record says (R227). -/
def Obligations.TwoBanksResult : Prop :=
  decode 39#6 = .twoBanks ∧
  ∀ s : State, 8 ≤ s.width →
    (s.Readable .twoBanks →
      ∃ t, exec .twoBanks s = .next t ∧
        s.TileDone t 40 1 (fun r c =>
          let f := fieldOf (s.alignedWord (5 * r) 5) 5 c
          let b := s.unalignedByte 0
          if f < 16 then bankEntry b f else BitVec.ofNat 8 (16 * (b.toNat / 16) + f % 16))
          False ∧
        s.SameLocals t) ∧
    (¬ s.Readable .twoBanks → ∃ t, exec .twoBanks s = .next t ∧ s.Overran t .twoBanks)

/-- BlockH, BlockV: opcodes 40 and 41 fill the tile run by run along rows, or along columns (R242, R243). -/
def Obligations.BlockHVResult : Prop :=
  (decode 40#6 = .blockH ∧
    ∀ s : State, 8 ≤ s.width →
      (s.Readable .blockH →
        ∃ t, exec .blockH s = .next t ∧
          s.TileDone t 8 (bitsBefore s.alignedByte 64) (fun r c => s.runColour (8 * r + c)) False ∧
          t.lastColor = s.runColour 63 ∧ t.nibFlag = s.nibFlag ∧ t.nibByte = s.nibByte ∧ t.bank = s.bank) ∧
      (¬ s.Readable .blockH → ∃ t, exec .blockH s = .next t ∧ s.Overran t .blockH)) ∧
  (decode 41#6 = .blockV ∧
    ∀ s : State, 8 ≤ s.width →
      (s.Readable .blockV →
        ∃ t, exec .blockV s = .next t ∧
          s.TileDone t 8 (bitsBefore s.alignedByte 64) (fun r c => s.runColour (8 * c + r)) False ∧
          t.lastColor = s.runColour 63 ∧ t.nibFlag = s.nibFlag ∧ t.nibByte = s.nibByte ∧ t.bank = s.bank) ∧
      (¬ s.Readable .blockV → ∃ t, exec .blockV s = .next t ∧ s.Overran t .blockV))

/-- BlockD1, BlockD2: opcodes 42 and 43 fill run by run along the diagonal tables, the last visit of a pixel counting
(R244, R245). -/
def Obligations.BlockD1D2Result : Prop :=
  (decode 42#6 = .blockD1 ∧
    ∀ s : State, 8 ≤ s.width →
      (s.Readable .blockD1 →
        ∃ t, exec .blockD1 s = .next t ∧
          (∃ px, s.TileDone t 8 (bitsBefore s.alignedByte 64) px False ∧
            ∀ r c, r < 8 → c < 8 →
              LastWrite 64 (fun k => (Config.diag1 (Fin.ofNat 64 k)).val) s.runColour
                (s.byteAt .cur (s.pixAddr r c)) r c (px r c)) ∧
          t.lastColor = s.runColour 63 ∧ t.nibFlag = s.nibFlag ∧ t.nibByte = s.nibByte ∧ t.bank = s.bank) ∧
      (¬ s.Readable .blockD1 → ∃ t, exec .blockD1 s = .next t ∧ s.Overran t .blockD1)) ∧
  (decode 43#6 = .blockD2 ∧
    ∀ s : State, 8 ≤ s.width →
      (s.Readable .blockD2 →
        ∃ t, exec .blockD2 s = .next t ∧
          (∃ px, s.TileDone t 8 (bitsBefore s.alignedByte 64) px False ∧
            ∀ r c, r < 8 → c < 8 →
              LastWrite 64 (fun k => (Config.diag2 (Fin.ofNat 64 k)).val) s.runColour
                (s.byteAt .cur (s.pixAddr r c)) r c (px r c)) ∧
          t.lastColor = s.runColour 63 ∧ t.nibFlag = s.nibFlag ∧ t.nibByte = s.nibByte ∧ t.bank = s.bank) ∧
      (¬ s.Readable .blockD2 → ∃ t, exec .blockD2 s = .next t ∧ s.Overran t .blockD2))

/-- Bank1-H, Bank1-V: opcodes 44 and 45 fill run by run with bank entries, along rows or columns (R248, R249). -/
def Obligations.Bank1HVResult : Prop :=
  (decode 44#6 = .bank1H ∧
    ∀ s : State, 8 ≤ s.width →
      (s.Readable .bank1H →
        ∃ t, exec .bank1H s = .next t ∧
          s.TileDone t 8 (1 + (bitsBefore s.alignedByte 64 + 1) / 2) (fun r c => s.bankRunColour (8 * r + c)) False ∧
          t.bank = bankEntry (s.unalignedByte 0) 0 ∧ t.lastColor = s.bankRunColour 63 ∧
          t.nibFlag = decide (bitsBefore s.alignedByte 64 % 2 = 1) ∧
          t.nibByte = if bitsBefore s.alignedByte 64 = 0 then s.nibByte
            else s.unalignedByte ((bitsBefore s.alignedByte 64 + 1) / 2)) ∧
      (¬ s.Readable .bank1H → ∃ t, exec .bank1H s = .next t ∧ s.Overran t .bank1H)) ∧
  (decode 45#6 = .bank1V ∧
    ∀ s : State, 8 ≤ s.width →
      (s.Readable .bank1V →
        ∃ t, exec .bank1V s = .next t ∧
          s.TileDone t 8 (1 + (bitsBefore s.alignedByte 64 + 1) / 2) (fun r c => s.bankRunColour (8 * c + r)) False ∧
          t.bank = bankEntry (s.unalignedByte 0) 0 ∧ t.lastColor = s.bankRunColour 63 ∧
          t.nibFlag = decide (bitsBefore s.alignedByte 64 % 2 = 1) ∧
          t.nibByte = if bitsBefore s.alignedByte 64 = 0 then s.nibByte
            else s.unalignedByte ((bitsBefore s.alignedByte 64 + 1) / 2)) ∧
      (¬ s.Readable .bank1V → ∃ t, exec .bank1V s = .next t ∧ s.Overran t .bank1V))

/-- Bank1-D1, Bank1-D2: opcodes 46 and 47 fill run by run with bank entries along the diagonal tables (R250, R251). -/
def Obligations.Bank1D1D2Result : Prop :=
  (decode 46#6 = .bank1D1 ∧
    ∀ s : State, 8 ≤ s.width →
      (s.Readable .bank1D1 →
        ∃ t, exec .bank1D1 s = .next t ∧
          (∃ px, s.TileDone t 8 (1 + (bitsBefore s.alignedByte 64 + 1) / 2) px False ∧
            ∀ r c, r < 8 → c < 8 →
              LastWrite 64 (fun k => (Config.diag1 (Fin.ofNat 64 k)).val) s.bankRunColour
                (s.byteAt .cur (s.pixAddr r c)) r c (px r c)) ∧
          t.bank = bankEntry (s.unalignedByte 0) 0 ∧ t.lastColor = s.bankRunColour 63 ∧
          t.nibFlag = decide (bitsBefore s.alignedByte 64 % 2 = 1) ∧
          t.nibByte = if bitsBefore s.alignedByte 64 = 0 then s.nibByte
            else s.unalignedByte ((bitsBefore s.alignedByte 64 + 1) / 2)) ∧
      (¬ s.Readable .bank1D1 → ∃ t, exec .bank1D1 s = .next t ∧ s.Overran t .bank1D1)) ∧
  (decode 47#6 = .bank1D2 ∧
    ∀ s : State, 8 ≤ s.width →
      (s.Readable .bank1D2 →
        ∃ t, exec .bank1D2 s = .next t ∧
          (∃ px, s.TileDone t 8 (1 + (bitsBefore s.alignedByte 64 + 1) / 2) px False ∧
            ∀ r c, r < 8 → c < 8 →
              LastWrite 64 (fun k => (Config.diag2 (Fin.ofNat 64 k)).val) s.bankRunColour
                (s.byteAt .cur (s.pixAddr r c)) r c (px r c)) ∧
          t.bank = bankEntry (s.unalignedByte 0) 0 ∧ t.lastColor = s.bankRunColour 63 ∧
          t.nibFlag = decide (bitsBefore s.alignedByte 64 % 2 = 1) ∧
          t.nibByte = if bitsBefore s.alignedByte 64 = 0 then s.nibByte
            else s.unalignedByte ((bitsBefore s.alignedByte 64 + 1) / 2)) ∧
      (¬ s.Readable .bank1D2 → ∃ t, exec .bank1D2 s = .next t ∧ s.Overran t .bank1D2))

/-- The eleven +U4 instructions run their base and then patch four pixels, the later patch winning; an overrun in the
base is taken first (R270, R273, R324, 46_overlays.md). -/
def Obligations.Update4CompositeResult : Prop :=
  ∀ p : Instr × Instr, p ∈ ([(.zero, .zeroU4), (.shortMotion8, .sm8U4), (.motion8, .m8U4), (.shortMotion4, .sm4U4),
      (.motion4, .m4U4), (.singleFill, .sfU4), (.fourFill, .ffU4),
      (.roMotion8, .rom8U4), (.rcMotion8, .rcm8U4), (.roMotion4, .rom4U4), (.rcMotion4, .rcm4U4)]
      : List (Instr × Instr)) →
    ∀ s : State, 8 ≤ s.width →
      (s.Readable p.2 →
        s.Readable p.1 ∧
        ∃ u t, exec p.1 s = .next u ∧ exec p.2 s = .next t ∧ u.SameLocals t ∧
          ∃ px, u.TileDone t 4 3 px False ∧
            ∀ r c, r < 8 → c < 8 →
              LastWrite 4 (fun k => fieldOf (u.unalignedWord 0 3) 6 k) u.alignedByte
                (u.byteAt .cur (s.pixAddr r c)) r c (px r c)) ∧
      s.CompositeOverruns p.1 p.2 .unaligned 3

/-- The eleven +U8 instructions run their base and then patch eight pixels, the later patch winning; an overrun in the
base is taken first (R271, R273, R324, 46_overlays.md). -/
def Obligations.Update8CompositeResult : Prop :=
  ∀ p : Instr × Instr, p ∈ ([(.zero, .zeroU8), (.shortMotion8, .sm8U8), (.motion8, .m8U8), (.shortMotion4, .sm4U8),
      (.motion4, .m4U8), (.singleFill, .sfU8), (.fourFill, .ffU8),
      (.roMotion8, .rom8U8), (.rcMotion8, .rcm8U8), (.roMotion4, .rom4U8), (.rcMotion4, .rcm4U8)]
      : List (Instr × Instr)) →
    ∀ s : State, 8 ≤ s.width →
      (s.Readable p.2 →
        s.Readable p.1 ∧
        ∃ u t, exec p.1 s = .next u ∧ exec p.2 s = .next t ∧ u.SameLocals t ∧
          ∃ px, u.TileDone t 8 6 px False ∧
            ∀ r c, r < 8 → c < 8 →
              LastWrite 8 (fun k => fieldOf (u.unalignedWord (3 * (k / 4)) 3) 6 (k % 4)) u.alignedByte
                (u.byteAt .cur (s.pixAddr r c)) r c (px r c)) ∧
      s.CompositeOverruns p.1 p.2 .unaligned 3

/-- The eleven +U16 instructions run their base and then replace the pixels whose mask bit is set; an overrun in the
base is taken first (R272, R273, R324, 46_overlays.md). -/
def Obligations.Update16CompositeResult : Prop :=
  ∀ p : Instr × Instr, p ∈ ([(.zero, .zeroU16), (.shortMotion8, .sm8U16), (.motion8, .m8U16), (.shortMotion4, .sm4U16),
      (.motion4, .m4U16), (.singleFill, .sfU16), (.fourFill, .ffU16),
      (.roMotion8, .rom8U16), (.rcMotion8, .rcm8U16), (.roMotion4, .rom4U16), (.rcMotion4, .rcm4U16)]
      : List (Instr × Instr)) →
    ∀ s : State, 8 ≤ s.width →
      (s.Readable p.2 →
        s.Readable p.1 ∧
        ∃ u t, exec p.1 s = .next u ∧ exec p.2 s = .next t ∧ u.SameLocals t ∧
          u.TileDone t 8 (bitsBefore u.alignedByte 64)
            (fun r c =>
              if (u.alignedByte r).getLsbD c then u.unalignedByte (bitsBefore u.alignedByte (8 * r + c))
              else u.byteAt .cur (s.pixAddr r c)) False) ∧
      s.CompositeOverruns p.1 p.2 .aligned 1

/-- A step fetches, runs exec of the decoded instruction, and finishes the tile unless that took a fault (R134, R135). -/
def Obligations.StepRunsDecodedInstruction : Prop :=
  ∀ (s t : State) (op : BitVec 6) (i : Instr), s.run = .busy → s.tileIdx.toNat < s.tiles →
    fetch s = .ok op t → decode op = i → i.wellFormed = true →
    step s = match exec i t with
      | .next u => .next (if u.run = .busy then u.finishStep else u)
      | .fault f => .fault f
      | .refused r => .refused r

/-- In a run whose opcode stream is in the payload, the fetch gives the opcode of the tile being built (R100, R133,
10_state.md). -/
def Obligations.FetchGivesTileOpcode : Prop :=
  ∀ s : State, s.SequencerOk → 4 + s.opBytes ≤ s.payloadLen.toNat →
    ∃ op t, fetch s = .ok op t ∧
      op.toNat = s.opcodeTriple s.tileIdx.toNat / 2 ^ (6 * (s.tileIdx.toNat % 4)) % 64 ∧
      t = { s with opcPtr := t.opcPtr, opreg := t.opreg, opcnt := t.opcnt } ∧
      t.opcnt.toNat = 3 - s.tileIdx.toNat % 4 ∧
      t.opcPtr.toNat = 4 + 3 * (s.tileIdx.toNat / 4 + 1)

/-- An opcode refill past PAYLOAD_LEN halts the run with stream 1, opcode 0 and the address OPC_PTR (R133, R321, R323). -/
def Obligations.OpcodeRefillOverrun : Prop :=
  (∀ s : State, s.run = .busy → s.tileIdx.toNat < s.tiles → s.opcnt = 0 →
    s.payloadLen.toNat < s.opcPtr.toNat + min 3 (4 + s.opBytes - s.opcPtr.toNat) →
    ∃ t, step s = .next t ∧
      t = { s with
        fb0 := t.fb0, fb1 := t.fb1, run := .halted, flags := { s.flags with errOverrun := true }
        fault := { kind := 1, tile := s.tileIdx, opcode := 0, stream := 1, addr := s.opcPtr }
        freeTick := t.freeTick } ∧
      t.prvMem = s.prvMem ∧ ∀ a, s.OutsideTile a → t.byteAt .cur a = s.byteAt .cur a) ∧
  ∀ s : State, s.opcnt ≠ 0 →
    fetch s = .ok (s.opreg.setWidth 6) { s with opreg := s.opreg >>> 6, opcnt := s.opcnt - 1 }

/-- When the first read of an instruction already overruns, that read's stream and address are reported (R324, R321,
R323). -/
def Obligations.FirstReadOverrunIsReported : Prop :=
  (∀ i : Instr, i ∈ [Instr.oneBit, .threeBit, .fourBit, .threeBitSplit, .prime, .oneBank, .twoBanks,
      .bank1H, .bank1V, .bank1D1, .bank1D2] →
    ∀ s : State, s.payloadLen.toNat < s.unaPtr.toNat + 1 →
      ∃ t, exec i s = .next t ∧ t.run = .halted ∧ t.alnPtr = s.alnPtr ∧ t.unaPtr = s.unaPtr ∧
        t.fault = { kind := 1, tile := s.tileIdx, opcode := i.opcode, stream := 3, addr := s.unaPtr }) ∧
  ∀ i : Instr, i ∈ [Instr.blockH, .blockV, .blockD1, .blockD2] →
    ∀ s : State, s.payloadLen.toNat < s.alnPtr.toNat + 1 →
      ∃ t, exec i s = .next t ∧ t.run = .halted ∧ t.alnPtr = s.alnPtr ∧ t.unaPtr = s.unaPtr ∧
        t.fault = { kind := 1, tile := s.tileIdx, opcode := i.opcode, stream := 2, addr := s.alnPtr }

/-- In a run every Pix and QPix address of the tile is inside the frame (R76). -/
def Obligations.PixelWritesStayInFrame : Prop :=
  ∀ s : State, s.SequencerOk →
    (∀ r c, r < 8 → c < 8 → s.pixAddr r c < s.frameSize) ∧
    ∀ q r c, q < 4 → r < 4 → c < 4 → s.qpixAddr q r c < s.frameSize

/-- Advance moves the tile registers to the next tile in raster order (R137). -/
def Obligations.AdvanceFollowsRasterOrder : Prop :=
  ∀ s : State, s.SequencerOk →
    let t := s.advance
    t = { s with tileIdx := t.tileIdx, tileX := t.tileX, tileY := t.tileY, tileOfs := t.tileOfs } ∧
    t.tileIdx.toNat = s.tileIdx.toNat + 1 ∧
    (if s.tileX.toNat + 1 = s.tilesPerRow then
      t.tileX = 0 ∧ t.tileY.toNat = s.tileY.toNat + 1 ∧ t.tileOfs.toNat = s.tileOfs.toNat + 8 + 7 * s.width
    else t.tileX.toNat = s.tileX.toNat + 1 ∧ t.tileY = s.tileY ∧ t.tileOfs.toNat = s.tileOfs.toNat + 8) ∧
    t.tileOfs.toNat = t.tileX.toNat * 8 + t.tileY.toNat * 8 * s.width ∧
    t.tileIdx.toNat = t.tileY.toNat * s.tilesPerRow + t.tileX.toNat ∧
    (t.tileIdx.toNat = s.tiles →
      t.tileOfs.toNat = s.width * s.height ∧ t.tileX = 0 ∧ t.tileY.toNat = s.height / 8)

/-- A step logs the frame, swaps the buffers and sets DONE exactly when it completes the last tile (R139, R140, R40,
R28). -/
def Obligations.CompletionLogsAndSwaps : Prop :=
  ∀ s t : State, s.run = .busy → step s = .next t →
    (t.run = .idle →
      s.tileIdx.toNat + 1 = s.tiles ∧
      t.emitLog = s.emitLog ++ [{ width := s.width, height := s.height,
                                  bytes := (List.range s.frameSize).map (t.byteAt .prv) }] ∧
      t.bufsel = !s.bufsel ∧
      t.flags = { s.flags with done := true, refOob := t.flags.refOob } ∧ t.fault = s.fault) ∧
    (t.run ≠ .idle → t.emitLog = s.emitLog ∧ t.bufsel = s.bufsel ∧ t.flags.done = s.flags.done) ∧
    (s.tileIdx.toNat + 1 = s.tiles → t.run ≠ .halted → t.run = .idle)

/-- No step changes PL, the configuration, COLOR_OFFSET, the previous frame, or CUR outside the tile being built (R60,
R23, R40, R321). -/
def Obligations.StepLeavesInputsAlone : Prop :=
  ∀ s t : State, step s = .next t →
    t.pl = s.pl ∧ t.cfgWidth = s.cfgWidth ∧ t.cfgHeight = s.cfgHeight ∧ t.cfgCompressor = s.cfgCompressor ∧
    t.payloadLen = s.payloadLen ∧ t.colorOffset = s.colorOffset ∧
    (if s.bufsel then t.fb0 = s.fb0 else t.fb1 = s.fb1) ∧
    (∀ a, s.OutsideTile a → (if s.bufsel then t.fb1 else t.fb0).frameByte a = s.byteAt .cur a) ∧
    s.emitLog <+: t.emitLog

/-- Every step keeps the invariant: canonical memories, and a sequencer in order while BUSY (R26, R133, R135, R137,
R131). -/
def Obligations.StepKeepsInvariant : Prop :=
  ∀ s t : State, s.Inv → step s = .next t → t.Inv

/-- The state after reset has the invariant (R38, R350). -/
def Obligations.ResetHasInvariant : Prop :=
  State.reset.Inv ∧ ∀ s : State, s.hostReset.Inv

/-- Every host operation keeps the invariant, START among them (R23, R33, R35, R131, R132, R353). That a memory write
during a run is refused is a choice of the model (log 6). -/
def Obligations.HostOperationsKeepInvariant : Prop :=
  ∀ (caps : Config.Caps) (op : HostOp) (s t : State), s.Inv → s.hostStep caps op = .next t → t.Inv

/-- A BUSY run reaches IDLE or HALTED within as many steps as it has tiles left (R135, R372). -/
def Obligations.RunEndsWithinTiles : Prop :=
  ∀ s : State, s.run = .busy → s.tileIdx.toNat < s.tiles →
    ∃ n t, n ≤ s.tiles - s.tileIdx.toNat ∧ Sys2Proof.core.run n s = .next t ∧ t.run ≠ .busy

/-- While RUN is IDLE or HALTED a step changes nothing (R325, R350). That a step is then the identity is the convention
of the model (log 11). -/
def Obligations.IdleOrHaltedStepDoesNothing : Prop :=
  ∀ s : State, s.run ≠ .busy → step s = .next s

/-- After reset every piece of state has the value of the reset table, and a step starts no execution (R38). -/
def Obligations.ResetStateValues : Prop :=
  ∀ t : State, t = State.reset ∨ (∃ s : State, t = s.hostReset) →
    (∀ a, t.fb0.frameByte a = 0 ∧ t.fb1.frameByte a = 0) ∧
    t.cfgWidth = 0 ∧ t.cfgHeight = 0 ∧ t.cfgCompressor = 0 ∧ t.payloadLen = 0 ∧
    t.run = .idle ∧ t.statusWord = 0 ∧ t.bufsel = false ∧
    t.fault = { kind := 0, tile := 0, opcode := 0, stream := 0, addr := 0 } ∧
    t.tileIdx = 0 ∧ t.tileX = 0 ∧ t.tileY = 0 ∧ t.tileOfs = 0 ∧
    t.opcPtr = 0 ∧ t.opreg = 0 ∧ t.opcnt = 0 ∧
    t.alnPtr = 0 ∧ t.unaPtr = 0 ∧ t.colorOffset = 0 ∧
    t.lastColor = 0 ∧ t.nibFlag = false ∧ t.nibByte = 0 ∧ t.bank = 0 ∧
    t.emitLog = [] ∧ ∀ u, step t = .next u → u.run = .idle

/-- START with an unusable configuration halts with ConfigFault and changes nothing of the run (R322). -/
def Obligations.StartConfigFault : Prop :=
  ∀ (caps : Config.Caps) (s : State) (v : BitVec 32), s.run ≠ .busy → v.getLsbD 0 = true → v.getLsbD 1 = false →
    let bad := s.width = 0 ∨ s.height = 0 ∨ s.width % 8 ≠ 0 ∨ s.height % 8 ≠ 0 ∨
      s.width * s.height > caps.fbCap ∨ s.payloadLen.toNat > caps.plCap
    (bad → s.hostWriteReg caps 0 v =
      { s with
        run := .halted
        flags := { done := false, errOverrun := false, errConfig := true, refOob := false
                   degraded := decide (s.cfgCompressor ≠ 0) }
        fault := { kind := 2, tile := 0, opcode := 0, stream := 0, addr := 0 } }) ∧
    (¬ bad → (s.hostWriteReg caps 0 v).flags.errConfig = false)

/-- START with a usable configuration initialises the run, or overruns on the head field (R132). -/
def Obligations.StartInitialisesRun : Prop :=
  ∀ (caps : Config.Caps) (s : State) (v : BitVec 32), s.run ≠ .busy → v.getLsbD 0 = true → v.getLsbD 1 = false →
    s.width ≠ 0 → s.height ≠ 0 → s.width % 8 = 0 → s.height % 8 = 0 →
    s.width * s.height ≤ caps.fbCap → s.payloadLen.toNat ≤ caps.plCap →
    let flags : StatusFlags :=
      { done := false, errOverrun := false, errConfig := false, refOob := false
        degraded := decide (s.cfgCompressor ≠ 0) }
    let begun := { s with tileIdx := 0, tileX := 0, tileY := 0, tileOfs := 0, opcPtr := 4, opreg := 0, opcnt := 0 }
    let opBytes := (6 * ((s.width / 8) * (s.height / 8)) + 7) / 8
    let start := if s.width = 320 then 4 + opBytes else 4 + 4 * ((opBytes + 3) / 4)
    let head := (s.plByte 0).toNat + 2 ^ 8 * (s.plByte 1).toNat + 2 ^ 16 * (s.plByte 2).toNat
      + 2 ^ 24 * (s.plByte 3).toNat
    (4 ≤ s.payloadLen.toNat → s.hostWriteReg caps 0 v =
      { begun with
        run := .busy, flags := flags
        colorOffset := BitVec.ofNat 32 head, unaPtr := BitVec.ofNat 32 head, alnPtr := BitVec.ofNat 32 start }) ∧
    (s.payloadLen.toNat < 4 → s.hostWriteReg caps 0 v =
      { begun with
        run := .halted, flags := { flags with errOverrun := true }
        fault := { kind := 1, tile := 0, opcode := 0, stream := 0, addr := 0 } })

/-- A CTRL write clears, starts or does nothing by its two low bits, CLEAR winning, and is ignored while BUSY (R33,
R351). -/
def Obligations.CtrlAndClear : Prop :=
  ∀ (caps : Config.Caps) (s : State) (v : BitVec 32),
    (s.run = .busy → s.hostWriteReg caps 0 v = s) ∧
    (s.run ≠ .busy → v.getLsbD 1 = true →
      let t := s.hostWriteReg caps 0 v;
      (∀ a, t.fb0.frameByte a = 0 ∧ t.fb1.frameByte a = 0) ∧
      t = { s with
        fb0 := t.fb0, fb1 := t.fb1, bufsel := false, run := .idle
        flags := { done := false, errOverrun := false, errConfig := false, refOob := false, degraded := false } }) ∧
    (v.getLsbD 1 = false → v.getLsbD 0 = false → s.hostWriteReg caps 0 v = s) ∧
    (s.run ≠ .busy → v.getLsbD 1 = false → v.getLsbD 0 = true →
      s.hostWriteReg caps 0 v = s.start caps ∧ (s.start caps).run ≠ .idle) ∧
    (∀ w : BitVec 32, w.getLsbD 0 = v.getLsbD 0 → w.getLsbD 1 = v.getLsbD 1 →
      s.hostWriteReg caps 0 w = s.hostWriteReg caps 0 v) ∧
    s.hostReadReg 0 = (0, s)

/-- A configuration write outside a run reads back and changes nothing else; during a run it is ignored (R23, R33, R34).
That a write to a register listed as read-only is ignored is the reading of the model (log 10). What a value wider
than the register leaves is a choice of the model (log 9) and not stated. -/
def Obligations.ConfigurationRegistersReadBack : Prop :=
  (∀ (caps : Config.Caps) (s : State) (no : Nat) (v : BitVec 32), s.run = .busy → s.hostWriteReg caps no v = s) ∧
  (∀ (caps : Config.Caps) (s : State) (v : BitVec 32), s.run ≠ .busy →
    (v.toNat < 2 ^ 16 →
      let t := s.hostWriteReg caps 2 v
      t = { s with cfgWidth := t.cfgWidth } ∧ t.width = v.toNat ∧ t.hostReadReg 2 = (v, t)) ∧
    (v.toNat < 2 ^ 16 →
      let t := s.hostWriteReg caps 3 v
      t = { s with cfgHeight := t.cfgHeight } ∧ t.height = v.toNat ∧ t.hostReadReg 3 = (v, t)) ∧
    (let t := s.hostWriteReg caps 4 v;
      t = { s with cfgCompressor := v } ∧ t.hostReadReg 4 = (v, t)) ∧
    (let t := s.hostWriteReg caps 5 v;
      t = { s with payloadLen := v } ∧ t.hostReadReg 5 = (v, t))) ∧
  ∀ no, 2 ≤ no → no ≤ 5 → (State.reset.hostReadReg no).1 = 0

/-- STATUS shows the run state, the latched flags and BUFSEL in its eight low bits and zero above, and is always
readable (R31, R34). -/
def Obligations.StatusRegisterBits : Prop :=
  ∀ s : State,
    let v := (s.hostReadReg 1).1;
    (s.hostReadReg 1).2 = s ∧
    (v.getLsbD 0 = true ↔ s.run = .busy) ∧ v.getLsbD 1 = s.flags.done ∧ (v.getLsbD 2 = true ↔ s.run = .halted) ∧
    v.getLsbD 3 = s.flags.errOverrun ∧ v.getLsbD 4 = s.flags.errConfig ∧ v.getLsbD 5 = s.flags.refOob ∧
    v.getLsbD 6 = s.flags.degraded ∧ v.getLsbD 7 = s.bufsel ∧ ∀ k, 8 ≤ k → v.getLsbD k = false

/-- Register reads give the registers zero-extended, unlisted numbers zero, and never disturb a run (R34, R32,
10_state.md). That a write to a read-only register is ignored (log 10) and that the fault record reads as stored
during a run (log 20) are the model's reading. -/
def Obligations.RegisterReads : Prop :=
  (∀ s : State, s.run ≠ .busy →
    (s.hostReadReg 6).1.toNat = s.fault.kind.toNat ∧ (s.hostReadReg 7).1 = s.fault.tile ∧
    (s.hostReadReg 8).1.toNat = s.fault.opcode.toNat ∧ (s.hostReadReg 9).1.toNat = s.fault.stream.toNat ∧
    (s.hostReadReg 10).1 = s.fault.addr ∧ (s.hostReadReg 11).1 = s.tileIdx ∧
    (s.hostReadReg 12).1.toNat = s.tileX.toNat ∧ (s.hostReadReg 13).1.toNat = s.tileY.toNat ∧
    (s.hostReadReg 14).1 = s.tileOfs ∧ (s.hostReadReg 15).1 = s.opcPtr ∧
    (s.hostReadReg 16).1.toNat = s.opreg.toNat ∧ (s.hostReadReg 17).1.toNat = s.opcnt.toNat ∧
    (s.hostReadReg 18).1 = s.alnPtr ∧ (s.hostReadReg 19).1 = s.unaPtr ∧ (s.hostReadReg 20).1 = s.colorOffset ∧
    (s.hostReadReg 21).1.toNat = s.lastColor.toNat ∧
    (s.hostReadReg 22).1.toNat = (if s.nibFlag then 256 else 0) + s.nibByte.toNat ∧
    (s.hostReadReg 23).1.toNat = s.bank.toNat ∧
    ∀ no, (s.hostReadReg no).2 = s ∧ (23 < no → (s.hostReadReg no).1 = 0)) ∧
  (∀ (s : State) (no : Nat), s.run = .busy →
    (no ≤ 10 → (s.hostReadReg no) = (s.regValue no, s)) ∧ (23 < no → (s.hostReadReg no) = (0, s)) ∧
    (11 ≤ no → no ≤ 23 → (s.hostReadReg no).2 = { s with freeTick := (s.hostReadReg no).2.freeTick })) ∧
  ∀ (caps : Config.Caps) (s : State) (no : Nat) (v : BitVec 32), no = 1 ∨ 5 < no → s.hostWriteReg caps no v = s

/-- Outside a run the host writes one byte of a memory and reads back what was written last (R21, R35, R361). The
refusal of a write during a run (log 6), the fault beyond the capacity (log 8) and that PL keeps its bytes beyond
PAYLOAD_LEN as well (log 22) are choices of the model. -/
def Obligations.HostMemoryAccess : Prop :=
  ∀ (caps : Config.Caps) (s : State) (m : HostMem) (a : Nat) (v : Byte),
    (s.run ≠ .busy → a < m.capacity caps →
      (∃ t, s.hostWriteMem caps m a v = .next t ∧
        (∀ n b, t.hostByte n b = if n = m ∧ b = a then v else s.hostByte n b) ∧
        t = { s with pl := t.pl, fb0 := t.fb0, fb1 := t.fb1 }) ∧
      s.hostReadMem caps m a = .ok (s.hostByte m a, s)) ∧
    (s.run = .busy → s.hostWriteMem caps m a v = .refused .hostWriteWhileBusy) ∧
    (s.run ≠ .busy → m.capacity caps ≤ a →
      s.hostWriteMem caps m a v = .fault .noSuchByte ∧ s.hostReadMem caps m a = .error .noSuchByte)

/-- Flags, compressor tag, fault record, log and leftover primitive-local registers never influence a step's work (R29,
R31, R327, R354). -/
def Obligations.FlagsAndLeftoversDoNotInfluence : Prop :=
  ∀ s s' t : State,
    s' = { s with
      flags := s'.flags, cfgCompressor := s'.cfgCompressor, colorOffset := s'.colorOffset, fault := s'.fault
      emitLog := s'.emitLog, lastColor := s'.lastColor, nibFlag := s'.nibFlag, nibByte := s'.nibByte
      bank := s'.bank } →
    step s = .next t →
    ∃ t', step s' = .next t' ∧
      t' = { t with
        flags := t'.flags, cfgCompressor := t'.cfgCompressor, colorOffset := t'.colorOffset, fault := t'.fault
        emitLog := t'.emitLog, lastColor := t'.lastColor, nibFlag := t'.nibFlag, nibByte := t'.nibByte
        bank := t'.bank }

/-- Opcodes 0 and 21 to 47 do not depend on the previous frame (R141, R60). -/
def Obligations.KeyFrameOpcodesIgnorePrevious : Prop :=
  ∀ i : Instr, i.opcode = 0 ∨ (21 ≤ i.opcode.toNat ∧ i.opcode.toNat ≤ 47) →
    ∀ s s' t : State,
      s' = (if s.bufsel then { s with fb0 := s'.fb0 } else { s with fb1 := s'.fb1 }) →
      exec i s = .next t →
      ∃ t', exec i s' = .next t' ∧ t'.prvMem = s'.prvMem ∧ t.prvMem = s.prvMem ∧
        t' = (if s.bufsel then { t with fb0 := t'.fb0 } else { t with fb1 := t'.fb1 })
end

