-- ==== Sys2Proof/Laws/State.lean ====
section
/-!
SUPPORT. The record lemmas of the state: for each named update, one lemma per field it leaves alone, and what it writes.
-/

namespace Sys2Proof.Machine

/-! ### `State.setByte_cur` -/

@[simp] theorem State.setByte_cur_pl (s : State) (a : Nat) (v : Byte) : (s.setByte .cur a v).pl = s.pl := rfl
@[simp] theorem State.setByte_cur_cfgWidth (s : State) (a : Nat) (v : Byte) : (s.setByte .cur a v).cfgWidth = s.cfgWidth := rfl
@[simp] theorem State.setByte_cur_cfgHeight (s : State) (a : Nat) (v : Byte) : (s.setByte .cur a v).cfgHeight = s.cfgHeight := rfl
@[simp] theorem State.setByte_cur_cfgCompressor (s : State) (a : Nat) (v : Byte) : (s.setByte .cur a v).cfgCompressor = s.cfgCompressor := rfl
@[simp] theorem State.setByte_cur_payloadLen (s : State) (a : Nat) (v : Byte) : (s.setByte .cur a v).payloadLen = s.payloadLen := rfl
@[simp] theorem State.setByte_cur_tileIdx (s : State) (a : Nat) (v : Byte) : (s.setByte .cur a v).tileIdx = s.tileIdx := rfl
@[simp] theorem State.setByte_cur_opcPtr (s : State) (a : Nat) (v : Byte) : (s.setByte .cur a v).opcPtr = s.opcPtr := rfl
@[simp] theorem State.setByte_cur_opreg (s : State) (a : Nat) (v : Byte) : (s.setByte .cur a v).opreg = s.opreg := rfl
@[simp] theorem State.setByte_cur_opcnt (s : State) (a : Nat) (v : Byte) : (s.setByte .cur a v).opcnt = s.opcnt := rfl
@[simp] theorem State.setByte_cur_tileX (s : State) (a : Nat) (v : Byte) : (s.setByte .cur a v).tileX = s.tileX := rfl
@[simp] theorem State.setByte_cur_tileY (s : State) (a : Nat) (v : Byte) : (s.setByte .cur a v).tileY = s.tileY := rfl
@[simp] theorem State.setByte_cur_tileOfs (s : State) (a : Nat) (v : Byte) : (s.setByte .cur a v).tileOfs = s.tileOfs := rfl
@[simp] theorem State.setByte_cur_alnPtr (s : State) (a : Nat) (v : Byte) : (s.setByte .cur a v).alnPtr = s.alnPtr := rfl
@[simp] theorem State.setByte_cur_unaPtr (s : State) (a : Nat) (v : Byte) : (s.setByte .cur a v).unaPtr = s.unaPtr := rfl
@[simp] theorem State.setByte_cur_colorOffset (s : State) (a : Nat) (v : Byte) : (s.setByte .cur a v).colorOffset = s.colorOffset := rfl
@[simp] theorem State.setByte_cur_bufsel (s : State) (a : Nat) (v : Byte) : (s.setByte .cur a v).bufsel = s.bufsel := rfl
@[simp] theorem State.setByte_cur_lastColor (s : State) (a : Nat) (v : Byte) : (s.setByte .cur a v).lastColor = s.lastColor := rfl
@[simp] theorem State.setByte_cur_nibFlag (s : State) (a : Nat) (v : Byte) : (s.setByte .cur a v).nibFlag = s.nibFlag := rfl
@[simp] theorem State.setByte_cur_nibByte (s : State) (a : Nat) (v : Byte) : (s.setByte .cur a v).nibByte = s.nibByte := rfl
@[simp] theorem State.setByte_cur_bank (s : State) (a : Nat) (v : Byte) : (s.setByte .cur a v).bank = s.bank := rfl
@[simp] theorem State.setByte_cur_run (s : State) (a : Nat) (v : Byte) : (s.setByte .cur a v).run = s.run := rfl
@[simp] theorem State.setByte_cur_flags (s : State) (a : Nat) (v : Byte) : (s.setByte .cur a v).flags = s.flags := rfl
@[simp] theorem State.setByte_cur_fault (s : State) (a : Nat) (v : Byte) : (s.setByte .cur a v).fault = s.fault := rfl
@[simp] theorem State.setByte_cur_emitLog (s : State) (a : Nat) (v : Byte) : (s.setByte .cur a v).emitLog = s.emitLog := rfl
@[simp] theorem State.setByte_cur_freeTick (s : State) (a : Nat) (v : Byte) : (s.setByte .cur a v).freeTick = s.freeTick := rfl
@[simp] theorem State.setByte_cur_resetCount (s : State) (a : Nat) (v : Byte) : (s.setByte .cur a v).resetCount = s.resetCount := rfl

/-! ### `State.setByte_pl` -/

@[simp] theorem State.setByte_pl_pl (s : State) (a : Nat) (v : Byte) : (s.setByte .pl a v).pl = s.pl.insert a v := rfl
@[simp] theorem State.setByte_pl_fb0 (s : State) (a : Nat) (v : Byte) : (s.setByte .pl a v).fb0 = s.fb0 := rfl
@[simp] theorem State.setByte_pl_fb1 (s : State) (a : Nat) (v : Byte) : (s.setByte .pl a v).fb1 = s.fb1 := rfl
@[simp] theorem State.setByte_pl_cfgWidth (s : State) (a : Nat) (v : Byte) : (s.setByte .pl a v).cfgWidth = s.cfgWidth := rfl
@[simp] theorem State.setByte_pl_cfgHeight (s : State) (a : Nat) (v : Byte) : (s.setByte .pl a v).cfgHeight = s.cfgHeight := rfl
@[simp] theorem State.setByte_pl_cfgCompressor (s : State) (a : Nat) (v : Byte) : (s.setByte .pl a v).cfgCompressor = s.cfgCompressor := rfl
@[simp] theorem State.setByte_pl_payloadLen (s : State) (a : Nat) (v : Byte) : (s.setByte .pl a v).payloadLen = s.payloadLen := rfl
@[simp] theorem State.setByte_pl_tileIdx (s : State) (a : Nat) (v : Byte) : (s.setByte .pl a v).tileIdx = s.tileIdx := rfl
@[simp] theorem State.setByte_pl_opcPtr (s : State) (a : Nat) (v : Byte) : (s.setByte .pl a v).opcPtr = s.opcPtr := rfl
@[simp] theorem State.setByte_pl_opreg (s : State) (a : Nat) (v : Byte) : (s.setByte .pl a v).opreg = s.opreg := rfl
@[simp] theorem State.setByte_pl_opcnt (s : State) (a : Nat) (v : Byte) : (s.setByte .pl a v).opcnt = s.opcnt := rfl
@[simp] theorem State.setByte_pl_tileX (s : State) (a : Nat) (v : Byte) : (s.setByte .pl a v).tileX = s.tileX := rfl
@[simp] theorem State.setByte_pl_tileY (s : State) (a : Nat) (v : Byte) : (s.setByte .pl a v).tileY = s.tileY := rfl
@[simp] theorem State.setByte_pl_tileOfs (s : State) (a : Nat) (v : Byte) : (s.setByte .pl a v).tileOfs = s.tileOfs := rfl
@[simp] theorem State.setByte_pl_alnPtr (s : State) (a : Nat) (v : Byte) : (s.setByte .pl a v).alnPtr = s.alnPtr := rfl
@[simp] theorem State.setByte_pl_unaPtr (s : State) (a : Nat) (v : Byte) : (s.setByte .pl a v).unaPtr = s.unaPtr := rfl
@[simp] theorem State.setByte_pl_colorOffset (s : State) (a : Nat) (v : Byte) : (s.setByte .pl a v).colorOffset = s.colorOffset := rfl
@[simp] theorem State.setByte_pl_bufsel (s : State) (a : Nat) (v : Byte) : (s.setByte .pl a v).bufsel = s.bufsel := rfl
@[simp] theorem State.setByte_pl_lastColor (s : State) (a : Nat) (v : Byte) : (s.setByte .pl a v).lastColor = s.lastColor := rfl
@[simp] theorem State.setByte_pl_nibFlag (s : State) (a : Nat) (v : Byte) : (s.setByte .pl a v).nibFlag = s.nibFlag := rfl
@[simp] theorem State.setByte_pl_nibByte (s : State) (a : Nat) (v : Byte) : (s.setByte .pl a v).nibByte = s.nibByte := rfl
@[simp] theorem State.setByte_pl_bank (s : State) (a : Nat) (v : Byte) : (s.setByte .pl a v).bank = s.bank := rfl
@[simp] theorem State.setByte_pl_run (s : State) (a : Nat) (v : Byte) : (s.setByte .pl a v).run = s.run := rfl
@[simp] theorem State.setByte_pl_flags (s : State) (a : Nat) (v : Byte) : (s.setByte .pl a v).flags = s.flags := rfl
@[simp] theorem State.setByte_pl_fault (s : State) (a : Nat) (v : Byte) : (s.setByte .pl a v).fault = s.fault := rfl
@[simp] theorem State.setByte_pl_emitLog (s : State) (a : Nat) (v : Byte) : (s.setByte .pl a v).emitLog = s.emitLog := rfl
@[simp] theorem State.setByte_pl_freeTick (s : State) (a : Nat) (v : Byte) : (s.setByte .pl a v).freeTick = s.freeTick := rfl
@[simp] theorem State.setByte_pl_resetCount (s : State) (a : Nat) (v : Byte) : (s.setByte .pl a v).resetCount = s.resetCount := rfl

/-! ### `State.setByte_prv` -/

@[simp] theorem State.setByte_prv_pl (s : State) (a : Nat) (v : Byte) : (s.setByte .prv a v).pl = s.pl := rfl
@[simp] theorem State.setByte_prv_cfgWidth (s : State) (a : Nat) (v : Byte) : (s.setByte .prv a v).cfgWidth = s.cfgWidth := rfl
@[simp] theorem State.setByte_prv_cfgHeight (s : State) (a : Nat) (v : Byte) : (s.setByte .prv a v).cfgHeight = s.cfgHeight := rfl
@[simp] theorem State.setByte_prv_cfgCompressor (s : State) (a : Nat) (v : Byte) : (s.setByte .prv a v).cfgCompressor = s.cfgCompressor := rfl
@[simp] theorem State.setByte_prv_payloadLen (s : State) (a : Nat) (v : Byte) : (s.setByte .prv a v).payloadLen = s.payloadLen := rfl
@[simp] theorem State.setByte_prv_tileIdx (s : State) (a : Nat) (v : Byte) : (s.setByte .prv a v).tileIdx = s.tileIdx := rfl
@[simp] theorem State.setByte_prv_opcPtr (s : State) (a : Nat) (v : Byte) : (s.setByte .prv a v).opcPtr = s.opcPtr := rfl
@[simp] theorem State.setByte_prv_opreg (s : State) (a : Nat) (v : Byte) : (s.setByte .prv a v).opreg = s.opreg := rfl
@[simp] theorem State.setByte_prv_opcnt (s : State) (a : Nat) (v : Byte) : (s.setByte .prv a v).opcnt = s.opcnt := rfl
@[simp] theorem State.setByte_prv_tileX (s : State) (a : Nat) (v : Byte) : (s.setByte .prv a v).tileX = s.tileX := rfl
@[simp] theorem State.setByte_prv_tileY (s : State) (a : Nat) (v : Byte) : (s.setByte .prv a v).tileY = s.tileY := rfl
@[simp] theorem State.setByte_prv_tileOfs (s : State) (a : Nat) (v : Byte) : (s.setByte .prv a v).tileOfs = s.tileOfs := rfl
@[simp] theorem State.setByte_prv_alnPtr (s : State) (a : Nat) (v : Byte) : (s.setByte .prv a v).alnPtr = s.alnPtr := rfl
@[simp] theorem State.setByte_prv_unaPtr (s : State) (a : Nat) (v : Byte) : (s.setByte .prv a v).unaPtr = s.unaPtr := rfl
@[simp] theorem State.setByte_prv_colorOffset (s : State) (a : Nat) (v : Byte) : (s.setByte .prv a v).colorOffset = s.colorOffset := rfl
@[simp] theorem State.setByte_prv_bufsel (s : State) (a : Nat) (v : Byte) : (s.setByte .prv a v).bufsel = s.bufsel := rfl
@[simp] theorem State.setByte_prv_lastColor (s : State) (a : Nat) (v : Byte) : (s.setByte .prv a v).lastColor = s.lastColor := rfl
@[simp] theorem State.setByte_prv_nibFlag (s : State) (a : Nat) (v : Byte) : (s.setByte .prv a v).nibFlag = s.nibFlag := rfl
@[simp] theorem State.setByte_prv_nibByte (s : State) (a : Nat) (v : Byte) : (s.setByte .prv a v).nibByte = s.nibByte := rfl
@[simp] theorem State.setByte_prv_bank (s : State) (a : Nat) (v : Byte) : (s.setByte .prv a v).bank = s.bank := rfl
@[simp] theorem State.setByte_prv_run (s : State) (a : Nat) (v : Byte) : (s.setByte .prv a v).run = s.run := rfl
@[simp] theorem State.setByte_prv_flags (s : State) (a : Nat) (v : Byte) : (s.setByte .prv a v).flags = s.flags := rfl
@[simp] theorem State.setByte_prv_fault (s : State) (a : Nat) (v : Byte) : (s.setByte .prv a v).fault = s.fault := rfl
@[simp] theorem State.setByte_prv_emitLog (s : State) (a : Nat) (v : Byte) : (s.setByte .prv a v).emitLog = s.emitLog := rfl
@[simp] theorem State.setByte_prv_freeTick (s : State) (a : Nat) (v : Byte) : (s.setByte .prv a v).freeTick = s.freeTick := rfl
@[simp] theorem State.setByte_prv_resetCount (s : State) (a : Nat) (v : Byte) : (s.setByte .prv a v).resetCount = s.resetCount := rfl

/-! ### `State.setRefOob` -/

@[simp] theorem State.setRefOob_pl (s : State) : (s.setRefOob).pl = s.pl := rfl
@[simp] theorem State.setRefOob_fb0 (s : State) : (s.setRefOob).fb0 = s.fb0 := rfl
@[simp] theorem State.setRefOob_fb1 (s : State) : (s.setRefOob).fb1 = s.fb1 := rfl
@[simp] theorem State.setRefOob_cfgWidth (s : State) : (s.setRefOob).cfgWidth = s.cfgWidth := rfl
@[simp] theorem State.setRefOob_cfgHeight (s : State) : (s.setRefOob).cfgHeight = s.cfgHeight := rfl
@[simp] theorem State.setRefOob_cfgCompressor (s : State) : (s.setRefOob).cfgCompressor = s.cfgCompressor := rfl
@[simp] theorem State.setRefOob_payloadLen (s : State) : (s.setRefOob).payloadLen = s.payloadLen := rfl
@[simp] theorem State.setRefOob_tileIdx (s : State) : (s.setRefOob).tileIdx = s.tileIdx := rfl
@[simp] theorem State.setRefOob_opcPtr (s : State) : (s.setRefOob).opcPtr = s.opcPtr := rfl
@[simp] theorem State.setRefOob_opreg (s : State) : (s.setRefOob).opreg = s.opreg := rfl
@[simp] theorem State.setRefOob_opcnt (s : State) : (s.setRefOob).opcnt = s.opcnt := rfl
@[simp] theorem State.setRefOob_tileX (s : State) : (s.setRefOob).tileX = s.tileX := rfl
@[simp] theorem State.setRefOob_tileY (s : State) : (s.setRefOob).tileY = s.tileY := rfl
@[simp] theorem State.setRefOob_tileOfs (s : State) : (s.setRefOob).tileOfs = s.tileOfs := rfl
@[simp] theorem State.setRefOob_alnPtr (s : State) : (s.setRefOob).alnPtr = s.alnPtr := rfl
@[simp] theorem State.setRefOob_unaPtr (s : State) : (s.setRefOob).unaPtr = s.unaPtr := rfl
@[simp] theorem State.setRefOob_colorOffset (s : State) : (s.setRefOob).colorOffset = s.colorOffset := rfl
@[simp] theorem State.setRefOob_bufsel (s : State) : (s.setRefOob).bufsel = s.bufsel := rfl
@[simp] theorem State.setRefOob_lastColor (s : State) : (s.setRefOob).lastColor = s.lastColor := rfl
@[simp] theorem State.setRefOob_nibFlag (s : State) : (s.setRefOob).nibFlag = s.nibFlag := rfl
@[simp] theorem State.setRefOob_nibByte (s : State) : (s.setRefOob).nibByte = s.nibByte := rfl
@[simp] theorem State.setRefOob_bank (s : State) : (s.setRefOob).bank = s.bank := rfl
@[simp] theorem State.setRefOob_run (s : State) : (s.setRefOob).run = s.run := rfl
@[simp] theorem State.setRefOob_flags (s : State) : (s.setRefOob).flags = { s.flags with refOob := true } := rfl
@[simp] theorem State.setRefOob_fault (s : State) : (s.setRefOob).fault = s.fault := rfl
@[simp] theorem State.setRefOob_emitLog (s : State) : (s.setRefOob).emitLog = s.emitLog := rfl
@[simp] theorem State.setRefOob_freeTick (s : State) : (s.setRefOob).freeTick = s.freeTick := rfl
@[simp] theorem State.setRefOob_resetCount (s : State) : (s.setRefOob).resetCount = s.resetCount := rfl

/-! ### `State.setDone` -/

@[simp] theorem State.setDone_pl (s : State) : (s.setDone).pl = s.pl := rfl
@[simp] theorem State.setDone_fb0 (s : State) : (s.setDone).fb0 = s.fb0 := rfl
@[simp] theorem State.setDone_fb1 (s : State) : (s.setDone).fb1 = s.fb1 := rfl
@[simp] theorem State.setDone_cfgWidth (s : State) : (s.setDone).cfgWidth = s.cfgWidth := rfl
@[simp] theorem State.setDone_cfgHeight (s : State) : (s.setDone).cfgHeight = s.cfgHeight := rfl
@[simp] theorem State.setDone_cfgCompressor (s : State) : (s.setDone).cfgCompressor = s.cfgCompressor := rfl
@[simp] theorem State.setDone_payloadLen (s : State) : (s.setDone).payloadLen = s.payloadLen := rfl
@[simp] theorem State.setDone_tileIdx (s : State) : (s.setDone).tileIdx = s.tileIdx := rfl
@[simp] theorem State.setDone_opcPtr (s : State) : (s.setDone).opcPtr = s.opcPtr := rfl
@[simp] theorem State.setDone_opreg (s : State) : (s.setDone).opreg = s.opreg := rfl
@[simp] theorem State.setDone_opcnt (s : State) : (s.setDone).opcnt = s.opcnt := rfl
@[simp] theorem State.setDone_tileX (s : State) : (s.setDone).tileX = s.tileX := rfl
@[simp] theorem State.setDone_tileY (s : State) : (s.setDone).tileY = s.tileY := rfl
@[simp] theorem State.setDone_tileOfs (s : State) : (s.setDone).tileOfs = s.tileOfs := rfl
@[simp] theorem State.setDone_alnPtr (s : State) : (s.setDone).alnPtr = s.alnPtr := rfl
@[simp] theorem State.setDone_unaPtr (s : State) : (s.setDone).unaPtr = s.unaPtr := rfl
@[simp] theorem State.setDone_colorOffset (s : State) : (s.setDone).colorOffset = s.colorOffset := rfl
@[simp] theorem State.setDone_bufsel (s : State) : (s.setDone).bufsel = s.bufsel := rfl
@[simp] theorem State.setDone_lastColor (s : State) : (s.setDone).lastColor = s.lastColor := rfl
@[simp] theorem State.setDone_nibFlag (s : State) : (s.setDone).nibFlag = s.nibFlag := rfl
@[simp] theorem State.setDone_nibByte (s : State) : (s.setDone).nibByte = s.nibByte := rfl
@[simp] theorem State.setDone_bank (s : State) : (s.setDone).bank = s.bank := rfl
@[simp] theorem State.setDone_run (s : State) : (s.setDone).run = s.run := rfl
@[simp] theorem State.setDone_flags (s : State) : (s.setDone).flags = { s.flags with done := true } := rfl
@[simp] theorem State.setDone_fault (s : State) : (s.setDone).fault = s.fault := rfl
@[simp] theorem State.setDone_emitLog (s : State) : (s.setDone).emitLog = s.emitLog := rfl
@[simp] theorem State.setDone_freeTick (s : State) : (s.setDone).freeTick = s.freeTick := rfl
@[simp] theorem State.setDone_resetCount (s : State) : (s.setDone).resetCount = s.resetCount := rfl

/-! ### `State.faultEntry` -/

@[simp] theorem State.faultEntry_pl (s : State) (op : BitVec 6) (c : FaultCause) : (s.faultEntry op c).pl = s.pl := rfl
@[simp] theorem State.faultEntry_fb0 (s : State) (op : BitVec 6) (c : FaultCause) : (s.faultEntry op c).fb0 = s.fb0 := rfl
@[simp] theorem State.faultEntry_fb1 (s : State) (op : BitVec 6) (c : FaultCause) : (s.faultEntry op c).fb1 = s.fb1 := rfl
@[simp] theorem State.faultEntry_cfgWidth (s : State) (op : BitVec 6) (c : FaultCause) : (s.faultEntry op c).cfgWidth = s.cfgWidth := rfl
@[simp] theorem State.faultEntry_cfgHeight (s : State) (op : BitVec 6) (c : FaultCause) : (s.faultEntry op c).cfgHeight = s.cfgHeight := rfl
@[simp] theorem State.faultEntry_cfgCompressor (s : State) (op : BitVec 6) (c : FaultCause) : (s.faultEntry op c).cfgCompressor = s.cfgCompressor := rfl
@[simp] theorem State.faultEntry_payloadLen (s : State) (op : BitVec 6) (c : FaultCause) : (s.faultEntry op c).payloadLen = s.payloadLen := rfl
@[simp] theorem State.faultEntry_tileIdx (s : State) (op : BitVec 6) (c : FaultCause) : (s.faultEntry op c).tileIdx = s.tileIdx := rfl
@[simp] theorem State.faultEntry_opcPtr (s : State) (op : BitVec 6) (c : FaultCause) : (s.faultEntry op c).opcPtr = s.opcPtr := rfl
@[simp] theorem State.faultEntry_opreg (s : State) (op : BitVec 6) (c : FaultCause) : (s.faultEntry op c).opreg = s.opreg := rfl
@[simp] theorem State.faultEntry_opcnt (s : State) (op : BitVec 6) (c : FaultCause) : (s.faultEntry op c).opcnt = s.opcnt := rfl
@[simp] theorem State.faultEntry_tileX (s : State) (op : BitVec 6) (c : FaultCause) : (s.faultEntry op c).tileX = s.tileX := rfl
@[simp] theorem State.faultEntry_tileY (s : State) (op : BitVec 6) (c : FaultCause) : (s.faultEntry op c).tileY = s.tileY := rfl
@[simp] theorem State.faultEntry_tileOfs (s : State) (op : BitVec 6) (c : FaultCause) : (s.faultEntry op c).tileOfs = s.tileOfs := rfl
@[simp] theorem State.faultEntry_alnPtr (s : State) (op : BitVec 6) (c : FaultCause) : (s.faultEntry op c).alnPtr = s.alnPtr := rfl
@[simp] theorem State.faultEntry_unaPtr (s : State) (op : BitVec 6) (c : FaultCause) : (s.faultEntry op c).unaPtr = s.unaPtr := rfl
@[simp] theorem State.faultEntry_colorOffset (s : State) (op : BitVec 6) (c : FaultCause) : (s.faultEntry op c).colorOffset = s.colorOffset := rfl
@[simp] theorem State.faultEntry_bufsel (s : State) (op : BitVec 6) (c : FaultCause) : (s.faultEntry op c).bufsel = s.bufsel := rfl
@[simp] theorem State.faultEntry_lastColor (s : State) (op : BitVec 6) (c : FaultCause) : (s.faultEntry op c).lastColor = s.lastColor := rfl
@[simp] theorem State.faultEntry_nibFlag (s : State) (op : BitVec 6) (c : FaultCause) : (s.faultEntry op c).nibFlag = s.nibFlag := rfl
@[simp] theorem State.faultEntry_nibByte (s : State) (op : BitVec 6) (c : FaultCause) : (s.faultEntry op c).nibByte = s.nibByte := rfl
@[simp] theorem State.faultEntry_bank (s : State) (op : BitVec 6) (c : FaultCause) : (s.faultEntry op c).bank = s.bank := rfl
@[simp] theorem State.faultEntry_run (s : State) (op : BitVec 6) (c : FaultCause) : (s.faultEntry op c).run = .halted := rfl
@[simp] theorem State.faultEntry_flags (s : State) (op : BitVec 6) (c : FaultCause) : (s.faultEntry op c).flags = s.flags.markFault c := rfl
@[simp] theorem State.faultEntry_fault (s : State) (op : BitVec 6) (c : FaultCause) : (s.faultEntry op c).fault = s.faultRecord op c := rfl
@[simp] theorem State.faultEntry_emitLog (s : State) (op : BitVec 6) (c : FaultCause) : (s.faultEntry op c).emitLog = s.emitLog := rfl
@[simp] theorem State.faultEntry_freeTick (s : State) (op : BitVec 6) (c : FaultCause) : (s.faultEntry op c).freeTick = s.freeTick := rfl
@[simp] theorem State.faultEntry_resetCount (s : State) (op : BitVec 6) (c : FaultCause) : (s.faultEntry op c).resetCount = s.resetCount := rfl

/-! ### `State.complete` -/

@[simp] theorem State.complete_pl (s : State) : (s.complete).pl = s.pl := rfl
@[simp] theorem State.complete_fb0 (s : State) : (s.complete).fb0 = s.fb0 := rfl
@[simp] theorem State.complete_fb1 (s : State) : (s.complete).fb1 = s.fb1 := rfl
@[simp] theorem State.complete_cfgWidth (s : State) : (s.complete).cfgWidth = s.cfgWidth := rfl
@[simp] theorem State.complete_cfgHeight (s : State) : (s.complete).cfgHeight = s.cfgHeight := rfl
@[simp] theorem State.complete_cfgCompressor (s : State) : (s.complete).cfgCompressor = s.cfgCompressor := rfl
@[simp] theorem State.complete_payloadLen (s : State) : (s.complete).payloadLen = s.payloadLen := rfl
@[simp] theorem State.complete_tileIdx (s : State) : (s.complete).tileIdx = s.tileIdx := rfl
@[simp] theorem State.complete_opcPtr (s : State) : (s.complete).opcPtr = s.opcPtr := rfl
@[simp] theorem State.complete_opreg (s : State) : (s.complete).opreg = s.opreg := rfl
@[simp] theorem State.complete_opcnt (s : State) : (s.complete).opcnt = s.opcnt := rfl
@[simp] theorem State.complete_tileX (s : State) : (s.complete).tileX = s.tileX := rfl
@[simp] theorem State.complete_tileY (s : State) : (s.complete).tileY = s.tileY := rfl
@[simp] theorem State.complete_tileOfs (s : State) : (s.complete).tileOfs = s.tileOfs := rfl
@[simp] theorem State.complete_alnPtr (s : State) : (s.complete).alnPtr = s.alnPtr := rfl
@[simp] theorem State.complete_unaPtr (s : State) : (s.complete).unaPtr = s.unaPtr := rfl
@[simp] theorem State.complete_colorOffset (s : State) : (s.complete).colorOffset = s.colorOffset := rfl
@[simp] theorem State.complete_bufsel (s : State) : (s.complete).bufsel = !s.bufsel := rfl
@[simp] theorem State.complete_lastColor (s : State) : (s.complete).lastColor = s.lastColor := rfl
@[simp] theorem State.complete_nibFlag (s : State) : (s.complete).nibFlag = s.nibFlag := rfl
@[simp] theorem State.complete_nibByte (s : State) : (s.complete).nibByte = s.nibByte := rfl
@[simp] theorem State.complete_bank (s : State) : (s.complete).bank = s.bank := rfl
@[simp] theorem State.complete_run (s : State) : (s.complete).run = .idle := rfl
@[simp] theorem State.complete_flags (s : State) : (s.complete).flags = { s.flags with done := true } := rfl
@[simp] theorem State.complete_fault (s : State) : (s.complete).fault = s.fault := rfl
@[simp] theorem State.complete_emitLog (s : State) : (s.complete).emitLog = s.emitLog ++ [{ width := s.width, height := s.height, bytes := s.curBytes s.frameSize }] := rfl
@[simp] theorem State.complete_freeTick (s : State) : (s.complete).freeTick = s.freeTick := rfl
@[simp] theorem State.complete_resetCount (s : State) : (s.complete).resetCount = s.resetCount := rfl

/-! ### `State.clear` -/

@[simp] theorem State.clear_pl (s : State) : (s.clear).pl = s.pl := rfl
@[simp] theorem State.clear_fb0 (s : State) : (s.clear).fb0 = [] := rfl
@[simp] theorem State.clear_fb1 (s : State) : (s.clear).fb1 = [] := rfl
@[simp] theorem State.clear_cfgWidth (s : State) : (s.clear).cfgWidth = s.cfgWidth := rfl
@[simp] theorem State.clear_cfgHeight (s : State) : (s.clear).cfgHeight = s.cfgHeight := rfl
@[simp] theorem State.clear_cfgCompressor (s : State) : (s.clear).cfgCompressor = s.cfgCompressor := rfl
@[simp] theorem State.clear_payloadLen (s : State) : (s.clear).payloadLen = s.payloadLen := rfl
@[simp] theorem State.clear_tileIdx (s : State) : (s.clear).tileIdx = s.tileIdx := rfl
@[simp] theorem State.clear_opcPtr (s : State) : (s.clear).opcPtr = s.opcPtr := rfl
@[simp] theorem State.clear_opreg (s : State) : (s.clear).opreg = s.opreg := rfl
@[simp] theorem State.clear_opcnt (s : State) : (s.clear).opcnt = s.opcnt := rfl
@[simp] theorem State.clear_tileX (s : State) : (s.clear).tileX = s.tileX := rfl
@[simp] theorem State.clear_tileY (s : State) : (s.clear).tileY = s.tileY := rfl
@[simp] theorem State.clear_tileOfs (s : State) : (s.clear).tileOfs = s.tileOfs := rfl
@[simp] theorem State.clear_alnPtr (s : State) : (s.clear).alnPtr = s.alnPtr := rfl
@[simp] theorem State.clear_unaPtr (s : State) : (s.clear).unaPtr = s.unaPtr := rfl
@[simp] theorem State.clear_colorOffset (s : State) : (s.clear).colorOffset = s.colorOffset := rfl
@[simp] theorem State.clear_bufsel (s : State) : (s.clear).bufsel = false := rfl
@[simp] theorem State.clear_lastColor (s : State) : (s.clear).lastColor = s.lastColor := rfl
@[simp] theorem State.clear_nibFlag (s : State) : (s.clear).nibFlag = s.nibFlag := rfl
@[simp] theorem State.clear_nibByte (s : State) : (s.clear).nibByte = s.nibByte := rfl
@[simp] theorem State.clear_bank (s : State) : (s.clear).bank = s.bank := rfl
@[simp] theorem State.clear_run (s : State) : (s.clear).run = .idle := rfl
@[simp] theorem State.clear_flags (s : State) : (s.clear).flags = StatusFlags.clear := rfl
@[simp] theorem State.clear_fault (s : State) : (s.clear).fault = s.fault := rfl
@[simp] theorem State.clear_emitLog (s : State) : (s.clear).emitLog = s.emitLog := rfl
@[simp] theorem State.clear_freeTick (s : State) : (s.clear).freeTick = s.freeTick := rfl
@[simp] theorem State.clear_resetCount (s : State) : (s.clear).resetCount = s.resetCount := rfl

/-! ### `State.hostReset` -/

@[simp] theorem State.hostReset_pl (s : State) : (s.hostReset).pl = State.reset.pl := rfl
@[simp] theorem State.hostReset_fb0 (s : State) : (s.hostReset).fb0 = State.reset.fb0 := rfl
@[simp] theorem State.hostReset_fb1 (s : State) : (s.hostReset).fb1 = State.reset.fb1 := rfl
@[simp] theorem State.hostReset_cfgWidth (s : State) : (s.hostReset).cfgWidth = State.reset.cfgWidth := rfl
@[simp] theorem State.hostReset_cfgHeight (s : State) : (s.hostReset).cfgHeight = State.reset.cfgHeight := rfl
@[simp] theorem State.hostReset_cfgCompressor (s : State) : (s.hostReset).cfgCompressor = State.reset.cfgCompressor := rfl
@[simp] theorem State.hostReset_payloadLen (s : State) : (s.hostReset).payloadLen = State.reset.payloadLen := rfl
@[simp] theorem State.hostReset_tileIdx (s : State) : (s.hostReset).tileIdx = State.reset.tileIdx := rfl
@[simp] theorem State.hostReset_opcPtr (s : State) : (s.hostReset).opcPtr = State.reset.opcPtr := rfl
@[simp] theorem State.hostReset_opreg (s : State) : (s.hostReset).opreg = State.reset.opreg := rfl
@[simp] theorem State.hostReset_opcnt (s : State) : (s.hostReset).opcnt = State.reset.opcnt := rfl
@[simp] theorem State.hostReset_tileX (s : State) : (s.hostReset).tileX = State.reset.tileX := rfl
@[simp] theorem State.hostReset_tileY (s : State) : (s.hostReset).tileY = State.reset.tileY := rfl
@[simp] theorem State.hostReset_tileOfs (s : State) : (s.hostReset).tileOfs = State.reset.tileOfs := rfl
@[simp] theorem State.hostReset_alnPtr (s : State) : (s.hostReset).alnPtr = State.reset.alnPtr := rfl
@[simp] theorem State.hostReset_unaPtr (s : State) : (s.hostReset).unaPtr = State.reset.unaPtr := rfl
@[simp] theorem State.hostReset_colorOffset (s : State) : (s.hostReset).colorOffset = State.reset.colorOffset := rfl
@[simp] theorem State.hostReset_bufsel (s : State) : (s.hostReset).bufsel = State.reset.bufsel := rfl
@[simp] theorem State.hostReset_lastColor (s : State) : (s.hostReset).lastColor = State.reset.lastColor := rfl
@[simp] theorem State.hostReset_nibFlag (s : State) : (s.hostReset).nibFlag = State.reset.nibFlag := rfl
@[simp] theorem State.hostReset_nibByte (s : State) : (s.hostReset).nibByte = State.reset.nibByte := rfl
@[simp] theorem State.hostReset_bank (s : State) : (s.hostReset).bank = State.reset.bank := rfl
@[simp] theorem State.hostReset_run (s : State) : (s.hostReset).run = State.reset.run := rfl
@[simp] theorem State.hostReset_flags (s : State) : (s.hostReset).flags = State.reset.flags := rfl
@[simp] theorem State.hostReset_fault (s : State) : (s.hostReset).fault = State.reset.fault := rfl
@[simp] theorem State.hostReset_emitLog (s : State) : (s.hostReset).emitLog = State.reset.emitLog := rfl

@[simp] theorem State.hostReset_freeTick (s : State) : s.hostReset.freeTick = s.freeTick := rfl
@[simp] theorem State.hostReset_resetCount (s : State) : s.hostReset.resetCount = s.resetCount + 1 := rfl

/-! ### `advance`: fields it leaves alone in both its cases -/

@[simp] theorem State.advance_pl (s : State) : s.advance.pl = s.pl := by
  unfold State.advance; split <;> rfl
@[simp] theorem State.advance_fb0 (s : State) : s.advance.fb0 = s.fb0 := by
  unfold State.advance; split <;> rfl
@[simp] theorem State.advance_fb1 (s : State) : s.advance.fb1 = s.fb1 := by
  unfold State.advance; split <;> rfl
@[simp] theorem State.advance_cfgWidth (s : State) : s.advance.cfgWidth = s.cfgWidth := by
  unfold State.advance; split <;> rfl
@[simp] theorem State.advance_cfgHeight (s : State) : s.advance.cfgHeight = s.cfgHeight := by
  unfold State.advance; split <;> rfl
@[simp] theorem State.advance_cfgCompressor (s : State) : s.advance.cfgCompressor = s.cfgCompressor := by
  unfold State.advance; split <;> rfl
@[simp] theorem State.advance_payloadLen (s : State) : s.advance.payloadLen = s.payloadLen := by
  unfold State.advance; split <;> rfl
@[simp] theorem State.advance_opcPtr (s : State) : s.advance.opcPtr = s.opcPtr := by
  unfold State.advance; split <;> rfl
@[simp] theorem State.advance_opreg (s : State) : s.advance.opreg = s.opreg := by
  unfold State.advance; split <;> rfl
@[simp] theorem State.advance_opcnt (s : State) : s.advance.opcnt = s.opcnt := by
  unfold State.advance; split <;> rfl
@[simp] theorem State.advance_alnPtr (s : State) : s.advance.alnPtr = s.alnPtr := by
  unfold State.advance; split <;> rfl
@[simp] theorem State.advance_unaPtr (s : State) : s.advance.unaPtr = s.unaPtr := by
  unfold State.advance; split <;> rfl
@[simp] theorem State.advance_colorOffset (s : State) : s.advance.colorOffset = s.colorOffset := by
  unfold State.advance; split <;> rfl
@[simp] theorem State.advance_bufsel (s : State) : s.advance.bufsel = s.bufsel := by
  unfold State.advance; split <;> rfl
@[simp] theorem State.advance_lastColor (s : State) : s.advance.lastColor = s.lastColor := by
  unfold State.advance; split <;> rfl
@[simp] theorem State.advance_nibFlag (s : State) : s.advance.nibFlag = s.nibFlag := by
  unfold State.advance; split <;> rfl
@[simp] theorem State.advance_nibByte (s : State) : s.advance.nibByte = s.nibByte := by
  unfold State.advance; split <;> rfl
@[simp] theorem State.advance_bank (s : State) : s.advance.bank = s.bank := by
  unfold State.advance; split <;> rfl
@[simp] theorem State.advance_run (s : State) : s.advance.run = s.run := by
  unfold State.advance; split <;> rfl
@[simp] theorem State.advance_flags (s : State) : s.advance.flags = s.flags := by
  unfold State.advance; split <;> rfl
@[simp] theorem State.advance_fault (s : State) : s.advance.fault = s.fault := by
  unfold State.advance; split <;> rfl
@[simp] theorem State.advance_emitLog (s : State) : s.advance.emitLog = s.emitLog := by
  unfold State.advance; split <;> rfl
@[simp] theorem State.advance_freeTick (s : State) : s.advance.freeTick = s.freeTick := by
  unfold State.advance; split <;> rfl
@[simp] theorem State.advance_resetCount (s : State) : s.advance.resetCount = s.resetCount := by
  unfold State.advance; split <;> rfl
@[simp] theorem State.advance_tileIdx (s : State) : s.advance.tileIdx = s.tileIdx + 1 := by
  unfold State.advance; split <;> rfl

/-! ### Derived quantities -/

@[simp] theorem State.setByte_width (s : State) (sp : Space) (a : Nat) (v : Byte) : (s.setByte sp a v).width = s.width := by cases sp <;> rfl
@[simp] theorem State.setByte_height (s : State) (sp : Space) (a : Nat) (v : Byte) : (s.setByte sp a v).height = s.height := by cases sp <;> rfl
@[simp] theorem State.setByte_tiles (s : State) (sp : Space) (a : Nat) (v : Byte) : (s.setByte sp a v).tiles = s.tiles := by cases sp <;> rfl
@[simp] theorem State.setByte_tilesPerRow (s : State) (sp : Space) (a : Nat) (v : Byte) : (s.setByte sp a v).tilesPerRow = s.tilesPerRow := by cases sp <;> rfl
@[simp] theorem State.setByte_frameSize (s : State) (sp : Space) (a : Nat) (v : Byte) : (s.setByte sp a v).frameSize = s.frameSize := by cases sp <;> rfl
@[simp] theorem State.setByte_opBytes (s : State) (sp : Space) (a : Nat) (v : Byte) : (s.setByte sp a v).opBytes = s.opBytes := by cases sp <;> rfl
@[simp] theorem State.setByte_alnStart (s : State) (sp : Space) (a : Nat) (v : Byte) : (s.setByte sp a v).alnStart = s.alnStart := by cases sp <;> rfl
@[simp] theorem State.setByte_pixAddr (s : State) (sp : Space) (a : Nat) (v : Byte) (r c : Nat) : (s.setByte sp a v).pixAddr r c = s.pixAddr r c := by
  cases sp <;> rfl
@[simp] theorem State.setByte_qpixAddr (s : State) (sp : Space) (a : Nat) (v : Byte) (q r c : Nat) : (s.setByte sp a v).qpixAddr q r c = s.qpixAddr q r c := by
  cases sp <;> rfl
@[simp] theorem State.advance_width (s : State) : s.advance.width = s.width := by
  unfold State.advance; split <;> rfl
@[simp] theorem State.advance_height (s : State) : s.advance.height = s.height := by
  unfold State.advance; split <;> rfl
@[simp] theorem State.advance_tiles (s : State) : s.advance.tiles = s.tiles := by
  unfold State.advance; split <;> rfl
@[simp] theorem State.advance_tilesPerRow (s : State) : s.advance.tilesPerRow = s.tilesPerRow := by
  unfold State.advance; split <;> rfl
@[simp] theorem State.advance_frameSize (s : State) : s.advance.frameSize = s.frameSize := by
  unfold State.advance; split <;> rfl
@[simp] theorem State.advance_opBytes (s : State) : s.advance.opBytes = s.opBytes := by
  unfold State.advance; split <;> rfl
@[simp] theorem State.advance_alnStart (s : State) : s.advance.alnStart = s.alnStart := by
  unfold State.advance; split <;> rfl

end Sys2Proof.Machine
end

