-- ==== Sys2Proof/Laws/Memory.lean ====
section
/-!
SUPPORT. The laws of the byte memories: reading after writing, and that every memory operation keeps the canonical
form.
-/

namespace Sys2Proof.Machine

/-! ### Reading after writing -/

theorem Memory.find?_insert (a : Nat) (v : Byte) (m : Memory) (b : Nat) :
    (Memory.insert a v m).find? b = if b = a then some v else m.find? b := by
  induction m with
  | nil => simp [Memory.insert, Memory.find?]
  | cons e m ih =>
    obtain ⟨k, w⟩ := e
    unfold Memory.insert
    split
    · simp [Memory.find?]
    · split
      · next h => subst h; simp only [Memory.find?]; split <;> simp_all
      · simp only [Memory.find?, ih]; split <;> split <;> simp_all

theorem Memory.find?_erase (a : Nat) (m : Memory) (b : Nat) :
    (Memory.erase a m).find? b = if b = a then none else m.find? b := by
  induction m with
  | nil => simp [Memory.erase, Memory.find?]
  | cons e m ih =>
    obtain ⟨k, w⟩ := e
    unfold Memory.erase
    split
    · next h => subst h; rw [ih]; simp only [Memory.find?]; split <;> simp_all
    · simp only [Memory.find?, ih]; split <;> split <;> simp_all

/-- A byte of a frame buffer after a write: the written one is the value, every other is as before. -/
@[simp] theorem Memory.frameByte_setFrameByte (m : Memory) (a : Nat) (v : Byte) (b : Nat) :
    (m.setFrameByte a v).frameByte b = if b = a then v else m.frameByte b := by
  unfold Memory.setFrameByte Memory.frameByte
  split
  · next h => rw [Memory.find?_erase]; split <;> simp [h]
  · rw [Memory.find?_insert]; split <;> simp

@[simp] theorem Memory.frameByte_nil (a : Nat) : Memory.frameByte [] a = 0x00#8 := rfl

/-! ### Canonical form -/

theorem Memory.mem_insert {a : Nat} {v : Byte} {m : Memory} {e : Host.Cell} (h : e ∈ Memory.insert a v m) :
    e = (a, v) ∨ e ∈ m := by
  induction m with
  | nil => simpa [Memory.insert] using h
  | cons x m ih =>
    obtain ⟨k, w⟩ := x
    unfold Memory.insert at h
    split at h
    · simpa using h
    · split at h
      · rcases List.mem_cons.1 h with h | h
        · exact .inl h
        · exact .inr (List.mem_cons_of_mem _ h)
      · rcases List.mem_cons.1 h with h | h
        · exact .inr (h ▸ List.mem_cons_self)
        · rcases ih h with h | h
          · exact .inl h
          · exact .inr (List.mem_cons_of_mem _ h)

theorem Memory.mem_erase {a : Nat} {m : Memory} {e : Host.Cell} (h : e ∈ Memory.erase a m) : e ∈ m := by
  induction m with
  | nil => simp [Memory.erase] at h
  | cons x m ih =>
    obtain ⟨k, w⟩ := x
    unfold Memory.erase at h
    split at h
    · exact List.mem_cons_of_mem _ (ih h)
    · rcases List.mem_cons.1 h with h | h
      · exact h ▸ List.mem_cons_self
      · exact List.mem_cons_of_mem _ (ih h)

theorem Memory.ascending_cons {e : Host.Cell} {m : Memory} :
    Memory.Ascending (e :: m) ↔ (∀ x ∈ m, e.1 < x.1) ∧ Memory.Ascending m := by
  simp [Memory.Ascending, List.pairwise_cons]

theorem Memory.Ascending.insert {m : Memory} (h : m.Ascending) (a : Nat) (v : Byte) :
    (Memory.insert a v m).Ascending := by
  induction m with
  | nil => simp [Memory.insert, Memory.Ascending]
  | cons x m ih =>
    obtain ⟨k, w⟩ := x
    obtain ⟨hk, hm⟩ := Memory.ascending_cons.1 h
    unfold Memory.insert
    split
    · next hlt =>
      refine Memory.ascending_cons.2 ⟨fun e he => ?_, h⟩
      rcases List.mem_cons.1 he with rfl | he
      · exact hlt
      · exact Nat.lt_trans hlt (hk e he)
    · split
      · next heq => subst heq; exact Memory.ascending_cons.2 ⟨hk, hm⟩
      · refine Memory.ascending_cons.2 ⟨fun e he => ?_, ih hm⟩
        rcases Memory.mem_insert he with rfl | he
        · show k < a
          omega
        · exact hk e he

theorem Memory.Ascending.erase {m : Memory} (h : m.Ascending) (a : Nat) : (Memory.erase a m).Ascending := by
  induction m with
  | nil => exact h
  | cons x m ih =>
    obtain ⟨k, w⟩ := x
    obtain ⟨hk, hm⟩ := Memory.ascending_cons.1 h
    unfold Memory.erase
    split
    · exact ih hm
    · exact Memory.ascending_cons.2 ⟨fun e he => hk e (Memory.mem_erase he), ih hm⟩

/-- A write keeps the canonical form of a frame buffer. -/
theorem Memory.FrameWf.set {m : Memory} (h : m.FrameWf) (a : Nat) (v : Byte) : (m.setFrameByte a v).FrameWf := by
  unfold Memory.setFrameByte
  split
  · exact ⟨h.1.erase a, fun e he => h.2 e (Memory.mem_erase he)⟩
  · next hv =>
    refine ⟨h.1.insert a v, fun e he => ?_⟩
    rcases Memory.mem_insert he with rfl | he
    · exact hv
    · exact h.2 e he

theorem Memory.frameWf_nil : Memory.FrameWf [] := by simp [Memory.FrameWf, Memory.Ascending]

/-- Writing a byte of any space keeps the canonical form of all three memories. -/
theorem State.MemoryWf.setByte {s : State} (h : s.MemoryWf) (sp : Space) (a : Nat) (v : Byte) :
    (s.setByte sp a v).MemoryWf := by
  obtain ⟨hp, h0, h1⟩ := h
  cases sp with
  | pl => exact ⟨hp.insert a v, h0, h1⟩
  | cur =>
    refine ⟨hp, ?_, ?_⟩ <;> simp only [State.setByte] <;> split
    exacts [h0, h0.set a v, h1.set a v, h1]
  | prv =>
    refine ⟨hp, ?_, ?_⟩ <;> simp only [State.setByte] <;> split
    exacts [h0.set a v, h0, h1, h1.set a v]

/-- `MemWrite` keeps the canonical form. -/
theorem State.MemoryWf.memWrite {s : State} (h : s.MemoryWf) (sp : Space) (a n v : Nat) :
    (s.memWrite sp a n v).MemoryWf := by
  induction n generalizing s a v with
  | zero => exact h
  | succ n ih => exact ih (h.setByte sp a _) _ _

theorem State.memoryWf_reset : State.reset.MemoryWf :=
  ⟨by simp [State.reset, Memory.Ascending], Memory.frameWf_nil, Memory.frameWf_nil⟩

/-! ### Bytes of a space after a write -/

/-- A byte of `PL` after a write to `PL`. -/
theorem State.plByte_setByte_pl (s : State) (a : Nat) (v : Byte) (b : Nat) :
    (s.setByte .pl a v).plByte b = if b = a then v else s.plByte b := by
  simp only [State.plByte, State.setByte, Memory.find?_insert]
  split <;> simp

@[simp] theorem State.setByte_cur_plByte (s : State) (a : Nat) (v : Byte) (b : Nat) :
    (s.setByte .cur a v).plByte b = s.plByte b := rfl

@[simp] theorem State.setByte_cur_prvMem (s : State) (a : Nat) (v : Byte) : (s.setByte .cur a v).prvMem = s.prvMem := by
  simp only [State.prvMem, State.setByte]; split <;> rfl

@[simp] theorem State.setByte_cur_curMem (s : State) (a : Nat) (v : Byte) :
    (s.setByte .cur a v).curMem = s.curMem.setFrameByte a v := by
  simp only [State.curMem, State.setByte]; split <;> rfl

/-- A write to `CUR`: the written pixel is the value, every other is as before (R71). -/
@[simp] theorem State.byteAt_cur_setByte_cur (s : State) (a : Nat) (v : Byte) (b : Nat) :
    (s.setByte .cur a v).byteAt .cur b = if b = a then v else s.byteAt .cur b := by
  simp [State.byteAt]

@[simp] theorem State.byteAt_prv_setByte_cur (s : State) (a : Nat) (v : Byte) (b : Nat) :
    (s.setByte .cur a v).byteAt .prv b = s.byteAt .prv b := by
  simp [State.byteAt]

/-- One byte of `MemWrite`. -/
@[simp] theorem State.memWrite_one (s : State) (sp : Space) (a : Nat) (v : Byte) :
    s.memWrite sp a 1 v.toNat = s.setByte sp a v := by
  simp [State.memWrite]

end Sys2Proof.Machine
end

