-- ==== Sys2Proof/Laws/Tile.lean ====
section
/-!
SUPPORT. What the operations inside a step can do, said once. `Runs f s A U Q` says of the computation `f` started in
`s`: if it ends, it has read `A` aligned and `U` unaligned bytes, changed nothing but what a step may change, and `Q`
holds; if it overruns, the named stream's record did not fit. One rule for each shared operation, one for sequencing and
one for loops; an instruction is then followed by these rules and its text is not unfolded further.
-/

namespace Sys2Proof.Machine

/-! ### Reading one byte after another -/

theorem State.memRead_one (s : State) (sp : Space) (a : Nat) : s.memRead sp a 1 = (s.byteAt sp a).toNat := by
  simp [State.memRead]

theorem State.memRead_lt (s : State) (sp : Space) (a n : Nat) : s.memRead sp a n < 256 ^ n := by
  induction n generalizing a with
  | zero => simp [State.memRead]
  | succ n ih =>
    have h := ih (a + 1)
    have hb := (s.byteAt sp a).isLt
    simp only [State.memRead, Nat.pow_succ]
    omega

/-! ### Addresses of pixels -/

/-- Distinct pixels of a tile have distinct addresses when a row is at least a tile wide. -/
theorem State.pixAddr_inj {s : State} (hw : 8 ≤ s.width) {r c r' c' : Nat} (hc : c < 8) (hc' : c' < 8) :
    s.pixAddr r c = s.pixAddr r' c' ↔ r = r' ∧ c = c' := by
  constructor
  · intro h
    simp only [State.pixAddr] at h
    have hr : r = r' := by
      rcases Nat.lt_trichotomy r r' with hlt | heq | hgt
      · have : (r + 1) * s.width ≤ r' * s.width := Nat.mul_le_mul_right _ hlt
        rw [Nat.add_mul] at this; omega
      · exact heq
      · have : (r' + 1) * s.width ≤ r * s.width := Nat.mul_le_mul_right _ hgt
        rw [Nat.add_mul] at this; omega
    subst hr
    exact ⟨rfl, by omega⟩
  · rintro ⟨rfl, rfl⟩; rfl

/-- A quadrant pixel is the tile pixel R73 says it is. -/
theorem State.qpixAddr_eq (s : State) {q : Nat} (hq : q < 4) (r c : Nat) :
    s.qpixAddr q r c = s.pixAddr (4 * (q / 2) + r) (4 * (q % 2) + c) := by
  have h4 : ∀ x, (4 + x) * s.width = 4 * s.width + x * s.width := fun x => Nat.add_mul ..
  match q, hq with
  | 0, _ => simp [State.qpixAddr, State.pixAddr, State.quadOfs]
  | 1, _ => simp [State.qpixAddr, State.pixAddr, State.quadOfs]; omega
  | 2, _ => simp [State.qpixAddr, State.pixAddr, State.quadOfs, h4]; omega
  | 3, _ => simp [State.qpixAddr, State.pixAddr, State.quadOfs, h4]; omega

/-! ### `InTile` -/

/-- The fields that a base or an overlay leaves alone. -/
structure State.KeptFields (s t : State) : Prop where
  pl : t.pl = s.pl
  cfgWidth : t.cfgWidth = s.cfgWidth
  cfgHeight : t.cfgHeight = s.cfgHeight
  cfgCompressor : t.cfgCompressor = s.cfgCompressor
  payloadLen : t.payloadLen = s.payloadLen
  tileIdx : t.tileIdx = s.tileIdx
  opcPtr : t.opcPtr = s.opcPtr
  opreg : t.opreg = s.opreg
  opcnt : t.opcnt = s.opcnt
  tileX : t.tileX = s.tileX
  tileY : t.tileY = s.tileY
  tileOfs : t.tileOfs = s.tileOfs
  colorOffset : t.colorOffset = s.colorOffset
  bufsel : t.bufsel = s.bufsel
  run : t.run = s.run
  fault : t.fault = s.fault
  emitLog : t.emitLog = s.emitLog
  freeTick : t.freeTick = s.freeTick
  resetCount : t.resetCount = s.resetCount
  done : t.flags.done = s.flags.done
  errOverrun : t.flags.errOverrun = s.flags.errOverrun
  errConfig : t.flags.errConfig = s.flags.errConfig
  degraded : t.flags.degraded = s.flags.degraded
  refOob : s.flags.refOob = true → t.flags.refOob = true

theorem State.InTile.kept {s t : State} (h : s.InTile t) : s.KeptFields t := by
  obtain ⟨h, -, -, ho⟩ := h
  constructor <;> first | exact ho | rw [h]

theorem State.KeptFields.inTile {s t : State} (h : s.KeptFields t) (hp : t.prvMem = s.prvMem)
    (ho : ∀ a, s.OutsideTile a → t.byteAt .cur a = s.byteAt .cur a) : s.InTile t := by
  refine ⟨?_, hp, ho, h.refOob⟩
  obtain ⟨h1, h2, h3, h4, h5, h6, h7, h8, h9, h10, h11, h12, h13, h14, h15, h16, h17, h18, h19, h20, h21, h22, h23, -⟩ := h
  rcases t with ⟨⟩
  rename_i flags _ _ _ _
  rcases flags with ⟨⟩
  simp_all

theorem State.InTile.width {s t : State} (h : s.InTile t) : t.width = s.width := by
  simp [State.width, h.kept.cfgWidth]

theorem State.InTile.frameSize {s t : State} (h : s.InTile t) : t.frameSize = s.frameSize := by
  simp [State.frameSize, State.width, State.height, h.kept.cfgWidth, h.kept.cfgHeight]

theorem State.InTile.pixAddr {s t : State} (h : s.InTile t) (r c : Nat) : t.pixAddr r c = s.pixAddr r c := by
  simp [State.pixAddr, h.width, h.kept.tileOfs]

theorem State.InTile.qpixAddr {s t : State} (h : s.InTile t) (q r c : Nat) : t.qpixAddr q r c = s.qpixAddr q r c := by
  have hq : t.quadOfs q = s.quadOfs q := by unfold State.quadOfs; rw [h.width]
  simp [State.qpixAddr, h.width, h.kept.tileOfs, hq]

theorem State.InTile.plByte {s t : State} (h : s.InTile t) (a : Nat) : t.plByte a = s.plByte a := by
  simp [State.plByte, h.kept.pl, h.kept.resetCount]

theorem State.InTile.memRead_pl {s t : State} (h : s.InTile t) (a n : Nat) : t.memRead .pl a n = s.memRead .pl a n := by
  induction n generalizing a with
  | zero => rfl
  | succ n ih => simp [State.memRead, State.byteAt, h.plByte, ih]

theorem State.InTile.prevByte {s t : State} (h : s.InTile t) (a : Int) : t.prevByte a = s.prevByte a := by
  simp [State.prevByte, State.InFrame, State.byteAt, h.frameSize, h.2.1]

theorem State.InTile.fits {s t : State} (h : s.InTile t) (p : Ptr) (n : Nat) : t.Fits p n ↔ s.Fits p n := by
  simp [State.Fits, h.kept.payloadLen]

theorem State.InTile.refl (s : State) : s.InTile s := ⟨rfl, rfl, fun _ _ => rfl, id⟩

theorem State.InTile.trans {s t u : State} (h : s.InTile t) (g : t.InTile u) : s.InTile u := by
  refine State.KeptFields.inTile ?_ (g.2.1.trans h.2.1) fun a ha => ?_
  · constructor
    exacts [g.kept.pl.trans h.kept.pl, g.kept.cfgWidth.trans h.kept.cfgWidth, g.kept.cfgHeight.trans h.kept.cfgHeight,
      g.kept.cfgCompressor.trans h.kept.cfgCompressor, g.kept.payloadLen.trans h.kept.payloadLen,
      g.kept.tileIdx.trans h.kept.tileIdx, g.kept.opcPtr.trans h.kept.opcPtr, g.kept.opreg.trans h.kept.opreg,
      g.kept.opcnt.trans h.kept.opcnt, g.kept.tileX.trans h.kept.tileX, g.kept.tileY.trans h.kept.tileY,
      g.kept.tileOfs.trans h.kept.tileOfs, g.kept.colorOffset.trans h.kept.colorOffset,
      g.kept.bufsel.trans h.kept.bufsel, g.kept.run.trans h.kept.run, g.kept.fault.trans h.kept.fault,
      g.kept.emitLog.trans h.kept.emitLog, g.kept.freeTick.trans h.kept.freeTick,
      g.kept.resetCount.trans h.kept.resetCount, g.kept.done.trans h.kept.done,
      g.kept.errOverrun.trans h.kept.errOverrun, g.kept.errConfig.trans h.kept.errConfig,
      g.kept.degraded.trans h.kept.degraded, fun x => g.kept.refOob (h.kept.refOob x)]
  · rw [g.2.2.1 a fun r c hr hc => by rw [h.pixAddr]; exact ha r c hr hc, h.2.2.1 a ha]

/-- A pixel write stays in the tile. -/
theorem State.InTile.setByte (s : State) {r c : Nat} (hr : r < 8) (hc : c < 8) (v : Byte) :
    s.InTile (s.setByte .cur (s.pixAddr r c) v) := by
  refine State.KeptFields.inTile (by constructor <;> first | rfl | exact id) (by simp) fun a ha => ?_
  rw [State.byteAt_cur_setByte_cur, if_neg (ha r c hr hc)]

theorem State.InTile.setRefOob (s : State) : s.InTile s.setRefOob :=
  State.KeptFields.inTile (by constructor <;> first | rfl | exact id | exact fun _ => rfl) rfl fun _ _ => rfl

/-! ### The judgement -/

/-- `t` has read `a` of at most `A` aligned and `u` of at most `U` unaligned bytes, all inside the payload. -/
def State.ReadSome (s t : State) (A U : Nat) : Prop :=
  ∃ a u, a ≤ A ∧ u ≤ U ∧ s.Fits s.alnPtr a ∧ s.Fits s.unaPtr u
    ∧ t.alnPtr = s.alnPtr + BitVec.ofNat 32 a ∧ t.unaPtr = s.unaPtr + BitVec.ofNat 32 u

/-- What can come of running `f` in `s`; see the head of this file. It is a structure so that a statement about a
computation does not run it when it is elaborated. -/
structure Runs {α : Type} (f : Exec α) (s : State) (A U : Nat) (Q : α → State → Prop) : Prop where
  /-- What the outcome of `f` is like. -/
  came : match f s with
  | .ok v t =>
    s.InTile t ∧ (s.MemoryWf → t.MemoryWf) ∧ s.Fits s.alnPtr A ∧ s.Fits s.unaPtr U
      ∧ t.alnPtr = s.alnPtr + BitVec.ofNat 32 A ∧ t.unaPtr = s.unaPtr + BitVec.ofNat 32 U ∧ Q v t
  | .error e t =>
    s.InTile t ∧ (s.MemoryWf → t.MemoryWf) ∧ s.ReadSome t A U
      ∧ ((e.stream = .aligned ∧ e.addr = t.alnPtr.toNat ∧ ¬ s.Fits s.alnPtr A)
        ∨ (e.stream = .unaligned ∧ e.addr = t.unaPtr.toNat ∧ ¬ s.Fits s.unaPtr U))

theorem State.toNat_advance {s : State} {p : Ptr} {n : Nat} (h : s.Fits p n) :
    (p + BitVec.ofNat 32 n).toNat = p.toNat + n := by
  rcases h with rfl | h
  · simp
  · have := s.payloadLen.isLt
    simp only [BitVec.toNat_add, BitVec.toNat_ofNat]
    omega

theorem State.fits_add {s : State} {p : Ptr} {m n : Nat} (h : s.Fits p m) :
    s.Fits p (m + n) ↔ s.Fits (p + BitVec.ofNat 32 m) n := by
  have e := State.toNat_advance h
  unfold State.Fits at h ⊢
  rw [e]
  omega

theorem State.Fits.mono {s : State} {p : Ptr} {m n : Nat} (h : s.Fits p (m + n)) : s.Fits p m := by
  unfold State.Fits at *; omega

theorem State.ReadSome.none (s : State) (A U : Nat) : s.ReadSome s A U :=
  ⟨0, 0, Nat.zero_le _, Nat.zero_le _, .inl rfl, .inl rfl, by simp, by simp⟩

theorem State.ReadSome.mono {s t : State} {A U A' U' : Nat} (h : s.ReadSome t A U) (ha : A ≤ A') (hu : U ≤ U') :
    s.ReadSome t A' U' := by
  obtain ⟨a, u, h1, h2, h3⟩ := h
  exact ⟨a, u, h1.trans ha, h2.trans hu, h3⟩

theorem Runs.weaken {α : Type} {f : Exec α} {s : State} {A U : Nat} {Q Q' : α → State → Prop} (h : Runs f s A U Q)
    (hQ : ∀ v t, s.InTile t → Q v t → Q' v t) : Runs f s A U Q' := by
  refine ⟨?_⟩
  have h := h.came
  split at h
  · obtain ⟨h1, h2, h3, h4, h5, h6, h7⟩ := h
    exact ⟨h1, h2, h3, h4, h5, h6, hQ _ _ h1 h7⟩
  · exact h

theorem Runs.pure {α : Type} {s : State} {Q : α → State → Prop} (v : α) (h : Q v s) : Runs (pure v) s 0 0 Q := by
  refine ⟨show _ ∧ _ from ?_⟩
  simp [State.InTile.refl, h, State.Fits]

/-- Sequencing: the records add up. -/
theorem Runs.bind {α β : Type} {f : Exec α} {g : α → Exec β} {s : State} {A U A' U' : Nat} {Q : α → State → Prop}
    {R : β → State → Prop} (hf : Runs f s A U Q)
    (hg : ∀ v t, s.InTile t → t.alnPtr = s.alnPtr + BitVec.ofNat 32 A → t.unaPtr = s.unaPtr + BitVec.ofNat 32 U →
      s.Fits s.alnPtr A → s.Fits s.unaPtr U → Q v t → Runs (g v) t A' U' R) :
    Runs (f >>= g) s (A + A') (U + U') R := by
  have e : (f >>= g) s = EStateM.bind f g s := rfl
  refine ⟨?_⟩
  have hf := hf.came
  rw [e, EStateM.bind]
  cases hr : f s with
  | error x t =>
    rw [hr] at hf
    obtain ⟨h1, h2, hs, h3⟩ := hf
    refine ⟨h1, h2, hs.mono (Nat.le_add_right ..) (Nat.le_add_right ..), ?_⟩
    rcases h3 with ⟨a, b, c⟩ | ⟨a, b, c⟩
    · exact .inl ⟨a, b, fun h => c h.mono⟩
    · exact .inr ⟨a, b, fun h => c h.mono⟩
  | ok v t =>
    rw [hr] at hf
    obtain ⟨h1, h2, fa, fu, ha, hu, hq⟩ := hf
    have hg := (hg v t h1 ha hu fa fu hq).came
    simp only
    cases hr' : g v t with
    | error x u =>
      rw [hr'] at hg
      obtain ⟨g1, g2, gs, g3⟩ := hg
      refine ⟨h1.trans g1, fun h => g2 (h2 h), ?_, ?_⟩
      · obtain ⟨a, u, la, lu, pa, pu, qa, qu⟩ := gs
        rw [ha, h1.fits, ← State.fits_add fa] at pa
        rw [hu, h1.fits, ← State.fits_add fu] at pu
        refine ⟨A + a, U + u, by omega, by omega, pa, pu, ?_, ?_⟩
        · rw [qa, ha, BitVec.add_assoc, ← BitVec.ofNat_add]
        · rw [qu, hu, BitVec.add_assoc, ← BitVec.ofNat_add]
      rw [ha, hu, h1.fits, h1.fits, ← State.fits_add fa, ← State.fits_add fu] at g3
      exact g3
    | ok w u =>
      rw [hr'] at hg
      obtain ⟨g1, g2, ga, gu, gpa, gpu, gq⟩ := hg
      rw [ha, h1.fits, ← State.fits_add fa] at ga
      rw [hu, h1.fits, ← State.fits_add fu] at gu
      refine ⟨h1.trans g1, fun h => g2 (h2 h), ga, gu, ?_, ?_, gq⟩
      · rw [gpa, ha, BitVec.add_assoc, ← BitVec.ofNat_add]
      · rw [gpu, hu, BitVec.add_assoc, ← BitVec.ofNat_add]

/-- A loop: `Q i` holds after `i` rounds, which have read `A i` and `U i` bytes. -/
theorem Runs.loop {n : Nat} {f : Nat → Exec Unit} {s : State} (A U : Nat → Nat) (Q : Nat → State → Prop)
    (hA : A 0 = 0) (hU : U 0 = 0) (hmA : ∀ i, A i ≤ A (i + 1)) (hmU : ∀ i, U i ≤ U (i + 1)) (h0 : Q 0 s)
    (hstep : ∀ i t, i < n → s.InTile t → t.alnPtr = s.alnPtr + BitVec.ofNat 32 (A i) →
      t.unaPtr = s.unaPtr + BitVec.ofNat 32 (U i) → s.Fits s.alnPtr (A i) → s.Fits s.unaPtr (U i) → Q i t →
      Runs (f i) t (A (i + 1) - A i) (U (i + 1) - U i) fun _ t' => Q (i + 1) t') :
    Runs (forUpTo n f) s (A n) (U n) fun _ t => Q n t := by
  induction n with
  | zero => rw [hA, hU]; exact Runs.pure () h0
  | succ n ih =>
    have h := Runs.bind (g := fun _ => f n) (ih fun i t hi => hstep i t (Nat.lt_succ_of_lt hi))
      fun _ t h1 ha hu fa fu hq => hstep n t (Nat.lt_succ_self n) h1 ha hu fa fu hq
    rw [Nat.add_sub_cancel' (hmA n), Nat.add_sub_cancel' (hmU n)] at h
    exact h

/-! ### Reading the streams -/

theorem plRead_ok {s : State} {a n : Nat} {id : StreamId} (h : a + n ≤ s.payloadLen.toNat) :
    plRead a n id s = .ok (s.memRead .pl a n) s := by
  unfold plRead; rw [if_neg (by omega)]

theorem plRead_overrun {s : State} {a n : Nat} {id : StreamId} (h : s.payloadLen.toNat < a + n) :
    plRead a n id s = .error { stream := id, addr := a } s := by
  unfold plRead; rw [if_pos h]

/-- Moving a stream pointer stays in the tile. -/
theorem State.InTile.setPointers (s : State) (a u : Ptr) : s.InTile { s with alnPtr := a, unaPtr := u } :=
  State.KeptFields.inTile (by constructor <;> first | rfl | exact id) rfl fun _ _ => rfl

theorem State.not_fits {s : State} {p : Ptr} {n : Nat} (hn : n ≠ 0) (h : s.payloadLen.toNat < p.toNat + n) :
    ¬ s.Fits p n := by
  unfold State.Fits; omega

/-- An aligned read of `n` bytes: its value is the little-endian value at `ALN_PTR` (R67). -/
theorem runs_alignedRead (s : State) {n : Nat} (hn : n ≠ 0) :
    Runs (alignedRead n) s n 0 fun v t => v = s.memRead .pl s.alnPtr.toNat n
      ∧ t = { s with alnPtr := s.alnPtr + BitVec.ofNat 32 n } := by
  have e : alignedRead n s = EStateM.bind (plRead s.alnPtr.toNat n .aligned)
      (fun v => EStateM.bind (modify fun t => { t with alnPtr := t.alnPtr + BitVec.ofNat 32 n }) fun _ => pure v) s := rfl
  refine ⟨?_⟩
  rw [e, EStateM.bind]
  by_cases h : s.alnPtr.toNat + n ≤ s.payloadLen.toNat
  · rw [plRead_ok h]
    exact ⟨State.InTile.setPointers s _ s.unaPtr, id, .inr h, .inl rfl, rfl, by simp, rfl, rfl⟩
  · rw [plRead_overrun (by omega)]
    exact ⟨.refl s, id, .none s _ _, .inl ⟨rfl, rfl, State.not_fits hn (by omega)⟩⟩

/-- An unaligned read of `n` bytes: its value is the little-endian value at `UNA_PTR` (R68). -/
theorem runs_unalignedRead (s : State) {n : Nat} (hn : n ≠ 0) :
    Runs (unalignedRead n) s 0 n fun v t => v = s.memRead .pl s.unaPtr.toNat n
      ∧ t = { s with unaPtr := s.unaPtr + BitVec.ofNat 32 n } := by
  have e : unalignedRead n s = EStateM.bind (plRead s.unaPtr.toNat n .unaligned)
      (fun v => EStateM.bind (modify fun t => { t with unaPtr := t.unaPtr + BitVec.ofNat 32 n }) fun _ => pure v) s := rfl
  refine ⟨?_⟩
  rw [e, EStateM.bind]
  by_cases h : s.unaPtr.toNat + n ≤ s.payloadLen.toNat
  · rw [plRead_ok h]
    exact ⟨State.InTile.setPointers s s.alnPtr _, id, .inl rfl, .inr h, by simp, rfl, rfl, rfl⟩
  · rw [plRead_overrun (by omega)]
    exact ⟨.refl s, id, .none s _ _, .inr ⟨rfl, rfl, State.not_fits hn (by omega)⟩⟩

/-- A computation followed by a function of its value. -/
theorem Runs.map {α β : Type} {f : Exec α} {s : State} {A U : Nat} {Q : α → State → Prop} (k : α → β)
    {R : β → State → Prop} (h : Runs f s A U Q) (hR : ∀ v t, Q v t → R (k v) t) :
    Runs (f >>= fun v => Pure.pure (k v)) s A U R := by
  have := Runs.bind (A' := 0) (U' := 0) h fun v t _ _ _ _ _ hq => Runs.pure (k v) (hR v t hq)
  simpa using this

/-- `A8()` gives the byte at `ALN_PTR`. -/
theorem runs_a8 (s : State) : Runs a8 s 1 0 fun v t => v = s.plByte s.alnPtr.toNat
    ∧ t = { s with alnPtr := s.alnPtr + 1 } :=
  (runs_alignedRead s (by decide)).map _ fun v t h => by
    rw [h.1, State.memRead_one]
    exact ⟨by simp [State.byteAt], h.2⟩

/-- `U8()` gives the byte at `UNA_PTR`. -/
theorem runs_u8 (s : State) : Runs u8 s 0 1 fun v t => v = s.plByte s.unaPtr.toNat
    ∧ t = { s with unaPtr := s.unaPtr + 1 } :=
  (runs_unalignedRead s (by decide)).map _ fun v t h => by
    rw [h.1, State.memRead_one]
    exact ⟨by simp [State.byteAt], h.2⟩

/-- `A16()`. -/
theorem runs_a16 (s : State) : Runs a16 s 2 0 fun v t => v = BitVec.ofNat 16 (s.memRead .pl s.alnPtr.toNat 2)
    ∧ t = { s with alnPtr := s.alnPtr + 2 } :=
  (runs_alignedRead s (by decide)).map _ fun _ _ h => ⟨by rw [h.1], h.2⟩

/-- `A24()`. -/
theorem runs_a24 (s : State) : Runs a24 s 3 0 fun v t => v = BitVec.ofNat 24 (s.memRead .pl s.alnPtr.toNat 3)
    ∧ t = { s with alnPtr := s.alnPtr + 3 } :=
  (runs_alignedRead s (by decide)).map _ fun _ _ h => ⟨by rw [h.1], h.2⟩

/-- `A32()`. -/
theorem runs_a32 (s : State) : Runs a32 s 4 0 fun v t => v = BitVec.ofNat 32 (s.memRead .pl s.alnPtr.toNat 4)
    ∧ t = { s with alnPtr := s.alnPtr + 4 } :=
  (runs_alignedRead s (by decide)).map _ fun _ _ h => ⟨by rw [h.1], h.2⟩

/-- `A40()`. -/
theorem runs_a40 (s : State) : Runs a40 s 5 0 fun v t => v = BitVec.ofNat 40 (s.memRead .pl s.alnPtr.toNat 5)
    ∧ t = { s with alnPtr := s.alnPtr + 5 } :=
  (runs_alignedRead s (by decide)).map _ fun _ _ h => ⟨by rw [h.1], h.2⟩

/-- `U16()`. -/
theorem runs_u16 (s : State) : Runs u16 s 0 2 fun v t => v = BitVec.ofNat 16 (s.memRead .pl s.unaPtr.toNat 2)
    ∧ t = { s with unaPtr := s.unaPtr + 2 } :=
  (runs_unalignedRead s (by decide)).map _ fun _ _ h => ⟨by rw [h.1], h.2⟩

/-- `U24()`. -/
theorem runs_u24 (s : State) : Runs u24 s 0 3 fun v t => v = BitVec.ofNat 24 (s.memRead .pl s.unaPtr.toNat 3)
    ∧ t = { s with unaPtr := s.unaPtr + 3 } :=
  (runs_unalignedRead s (by decide)).map _ fun _ _ h => ⟨by rw [h.1], h.2⟩

/-! ### Plain updates -/

/-- Reading the state. -/
theorem runs_get (s : State) : Runs (get : Exec State) s 0 0 fun v t => v = s ∧ t = s :=
  ⟨show _ ∧ _ from ⟨.refl s, id, .inl rfl, .inl rfl, by simp, by simp, rfl, rfl⟩⟩

/-- An update that stays in the tile and leaves the pointers alone. -/
theorem runs_modify (s : State) (f : State → State) (h : s.InTile (f s)) (hm : s.MemoryWf → (f s).MemoryWf)
    (ha : (f s).alnPtr = s.alnPtr) (hu : (f s).unaPtr = s.unaPtr) :
    Runs (modify f : Exec Unit) s 0 0 fun _ t => t = f s :=
  ⟨show _ ∧ _ from ⟨h, hm, .inl rfl, .inl rfl, by simpa using ha, by simpa using hu, rfl⟩⟩

/-- Updating the primitive-local registers stays in the tile. -/
theorem State.InTile.setLocals (s : State) (l b k : Byte) (f : Bool) :
    s.InTile { s with lastColor := l, nibFlag := f, nibByte := b, bank := k } :=
  State.KeptFields.inTile (by constructor <;> first | rfl | exact id) rfl fun _ _ => rfl

/-- `Pix(r, c) <- v` (R72). -/
theorem runs_pix (s : State) {r c : Nat} (hr : r < 8) (hc : c < 8) (v : Byte) :
    Runs (pix r c v) s 0 0 fun _ t => t = s.setByte .cur (s.pixAddr r c) v := by
  refine (runs_modify s _ ?_ ?_ ?_ ?_).weaken fun _ t _ h => by rw [h, State.memWrite_one]
  · simpa using State.InTile.setByte s hr hc v
  · intro h; exact h.memWrite _ _ _ _
  · simp
  · simp

/-- `QPix(q, r, c) <- v` is `Pix` at the place R73 says. -/
theorem runs_qpix (s : State) {q r c : Nat} (hq : q < 4) (hr : r < 4) (hc : c < 4) (v : Byte) :
    Runs (qpix q r c v) s 0 0 fun _ t =>
      t = s.setByte .cur (s.pixAddr (4 * (q / 2) + r) (4 * (q % 2) + c)) v := by
  have h := runs_pix s (r := 4 * (q / 2) + r) (c := 4 * (q % 2) + c) (by omega) (by omega) v
  unfold qpix
  unfold pix at h
  have e : (modify fun s => s.memWrite .cur (s.qpixAddr q r c) 1 v.toNat : Exec Unit)
      = modify fun s => s.memWrite .cur (s.pixAddr (4 * (q / 2) + r) (4 * (q % 2) + c)) 1 v.toNat := by
    congr 1; funext s; rw [State.qpixAddr_eq s hq]
  rw [e]; exact h

/-- `Prev(a)` (R74): the value, and `REF_OOB` when `a` is outside the frame. -/
theorem runs_prev (s : State) (a : Int) :
    Runs (prev a) s 0 0 fun v t => v = s.prevByte a ∧ t = if s.InFrame a then s else s.setRefOob := by
  refine ⟨show _ ∧ _ from ?_⟩
  refine ⟨?_, ?_, .inl rfl, .inl rfl, ?_, ?_, rfl, rfl⟩ <;> split
  exacts [.refl s, .setRefOob s, id, id, by simp, by simp, by simp, by simp]

/-! ### Pixels painted -/

/-- The tile of `t` is the tile of `s` painted with `px`: where `px` gives a value the pixel has it, and every other
pixel is as it was. -/
def State.Painted (s t : State) (px : Nat → Nat → Option Byte) : Prop :=
  ∀ r c, r < 8 → c < 8 →
    t.byteAt .cur (s.pixAddr r c) = (px r c).getD (s.byteAt .cur (s.pixAddr r c))

theorem State.Painted.none (s : State) : s.Painted s fun _ _ => .none := fun _ _ _ _ => rfl

theorem State.Painted.congr {s t : State} {px px' : Nat → Nat → Option Byte} (h : s.Painted t px)
    (e : ∀ r c, r < 8 → c < 8 → px' r c = px r c) : s.Painted t px' := fun r c hr hc => by
  rw [e r c hr hc]; exact h r c hr hc

/-- A change of registers paints nothing. -/
theorem State.Painted.mono {s t u : State} {px : Nat → Nat → Option Byte} (h : s.Painted t px)
    (e : ∀ a, u.byteAt .cur a = t.byteAt .cur a) : s.Painted u px := fun r c hr hc => by
  rw [e]; exact h r c hr hc

/-- One more pixel. -/
theorem State.Painted.set {s t : State} {px : Nat → Nat → Option Byte} (h : s.Painted t px) (hw : 8 ≤ s.width)
    (ht : s.InTile t) {r0 c0 : Nat} (hc0 : c0 < 8) (v : Byte) :
    s.Painted (t.setByte .cur (t.pixAddr r0 c0) v) fun r c => if r = r0 ∧ c = c0 then some v else px r c := by
  intro r c hr hc
  rw [State.byteAt_cur_setByte_cur, ht.pixAddr]
  beta_reduce
  by_cases e : r = r0 ∧ c = c0
  · rw [if_pos ((State.pixAddr_inj hw hc hc0).2 e), if_pos e]; rfl
  · rw [if_neg (fun x => e ((State.pixAddr_inj hw hc hc0).1 x)), if_neg e]; exact h r c hr hc

/-! ### From a body to `exec` -/

/-- What the instruction part of a step can answer (R134, R321): its body ended, or its overrun was taken. -/
theorem runTile_cases (i : Instr) (body : Exec Unit) (s : State) :
    (∃ t, body s = .ok () t ∧ runTile i body s = .next t)
      ∨ ∃ e t, body s = .error e t ∧ runTile i body s = .next (t.overrunInStep i.opcode e) := by
  unfold runTile
  cases h : body s with
  | ok v t => exact .inl ⟨t, rfl, rfl⟩
  | error e t => exact .inr ⟨e, t, rfl, rfl⟩

/-- A body whose records fit runs to its end. -/
theorem Runs.completes {i : Instr} {body : Exec Unit} {s : State} {A U : Nat} {Q : Unit → State → Prop}
    (h : Runs body s A U Q) (ha : s.Fits s.alnPtr A) (hu : s.Fits s.unaPtr U) :
    ∃ t, runTile i body s = .next t ∧ s.InTile t ∧ t.alnPtr = s.alnPtr + BitVec.ofNat 32 A
      ∧ t.unaPtr = s.unaPtr + BitVec.ofNat 32 U ∧ Q () t := by
  have h := h.came
  unfold runTile
  cases hr : body s with
  | ok v t => rw [hr] at h; exact ⟨t, rfl, h.1, h.2.2.2.2.1, h.2.2.2.2.2.1, h.2.2.2.2.2.2⟩
  | error e t => rw [hr] at h; rcases h.2.2.2 with ⟨-, -, h⟩ | ⟨-, -, h⟩ <;> exact absurd ‹_› h

/-- A body one of whose records does not fit overruns, in the stream of a record that does not fit. -/
theorem Runs.overruns {i : Instr} {body : Exec Unit} {s : State} {A U : Nat} {Q : Unit → State → Prop}
    (h : Runs body s A U Q) (hf : ¬ (s.Fits s.alnPtr A ∧ s.Fits s.unaPtr U)) :
    ∃ e t, runTile i body s = .next (t.overrunInStep i.opcode e) ∧ s.InTile t ∧ s.ReadSome t A U
      ∧ ((e.stream = .aligned ∧ e.addr = t.alnPtr.toNat ∧ ¬ s.Fits s.alnPtr A)
        ∨ (e.stream = .unaligned ∧ e.addr = t.unaPtr.toNat ∧ ¬ s.Fits s.unaPtr U)) := by
  have h := h.came
  unfold runTile
  cases hr : body s with
  | ok v t => rw [hr] at h; exact absurd ⟨h.2.2.1, h.2.2.2.1⟩ hf
  | error e t => rw [hr] at h; exact ⟨e, t, rfl, h.1, h.2.2.1, h.2.2.2⟩

end Sys2Proof.Machine
end

