-- ==== Sys2Proof/Laws/Sequencer.lean ====
section
/-!
SUPPORT. What the sequencer's operations, taking an overrun and the host's operations can do, said once, so that
nothing else unfolds them.
-/

namespace Sys2Proof.Machine

/-! ### Taking an overrun -/

/-- Writing free bytes over the pixels of the tile at `s`'s place, from a state in the same tile. -/
theorem State.foldPixels (s : State) (v : Nat → Byte) (l : List Nat) (hl : ∀ k ∈ l, k < 64) (t : State)
    (h : s.InTile t) (hm : s.MemoryWf → t.MemoryWf) :
    let u := l.foldl (fun t k => t.setByte .cur (s.pixAddr (k / 8) (k % 8)) (v k)) t
    s.InTile u ∧ (s.MemoryWf → u.MemoryWf) ∧ u.alnPtr = t.alnPtr ∧ u.unaPtr = t.unaPtr ∧ u.flags = t.flags := by
  induction l generalizing t with
  | nil => exact ⟨h, hm, rfl, rfl, rfl⟩
  | cons k l ih =>
    have hk := hl k (by simp)
    have hs : s.InTile (t.setByte .cur (s.pixAddr (k / 8) (k % 8)) (v k)) := by
      have := State.InTile.setByte t (r := k / 8) (c := k % 8) (by omega) (by omega) (v k)
      rw [h.pixAddr] at this
      exact h.trans this
    obtain ⟨h1, h2, h3, h4, h5⟩ := ih (fun j hj => hl j (by simp [hj])) _ hs fun x => (hm x).setByte _ _ _
    exact ⟨h1, h2, by simpa using h3, by simpa using h4, by simpa using h5⟩

/-- The free pixels of a faulting tile: nothing else in the tile, the memories or the registers differs but the model's
counter. -/
theorem State.freeTile_spec (s : State) :
    ∃ u, s.InTile u ∧ (s.MemoryWf → u.MemoryWf) ∧ u.alnPtr = s.alnPtr ∧ u.unaPtr = s.unaPtr ∧ u.flags = s.flags
      ∧ s.freeTile = { u with freeTick := s.freeTick + 64 } :=
  ⟨_, (s.foldPixels (fun k => Config.faultPixel (s.freeTick + k)) (List.range 64) (by simp) s (.refl s) id).1,
    (s.foldPixels (fun k => Config.faultPixel (s.freeTick + k)) (List.range 64) (by simp) s (.refl s) id).2.1,
    (s.foldPixels (fun k => Config.faultPixel (s.freeTick + k)) (List.range 64) (by simp) s (.refl s) id).2.2.1,
    (s.foldPixels (fun k => Config.faultPixel (s.freeTick + k)) (List.range 64) (by simp) s (.refl s) id).2.2.2.1,
    (s.foldPixels (fun k => Config.faultPixel (s.freeTick + k)) (List.range 64) (by simp) s (.refl s) id).2.2.2.2, rfl⟩

/-- An overrun taken inside a step: `u` is the state before fault entry, with free pixels. -/
theorem State.overrunInStep_spec (s : State) (op : BitVec 6) (e : Overrun) :
    ∃ u, s.InTile u ∧ (s.MemoryWf → u.MemoryWf) ∧ u.alnPtr = s.alnPtr ∧ u.unaPtr = s.unaPtr ∧ u.flags = s.flags
      ∧ s.overrunInStep op e = { u with
          freeTick := s.freeTick + 64, run := .halted, flags := { s.flags with errOverrun := true }
          fault := { kind := 1, tile := s.tileIdx, opcode := op, stream := e.stream.code
                     addr := BitVec.ofNat 32 e.addr } } := by
  obtain ⟨u, h1, h2, h3, h4, h5, h6⟩ := s.freeTile_spec
  refine ⟨u, h1, h2, h3, h4, h5, ?_⟩
  unfold State.overrunInStep
  rw [h6]
  unfold State.faultEntry State.faultRecord StatusFlags.markFault
  simp [h5, h1.kept.tileIdx, FaultCause.code]

@[simp] theorem State.overrunInStep_run (s : State) (op : BitVec 6) (e : Overrun) :
    (s.overrunInStep op e).run = .halted := rfl

/-! ### Fetch -/

/-- What a fetch can do (R133): take the next opcode of `OPREG`, refilled first when it is exhausted, or overrun in the
refill with nothing changed. -/
theorem fetch_cases (s : State) :
    (s.opcnt ≠ 0 ∧ fetch s = .ok (s.opreg.setWidth 6) { s with opreg := s.opreg >>> 6, opcnt := s.opcnt - 1 })
    ∨ (s.opcnt = 0 ∧ ∃ v : BitVec 24,
        v = BitVec.ofNat 24 (s.memRead .pl s.opcPtr.toNat (min 3 (4 + s.opBytes - s.opcPtr.toNat)))
        ∧ s.opcPtr.toNat + min 3 (4 + s.opBytes - s.opcPtr.toNat) ≤ s.payloadLen.toNat
        ∧ fetch s = .ok (v.setWidth 6) { s with opreg := v >>> 6, opcPtr := s.opcPtr + 3, opcnt := 3 })
    ∨ (s.opcnt = 0 ∧ s.payloadLen.toNat < s.opcPtr.toNat + min 3 (4 + s.opBytes - s.opcPtr.toNat)
        ∧ fetch s = .error { stream := .opcode, addr := s.opcPtr.toNat } s) := by
  by_cases h : s.opcnt = 0
  · right
    by_cases hp : s.opcPtr.toNat + min 3 (4 + s.opBytes - s.opcPtr.toNat) ≤ s.payloadLen.toNat
    · refine .inl ⟨h, _, rfl, hp, ?_⟩
      unfold fetch
      simp only [bind, EStateM.bind, get, getThe, MonadStateOf.get, EStateM.get, modify, modifyGet,
        MonadStateOf.modifyGet, EStateM.modifyGet, set, EStateM.set, pure, EStateM.pure, h, if_true, plRead_ok hp]
      rfl
    · refine .inr ⟨h, by omega, ?_⟩
      unfold fetch
      simp only [bind, EStateM.bind, get, getThe, MonadStateOf.get, EStateM.get, h, if_true,
        plRead_overrun (Nat.lt_of_not_le hp)]
  · refine .inl ⟨h, ?_⟩
    unfold fetch
    simp only [bind, EStateM.bind, get, getThe, MonadStateOf.get, EStateM.get, set, EStateM.set, pure, EStateM.pure, h,
      if_false]

/-! ### The step -/

/-- The two ways a tile can end (R135): the next tile follows, or the frame is complete. -/
theorem State.finishStep_cases (s : State) :
    (s.advance.tileIdx.toNat ≠ s.advance.tiles ∧ s.finishStep = s.advance)
      ∨ (s.advance.tileIdx.toNat = s.advance.tiles ∧ s.finishStep = s.advance.complete) := by
  unfold State.finishStep
  by_cases h : s.advance.tileIdx.toNat = s.advance.tiles
  · exact .inr ⟨h, if_pos h⟩
  · exact .inl ⟨h, if_neg h⟩

/-- What a step can do when it answers a next state: nothing, outside a run; take a refill's overrun; take the overrun
of the instruction; or finish the tile. -/
theorem step_cases {s t : State} (h : step s = .next t) :
    (s.run ≠ .busy ∧ t = s)
    ∨ (s.run = .busy ∧ s.tileIdx.toNat < s.tiles ∧
        ((∃ e u, fetch s = .error e u ∧ t = u.overrunInStep 0 e)
          ∨ ∃ op u w, fetch s = .ok op u ∧ exec (decode op) u = .next w
              ∧ ((w.run ≠ .busy ∧ t = w) ∨ (w.run = .busy ∧ t = w.finishStep)))) := by
  unfold step at h
  split at h
  · next hr => exact .inl ⟨by simp [hr], by cases h; rfl⟩
  · next hr => exact .inl ⟨by simp [hr], by cases h; rfl⟩
  · next hr =>
    right
    split at h
    · next hlt =>
      refine ⟨hr, hlt, ?_⟩
      split at h
      · next e u hf => exact .inl ⟨e, u, hf, by cases h; rfl⟩
      · next op u hf =>
        right
        split at h
        · next w hw =>
          refine ⟨op, u, w, hf, hw, ?_⟩
          by_cases hb : w.run = .busy
          · right; simp only [hb, if_true] at h; cases h; exact ⟨hb, rfl⟩
          · left; simp only [hb, if_false] at h; cases h; exact ⟨hb, rfl⟩
        · cases h
        · cases h
    · cases h

/-! ### Start -/

/-- What the initialisation of a run can do (R132). -/
theorem initRun_cases (s : State) :
    let begun := { s with run := .busy, tileIdx := 0, tileX := 0, tileY := 0, tileOfs := 0
                          opcPtr := 4, opreg := 0, opcnt := 0 }
    let c := BitVec.ofNat 32 (s.memRead .pl 0 4)
    (4 ≤ s.payloadLen.toNat
        ∧ initRun s = .ok () { begun with colorOffset := c, unaPtr := c, alnPtr := BitVec.ofNat 32 s.alnStart })
      ∨ (s.payloadLen.toNat < 4 ∧ initRun s = .error { stream := .head, addr := 0 } begun) := by
  intro begun c
  have e : initRun s = EStateM.bind (plRead 0 4 .head) (fun v => modify fun s =>
      { s with colorOffset := BitVec.ofNat 32 v, unaPtr := BitVec.ofNat 32 v
               alnPtr := BitVec.ofNat 32 s.alnStart }) begun := rfl
  have hr : begun.memRead .pl 0 4 = s.memRead .pl 0 4 := rfl
  by_cases h : 4 ≤ s.payloadLen.toNat
  · refine .inl ⟨h, ?_⟩
    rw [e]
    simp only [EStateM.bind, plRead_ok (s := begun) (a := 0) (n := 4) (id := .head) (by simpa [begun] using h), hr]
    rfl
  · refine .inr ⟨by omega, ?_⟩
    rw [e]
    simp only [EStateM.bind,
      plRead_overrun (s := begun) (a := 0) (n := 4) (id := .head) (by simpa [begun] using Nat.lt_of_not_le h)]

/-! ### The canonical form of the memories -/

theorem State.MemoryWf.freeTile {s : State} (h : s.MemoryWf) : s.freeTile.MemoryWf := by
  obtain ⟨u, -, h2, -, -, -, h6⟩ := s.freeTile_spec
  rw [h6]; exact h2 h

/-- CLEAR keeps the canonical form. -/
theorem State.MemoryWf.clear {s : State} (h : s.MemoryWf) : s.clear.MemoryWf :=
  ⟨h.1, Memory.frameWf_nil, Memory.frameWf_nil⟩

/-- Loading bytes keeps the canonical form. -/
theorem State.MemoryWf.loadPl {s : State} (h : s.MemoryWf) (a : Nat) (bs : List Byte) : (s.loadPl a bs).MemoryWf := by
  induction bs generalizing s a with
  | nil => exact h
  | cons b bs ih => exact ih (h.setByte .pl a b) _

/-- A host write keeps the canonical form. -/
theorem State.MemoryWf.hostWriteMem {caps : Config.Caps} {s t : State} {m : HostMem} {a : Nat} {v : Byte}
    (h : s.MemoryWf) (e : s.hostWriteMem caps m a v = .next t) : t.MemoryWf := by
  unfold State.hostWriteMem at e
  split at e
  · cases e
  · split at e
    · cases e
    · cases e
      cases m
      exacts [⟨h.1.insert a v, h.2⟩, ⟨h.1, h.2.1.set a v, h.2.2⟩, ⟨h.1, h.2.1, h.2.2.set a v⟩]

end Sys2Proof.Machine
end

