-- ==== Sys2Proof/Laws/Draw.lean ====
section
/-!
SUPPORT. What the computations inside a step draw. `Draws f s A U px oob` says of `f` what `Runs` says and, if it ends,
that the pixels are painted with `px`, that `REF_OOB` is set if it was or if `oob` holds, and that the primitive-local
registers are as they were. One rule each for sequencing, loops and every operation shared by several instructions;
`Draws.result` ends a proof about an `exec` whose records fit.
-/

namespace Sys2Proof.Machine

/-! ### The judgement -/

/-- See the head of this file. -/
def Draws (f : Exec Unit) (s : State) (A U : Nat) (px : Nat → Nat → Option Byte) (oob : Prop) : Prop :=
  Runs f s A U fun _ t =>
    s.Painted t px ∧ s.SameLocals t ∧ (t.flags.refOob = true ↔ s.flags.refOob = true ∨ oob)

/-- The paint `px'` over the paint `px`. -/
def paintOver (px' px : Nat → Nat → Option Byte) (r c : Nat) : Option Byte := (px' r c).or (px r c)

/-- The paints `px 0`, `px 1`, …, `px (n - 1)`, each over those before it. -/
def layers (px : Nat → Nat → Nat → Option Byte) : Nat → Nat → Nat → Option Byte
  | 0 => fun _ _ => none
  | n + 1 => paintOver (px n) (layers px n)

theorem layers_none {px : Nat → Nat → Nat → Option Byte} {n r c : Nat} (h : ∀ i, i < n → px i r c = none) :
    layers px n r c = none := by
  induction n with
  | zero => rfl
  | succ n ih => simp [layers, paintOver, h n (Nat.lt_succ_self n), ih fun i hi => h i (Nat.lt_succ_of_lt hi)]

/-- The last layer that paints a pixel counts. -/
theorem layers_last {px : Nat → Nat → Nat → Option Byte} {n r c i : Nat} {v : Byte} (hi : i < n)
    (hv : px i r c = some v) (hl : ∀ j, i < j → j < n → px j r c = none) : layers px n r c = some v := by
  induction n with
  | zero => omega
  | succ n ih =>
    by_cases e : i = n
    · subst e; simp [layers, paintOver, hv]
    · simp [layers, paintOver, hl n (by omega) (Nat.lt_succ_self n), ih (by omega) fun j hj hn => hl j hj (by omega)]

theorem layers_congr {px px' : Nat → Nat → Nat → Option Byte} {n r c : Nat} (h : ∀ i, i < n → px i r c = px' i r c) :
    layers px n r c = layers px' n r c := by
  induction n with
  | zero => rfl
  | succ n ih => simp [layers, paintOver, h n (Nat.lt_succ_self n), ih fun i hi => h i (Nat.lt_succ_of_lt hi)]

theorem State.Painted.trans {s t u : State} {px px' : Nat → Nat → Option Byte} (h : s.Painted t px)
    (g : t.Painted u px') (ht : s.InTile t) : s.Painted u (paintOver px' px) := fun r c hr hc => by
  have hg := g r c hr hc
  rw [ht.pixAddr] at hg
  rw [hg, h r c hr hc]
  unfold paintOver
  cases px' r c <;> simp

theorem State.SameLocals.refl (s : State) : s.SameLocals s := ⟨rfl, rfl, rfl, rfl⟩

theorem State.SameLocals.trans {s t u : State} (h : s.SameLocals t) (g : t.SameLocals u) : s.SameLocals u :=
  ⟨g.1.trans h.1, g.2.1.trans h.2.1, g.2.2.1.trans h.2.2.1, g.2.2.2.trans h.2.2.2⟩

theorem Draws.congr {f : Exec Unit} {s : State} {A U : Nat} {px px' : Nat → Nat → Option Byte} {oob oob' : Prop}
    (h : Draws f s A U px oob) (hp : ∀ r c, r < 8 → c < 8 → px' r c = px r c) (ho : oob' ↔ oob) :
    Draws f s A U px' oob' :=
  Runs.weaken h fun _ _ _ q => ⟨q.1.congr hp, q.2.1, by rw [ho]; exact q.2.2⟩

/-- Doing nothing draws nothing. -/
theorem Draws.nothing (s : State) : Draws (pure ()) s 0 0 (fun _ _ => none) False :=
  Runs.pure () ⟨.none s, .refl s, by simp⟩

/-- First a value is read, with nothing drawn and no register but the pointers touched, then something is drawn. -/
theorem Draws.read {α : Type} {f : Exec α} {g : α → Exec Unit} {s : State} {A U A' U' : Nat} {P : α → Prop}
    {px : Nat → Nat → Option Byte} {oob : Prop}
    (hf : Runs f s A U fun v t => P v ∧ t = { s with alnPtr := t.alnPtr, unaPtr := t.unaPtr })
    (hg : ∀ v t, P v → s.InTile t → t.alnPtr = s.alnPtr + BitVec.ofNat 32 A →
      t.unaPtr = s.unaPtr + BitVec.ofNat 32 U → s.Fits s.alnPtr A → s.Fits s.unaPtr U → Draws (g v) t A' U' px oob) :
    Draws (f >>= g) s (A + A') (U + U') px oob :=
  Runs.bind hf fun v t ht ha hu fa fu q => (hg v t q.1 ht ha hu fa fu).weaken fun _ w _ d => by
    have e := q.2
    refine ⟨fun r c hr hc => ?_, ?_, ?_⟩
    · have hd := d.1 r c hr hc
      rw [ht.pixAddr] at hd
      have hs : t.byteAt .cur (s.pixAddr r c) = s.byteAt .cur (s.pixAddr r c) := by rw [e]; rfl
      rw [hd, hs]
    · exact State.SameLocals.trans (by rw [e]; exact ⟨rfl, rfl, rfl, rfl⟩) d.2.1
    · have hr : t.flags = s.flags := by rw [e]
      rw [d.2.2, hr]

/-- Two drawings, the second over the first. -/
theorem Draws.seq {f g : Exec Unit} {s : State} {A U A' U' : Nat} {px px' : Nat → Nat → Option Byte} {oob oob' : Prop}
    (hf : Draws f s A U px oob)
    (hg : ∀ t, s.InTile t → t.alnPtr = s.alnPtr + BitVec.ofNat 32 A → t.unaPtr = s.unaPtr + BitVec.ofNat 32 U →
      s.Fits s.alnPtr A → s.Fits s.unaPtr U → Draws g t A' U' px' oob') :
    Draws (f >>= fun _ => g) s (A + A') (U + U') (paintOver px' px) (oob ∨ oob') :=
  Runs.bind hf fun _ t ht ha hu fa fu q => (hg t ht ha hu fa fu).weaken fun _ _ _ d =>
    ⟨q.1.trans d.1 ht, q.2.1.trans d.2.1, by rw [d.2.2, q.2.2, or_assoc]⟩

/-- A loop whose round `i` draws `px i`; after `i` rounds it has read `A i` and `U i` bytes. -/
theorem Draws.loop {n : Nat} {f : Nat → Exec Unit} {s : State} (A U : Nat → Nat)
    (px : Nat → Nat → Nat → Option Byte) (oob : Nat → Prop)
    (hA : A 0 = 0) (hU : U 0 = 0) (hmA : ∀ i, A i ≤ A (i + 1)) (hmU : ∀ i, U i ≤ U (i + 1))
    (h : ∀ i t, i < n → s.InTile t → t.alnPtr = s.alnPtr + BitVec.ofNat 32 (A i) →
      t.unaPtr = s.unaPtr + BitVec.ofNat 32 (U i) → s.Fits s.alnPtr (A i) → s.Fits s.unaPtr (U i) →
      Draws (f i) t (A (i + 1) - A i) (U (i + 1) - U i) (px i) (oob i)) :
    Draws (forUpTo n f) s (A n) (U n) (layers px n) (∃ i, i < n ∧ oob i) := by
  refine Runs.loop A U (fun k t => s.Painted t (layers px k) ∧ s.SameLocals t
    ∧ (t.flags.refOob = true ↔ s.flags.refOob = true ∨ ∃ i, i < k ∧ oob i)) hA hU hmA hmU
    ⟨.none s, .refl s, by simp⟩ fun i t hi ht ha hu fa fu q => ?_
  refine Runs.weaken (h i t hi ht ha hu fa fu) fun _ u _ d => ⟨q.1.trans d.1 ht, q.2.1.trans d.2.1, ?_⟩
  rw [d.2.2, q.2.2, or_assoc]
  refine or_congr_right ⟨?_, ?_⟩
  · rintro (⟨j, hj, ho⟩ | ho)
    exacts [⟨j, by omega, ho⟩, ⟨i, by omega, ho⟩]
  · rintro ⟨j, hj, ho⟩
    by_cases e : j = i
    exacts [.inr (e ▸ ho), .inl ⟨j, by omega, ho⟩]

/-! ### Readers that end in the form `Draws.read` asks for -/

theorem Runs.reads {α : Type} {f : Exec α} {s : State} {A U : Nat} {v : α} {a u : Ptr}
    (h : Runs f s A U fun w t => w = v ∧ t = { s with alnPtr := a, unaPtr := u }) :
    Runs f s A U fun w t => w = v ∧ t = { s with alnPtr := t.alnPtr, unaPtr := t.unaPtr } :=
  h.weaken fun _ t _ q => ⟨q.1, by rw [q.2]⟩

/-- `A8()`: the next byte of the aligned record. -/
theorem reads_a8 (s : State) : Runs a8 s 1 0 fun v t => v = s.alignedByte 0
    ∧ t = { s with alnPtr := t.alnPtr, unaPtr := t.unaPtr } :=
  (runs_a8 s).weaken fun _ t _ q => ⟨q.1, by rw [q.2]⟩

/-- `U8()`: the next byte of the unaligned record. -/
theorem reads_u8 (s : State) : Runs u8 s 0 1 fun v t => v = s.unalignedByte 0
    ∧ t = { s with alnPtr := t.alnPtr, unaPtr := t.unaPtr } :=
  (runs_u8 s).weaken fun _ t _ q => ⟨q.1, by rw [q.2]⟩

/-- `A16()`. -/
theorem reads_a16 (s : State) : Runs a16 s 2 0 fun v t => v = BitVec.ofNat 16 (s.alignedWord 0 2)
    ∧ t = { s with alnPtr := t.alnPtr, unaPtr := t.unaPtr } :=
  (runs_a16 s).weaken fun _ t _ q => ⟨q.1, by rw [q.2]⟩

/-- `A24()`. -/
theorem reads_a24 (s : State) : Runs a24 s 3 0 fun v t => v = BitVec.ofNat 24 (s.alignedWord 0 3)
    ∧ t = { s with alnPtr := t.alnPtr, unaPtr := t.unaPtr } :=
  (runs_a24 s).weaken fun _ t _ q => ⟨q.1, by rw [q.2]⟩

/-- `A32()`. -/
theorem reads_a32 (s : State) : Runs a32 s 4 0 fun v t => v = BitVec.ofNat 32 (s.alignedWord 0 4)
    ∧ t = { s with alnPtr := t.alnPtr, unaPtr := t.unaPtr } :=
  (runs_a32 s).weaken fun _ t _ q => ⟨q.1, by rw [q.2]⟩

/-- `A40()`. -/
theorem reads_a40 (s : State) : Runs a40 s 5 0 fun v t => v = BitVec.ofNat 40 (s.alignedWord 0 5)
    ∧ t = { s with alnPtr := t.alnPtr, unaPtr := t.unaPtr } :=
  (runs_a40 s).weaken fun _ t _ q => ⟨q.1, by rw [q.2]⟩

/-- `U16()`. -/
theorem reads_u16 (s : State) : Runs u16 s 0 2 fun v t => v = BitVec.ofNat 16 (s.unalignedWord 0 2)
    ∧ t = { s with alnPtr := t.alnPtr, unaPtr := t.unaPtr } :=
  (runs_u16 s).weaken fun _ t _ q => ⟨q.1, by rw [q.2]⟩

/-- `U24()`. -/
theorem reads_u24 (s : State) : Runs u24 s 0 3 fun v t => v = BitVec.ofNat 24 (s.unalignedWord 0 3)
    ∧ t = { s with alnPtr := t.alnPtr, unaPtr := t.unaPtr } :=
  (runs_u24 s).weaken fun _ t _ q => ⟨q.1, by rw [q.2]⟩

theorem State.alignedByte_add {s t : State} {A : Nat} (ht : s.InTile t)
    (ha : t.alnPtr = s.alnPtr + BitVec.ofNat 32 A) (fa : s.Fits s.alnPtr A) (k : Nat) :
    t.alignedByte k = s.alignedByte (A + k) := by
  simp only [State.alignedByte, ht.plByte, ha, State.toNat_advance fa, Nat.add_assoc]

theorem State.unalignedByte_add {s t : State} {U : Nat} (ht : s.InTile t)
    (hu : t.unaPtr = s.unaPtr + BitVec.ofNat 32 U) (fu : s.Fits s.unaPtr U) (k : Nat) :
    t.unalignedByte k = s.unalignedByte (U + k) := by
  simp only [State.unalignedByte, ht.plByte, hu, State.toNat_advance fu, Nat.add_assoc]

theorem State.alignedWord_add {s t : State} {A : Nat} (ht : s.InTile t)
    (ha : t.alnPtr = s.alnPtr + BitVec.ofNat 32 A) (fa : s.Fits s.alnPtr A) (k n : Nat) :
    t.alignedWord k n = s.alignedWord (A + k) n := by
  simp only [State.alignedWord, ht.memRead_pl, ha, State.toNat_advance fa, Nat.add_assoc]

theorem State.unalignedWord_add {s t : State} {U : Nat} (ht : s.InTile t)
    (hu : t.unaPtr = s.unaPtr + BitVec.ofNat 32 U) (fu : s.Fits s.unaPtr U) (k n : Nat) :
    t.unalignedWord k n = s.unalignedWord (U + k) n := by
  simp only [State.unalignedWord, ht.memRead_pl, hu, State.toNat_advance fu, Nat.add_assoc]

/-- A list of colours read from the aligned stream (R200). -/
theorem reads_list_a8 (n : Nat) (s : State) :
    Runs (readList n a8) s n 0 fun k t => (k.length = n ∧ ∀ i, i < n → colour k i = s.alignedByte i)
      ∧ t = { s with alnPtr := t.alnPtr, unaPtr := t.unaPtr } := by
  induction n generalizing s with
  | zero => exact Runs.pure [] ⟨⟨rfl, fun i hi => absurd hi (Nat.not_lt_zero i)⟩, rfl⟩
  | succ n ih =>
    rw [Nat.add_comm n 1]
    rw [show readList (1 + n) a8 = (a8 >>= fun v => readList n a8 >>= fun vs => pure (v :: vs)) from by
      rw [Nat.add_comm]; rfl]
    refine Runs.bind (A' := n) (U' := 0) (reads_a8 s) fun v t ht ha hu fa fu q => ?_
    refine (ih t).map _ fun k u p => ⟨⟨by rw [List.length_cons, p.1.1]; omega, fun i hi => ?_⟩, ?_⟩
    · cases i with
      | zero => exact q.1
      | succ i =>
        show colour k i = _
        rw [p.1.2 i (by omega), State.alignedByte_add ht ha fa, Nat.add_comm]
    · rw [p.2, q.2]

/-- A list of colours read from the unaligned stream (R200). -/
theorem reads_list_u8 (n : Nat) (s : State) :
    Runs (readList n u8) s 0 n fun k t => (k.length = n ∧ ∀ i, i < n → colour k i = s.unalignedByte i)
      ∧ t = { s with alnPtr := t.alnPtr, unaPtr := t.unaPtr } := by
  induction n generalizing s with
  | zero => exact Runs.pure [] ⟨⟨rfl, fun i hi => absurd hi (Nat.not_lt_zero i)⟩, rfl⟩
  | succ n ih =>
    rw [Nat.add_comm n 1]
    rw [show readList (1 + n) u8 = (u8 >>= fun v => readList n u8 >>= fun vs => pure (v :: vs)) from by
      rw [Nat.add_comm]; rfl]
    refine Runs.bind (A' := 0) (U' := n) (reads_u8 s) fun v t ht ha hu fa fu q => ?_
    refine (ih t).map _ fun k u p => ⟨⟨by rw [List.length_cons, p.1.1]; omega, fun i hi => ?_⟩, ?_⟩
    · cases i with
      | zero => exact q.1
      | succ i =>
        show colour k i = _
        rw [p.1.2 i (by omega), State.unalignedByte_add ht hu fu, Nat.add_comm]
    · rw [p.2, q.2]

/-! ### Pixels -/

/-- One pixel. -/
def dot (r0 c0 : Nat) (v : Byte) (r c : Nat) : Option Byte := if r = r0 ∧ c = c0 then some v else none

/-- `Pix(r, c) <- v` (R72). -/
theorem draws_pix {s : State} (hw : 8 ≤ s.width) {r c : Nat} (hr : r < 8) (hc : c < 8) (v : Byte) :
    Draws (pix r c v) s 0 0 (dot r c v) False :=
  (runs_pix s hr hc v).weaken fun _ t _ q => by
    subst q
    exact ⟨(State.Painted.none s).set hw (.refl s) hc v, ⟨rfl, rfl, rfl, rfl⟩, by simp⟩

/-- `QPix(q, r, c) <- v` (R73). -/
theorem draws_qpix {s : State} (hw : 8 ≤ s.width) {q r c : Nat} (hq : q < 4) (hr : r < 4) (hc : c < 4) (v : Byte) :
    Draws (qpix q r c v) s 0 0 (dot (4 * (q / 2) + r) (4 * (q % 2) + c) v) False :=
  (runs_qpix s hq hr hc v).weaken fun _ t _ e => by
    subst e
    exact ⟨(State.Painted.none s).set hw (.refl s) (by omega) v, ⟨rfl, rfl, rfl, rfl⟩, by simp⟩

/-- A pixel of the tile lies at one place of one quadrant. -/
theorem quadrant_place {q r0 c0 r c : Nat} (hq : q < 4) (hr0 : r0 < 4) (hc0 : c0 < 4) :
    (r = 4 * (q / 2) + r0 ∧ c = 4 * (q % 2) + c0) ↔
      (r < 8 ∧ c < 8 ∧ quadrantOf r c = q ∧ r % 4 = r0 ∧ c % 4 = c0) := by
  unfold quadrantOf
  omega

/-- A pixel of the previous frame copied to a place that `f` draws at (R74, R75). -/
theorem draws_prev {s : State} (a : Int) {f : Byte → Exec Unit} {px : Nat → Nat → Option Byte}
    (h : ∀ t, s.InTile t → Draws (f (s.prevByte a)) t 0 0 px False) :
    Draws (do let v ← prev a; f v) s 0 0 px (¬ s.InFrame a) := by
  have hb := Runs.bind (A' := 0) (U' := 0) (R := fun _ t => s.Painted t px ∧ s.SameLocals t
    ∧ (t.flags.refOob = true ↔ s.flags.refOob = true ∨ ¬ s.InFrame a)) (g := f) (runs_prev s a)
    fun v t ht _ _ _ _ q => by
      obtain ⟨rfl, e⟩ := q
      refine Runs.weaken (h t ht) fun _ u _ d => ⟨fun r c hr hc => ?_, ?_, ?_⟩
      · have hd := d.1 r c hr hc
        rw [ht.pixAddr] at hd
        have hs : t.byteAt .cur (s.pixAddr r c) = s.byteAt .cur (s.pixAddr r c) := by rw [e]; split <;> rfl
        rw [hd, hs]
      · exact State.SameLocals.trans (by rw [e]; split <;> exact ⟨rfl, rfl, rfl, rfl⟩) d.2.1
      · rw [d.2.2, e]
        split
        · next hin => simp [hin]
        · next hin => simp [hin, State.setRefOob]
  exact hb

/-- A row of dots. -/
theorem layers_dots {n r0 : Nat} {val : Nat → Byte} (r c : Nat) :
    layers (fun c0 => dot r0 c0 (val c0)) n r c = if r = r0 ∧ c < n then some (val c) else none := by
  split
  · next h => exact layers_last h.2 (by simp [dot, h.1]) fun j hj _ => by simp [dot]; omega
  · next h => exact layers_none fun i hi => by simp [dot]; omega

/-- A block of dots, its top-left at `(r0, c0)`, from two loops that read nothing. -/
theorem Draws.grid {m n : Nat} {f : Nat → Nat → Exec Unit} {s : State} (r0 c0 : Nat) (val : Nat → Nat → Byte)
    (oob : Nat → Nat → Prop)
    (h : ∀ r c t, r < m → c < n → s.InTile t → Draws (f r c) t 0 0 (dot (r0 + r) (c0 + c) (val r c)) (oob r c)) :
    Draws (forUpTo m fun r => forUpTo n fun c => f r c) s 0 0
      (fun r c => if (r0 ≤ r ∧ r < r0 + m) ∧ c0 ≤ c ∧ c < c0 + n then some (val (r - r0) (c - c0)) else none)
      (∃ r c, r < m ∧ c < n ∧ oob r c) := by
  have g := Draws.loop (n := m) (s := s) (f := fun r => forUpTo n fun c => f r c) (fun _ => 0) (fun _ => 0)
    (fun i => layers (fun j => dot (r0 + i) (c0 + j) (val i j)) n) (fun r => ∃ c, c < n ∧ oob r c) rfl rfl
    (fun _ => Nat.le_refl 0) (fun _ => Nat.le_refl 0) fun r t hr ht _ _ _ _ =>
      Draws.loop (n := n) (s := t) (f := fun c => f r c) (fun _ => 0) (fun _ => 0)
        (fun j => dot (r0 + r) (c0 + j) (val r j)) (fun c => oob r c) rfl rfl
        (fun _ => Nat.le_refl 0) (fun _ => Nat.le_refl 0) fun c u hc hu _ _ _ _ => h r c u hr hc (ht.trans hu)
  refine g.congr (fun r c _ _ => ?_) ?_
  · split
    · next e =>
      refine (layers_last (i := r - r0) (v := val (r - r0) (c - c0)) (by omega) ?_ fun j hj _ => ?_).symm
      · exact layers_last (i := c - c0) (by omega)
          (by unfold dot; rw [if_pos]; omega) fun j hj _ => by unfold dot; rw [if_neg]; omega
      · exact layers_none fun i _ => by unfold dot; rw [if_neg]; omega
    · next e =>
      exact (layers_none fun i hi => layers_none fun j hj => by unfold dot; rw [if_neg]; omega).symm
  · exact ⟨fun ⟨r, c, hr, hc, h⟩ => ⟨r, hr, c, hc, h⟩, fun ⟨r, hr, c, hc, h⟩ => ⟨r, c, hr, hc, h⟩⟩

/-- One pixel copied from the previous frame, in the form in which the block copies have it. -/
theorem draws_copied {s : State} (a : Nat → Int) {f : Byte → Exec Unit} {px : Nat → Nat → Option Byte}
    (h : ∀ t, s.InTile t → Draws (f (s.prevByte (a s.width))) t 0 0 px False) :
    Draws (do let s ← get; let v ← prev (a s.width); f v) s 0 0 px (¬ s.InFrame (a s.width)) := by
  refine Draws.read (A := 0) (U := 0) (A' := 0) (U' := 0) (P := fun v => v = s)
    (g := fun s => do let v ← prev (a s.width); f v)
    ((runs_get s).weaken fun v t _ q => ⟨q.1, by rw [q.2]⟩) fun v t hv ht _ _ _ _ => ?_
  subst hv
  refine (draws_prev (s := t) _ (px := px) fun u hu => ?_).congr (fun _ _ _ _ => rfl)
    (by simp [State.InFrame, ht.frameSize])
  rw [ht.prevByte]
  exact h u (ht.trans hu)

/-- `Copy8(src)` (R75). -/
theorem draws_copy8 {s : State} (hw : 8 ≤ s.width) (src : Int) :
    Draws (copy8 src) s 0 0 (fun r c => some (s.prevByte (s.source8x8 src r c)))
      (s.SourceOutside (s.source8x8 src)) := by
  unfold copy8
  refine (Draws.grid 0 0 (fun r c => s.prevByte (s.source8x8 src r c)) (fun r c => ¬ s.InFrame (s.source8x8 src r c))
    fun r c t hr hc ht => ?_).congr (fun r c hr hc => ?_) Iff.rfl
  · have e : src + ((r * t.width + c : Nat) : Int) = s.source8x8 src r c := by
      unfold State.source8x8; rw [ht.width]
    refine (draws_copied (fun w => src + (r * w + c : Nat)) fun u hu => ?_).congr (fun _ _ _ _ => rfl) ?_
    · rw [e, ht.prevByte, Nat.zero_add, Nat.zero_add]
      exact draws_pix (by rw [(ht.trans hu).width]; exact hw) hr hc _
    · rw [e]; simp [State.InFrame, ht.frameSize]
  · rw [if_pos (by omega)]; rfl

/-- `Copy4(q, src)` (R75). -/
theorem draws_copy4 {s : State} (hw : 8 ≤ s.width) {q : Nat} (hq : q < 4) (src : Int) :
    Draws (copy4 q src) s 0 0
      (fun r c => if quadrantOf r c = q then some (s.prevByte (src + (r % 4 * s.width + c % 4 : Nat))) else none)
      (∃ r c, r < 4 ∧ c < 4 ∧ ¬ s.InFrame (src + (r * s.width + c : Nat))) := by
  unfold copy4
  refine (Draws.grid (4 * (q / 2)) (4 * (q % 2)) (fun r c => s.prevByte (src + (r * s.width + c : Nat)))
    (fun r c => ¬ s.InFrame (src + (r * s.width + c : Nat))) fun r c t hr hc ht => ?_).congr
    (fun r c hr hc => ?_) Iff.rfl
  · refine (draws_copied (fun w => src + (r * w + c : Nat)) fun u hu => ?_).congr (fun _ _ _ _ => rfl) ?_
    · rw [ht.width, ht.prevByte]
      exact draws_qpix (by rw [(ht.trans hu).width]; exact hw) hq hr hc _
    · rw [ht.width]; simp [State.InFrame, ht.frameSize]
  · unfold quadrantOf
    by_cases e : 2 * (r / 4) + c / 4 = q
    · rw [if_pos e, if_pos (by omega), show r - 4 * (q / 2) = r % 4 by omega, show c - 4 * (q % 2) = c % 4 by omega]
    · rw [if_neg e, if_neg (by omega)]

/-! ### From a body to the statements about `exec` -/

/-- A body whose records fit and that paints the whole tile completes its instruction. -/
theorem Draws.result {i : Instr} {body : Exec Unit} {s : State} {A U : Nat} {px : Nat → Nat → Byte} {oob : Prop}
    (h : Draws body s A U (fun r c => some (px r c)) oob) (ha : s.Fits s.alnPtr A) (hu : s.Fits s.unaPtr U) :
    ∃ t, runTile i body s = .next t ∧ s.TileDone t A U px oob ∧ s.SameLocals t := by
  obtain ⟨t, e, ht, pa, pu, hp, hl, ho⟩ := Runs.completes (i := i) h ha hu
  refine ⟨t, e, ⟨ht, ?_, ?_, fun r c hr hc => ?_, ho⟩, hl⟩
  · rw [pa]; exact State.toNat_advance ha
  · rw [pu]; exact State.toNat_advance hu
  · rw [hp r c hr hc]; rfl

end Sys2Proof.Machine
end

