-- ==== Sys2Proof/Laws/Overrun.lean ====
section
/-!
SUPPORT. What an overrun inside a step leaves. `Narrow f wa wu` says of the computation `f` that a read of it that
overruns takes at most `wa` bytes of the aligned and `wu` bytes of the unaligned stream, with one rule for each operation;
`Runs.overran` ends a proof about an `exec` one of whose records does not fit, and `State.CompositeOverruns.of_runs` one
about the overruns of a composite.
-/

namespace Sys2Proof.Machine

/-! ### How wide the read is that overruns -/

/-- See the head of this file. -/
structure Narrow {α : Type} (f : Exec α) (wa wu : Nat) : Prop where
  /-- The read that overran ends outside the payload. -/
  misses : ∀ s e t, f s = .error e t →
    (e.stream = .aligned ∧ t.payloadLen.toNat < e.addr + wa)
      ∨ (e.stream = .unaligned ∧ t.payloadLen.toNat < e.addr + wu)

theorem Narrow.mono {α : Type} {f : Exec α} {wa wu wa' wu' : Nat} (h : Narrow f wa wu) (ha : wa ≤ wa') (hu : wu ≤ wu') :
    Narrow f wa' wu' :=
  ⟨fun s e t he => (h.misses s e t he).imp (fun x => ⟨x.1, by omega⟩) fun x => ⟨x.1, by omega⟩⟩

/-- A computation that always ends. -/
theorem Narrow.total {α : Type} {f : Exec α} (wa wu : Nat) (h : ∀ s, ∃ v t, f s = .ok v t) : Narrow f wa wu :=
  ⟨fun s e t he => by obtain ⟨v, u, hu⟩ := h s; rw [hu] at he; cases he⟩

theorem Narrow.pure {α : Type} (v : α) (wa wu : Nat) : Narrow (pure v) wa wu := .total wa wu fun s => ⟨v, s, rfl⟩

theorem Narrow.bind {α β : Type} {f : Exec α} {g : α → Exec β} {wa wu : Nat} (hf : Narrow f wa wu)
    (hg : ∀ v, Narrow (g v) wa wu) : Narrow (f >>= g) wa wu := by
  refine ⟨fun s e t he => ?_⟩
  change EStateM.bind f g s = _ at he
  unfold EStateM.bind at he
  cases hr : f s with
  | ok v u => rw [hr] at he; exact (hg v).misses u e t he
  | error x u => rw [hr] at he; cases he; exact hf.misses s e t hr

theorem Narrow.ite {α : Type} {p : Prop} [Decidable p] {f g : Exec α} {wa wu : Nat} (hf : Narrow f wa wu)
    (hg : Narrow g wa wu) : Narrow (if p then f else g) wa wu := by split <;> assumption

theorem Narrow.loop {n : Nat} {f : Nat → Exec Unit} {wa wu : Nat} (h : ∀ i, Narrow (f i) wa wu) :
    Narrow (forUpTo n f) wa wu := by
  induction n with
  | zero => exact .pure () _ _
  | succ n ih => exact ih.bind fun _ => h n

theorem Narrow.list {n : Nat} {f : Exec Byte} {wa wu : Nat} (h : Narrow f wa wu) : Narrow (readList n f) wa wu := by
  induction n with
  | zero => exact .pure [] _ _
  | succ n ih => exact h.bind fun v => ih.bind fun vs => .pure (v :: vs) _ _

theorem narrow_get (wa wu : Nat) : Narrow (get : Exec State) wa wu := .total wa wu fun s => ⟨s, s, rfl⟩

theorem narrow_modify (f : State → State) (wa wu : Nat) : Narrow (modify f : Exec Unit) wa wu :=
  .total wa wu fun s => ⟨(), f s, rfl⟩

theorem narrow_pix (r c : Nat) (v : Byte) (wa wu : Nat) : Narrow (pix r c v) wa wu := narrow_modify _ _ _

theorem narrow_qpix (q r c : Nat) (v : Byte) (wa wu : Nat) : Narrow (qpix q r c v) wa wu := narrow_modify _ _ _

theorem narrow_prev (a : Int) (wa wu : Nat) : Narrow (prev a) wa wu := .total wa wu fun _ => ⟨_, _, rfl⟩

theorem narrow_alignedRead {n wa wu : Nat} (h : n ≤ wa) : Narrow (alignedRead n) wa wu := by
  refine (narrow_get _ _).bind fun s => Narrow.bind ⟨fun t e u he => ?_⟩ fun v =>
    (narrow_modify _ _ _).bind fun _ => .pure v _ _
  unfold plRead at he
  split at he
  · cases he; exact .inl ⟨rfl, Nat.lt_of_lt_of_le ‹_› (Nat.add_le_add_left h _)⟩
  · cases he

theorem narrow_unalignedRead {n wa wu : Nat} (h : n ≤ wu) : Narrow (unalignedRead n) wa wu := by
  refine (narrow_get _ _).bind fun s => Narrow.bind ⟨fun t e u he => ?_⟩ fun v =>
    (narrow_modify _ _ _).bind fun _ => .pure v _ _
  unfold plRead at he
  split at he
  · cases he; exact .inr ⟨rfl, Nat.lt_of_lt_of_le ‹_› (Nat.add_le_add_left h _)⟩
  · cases he

theorem narrow_a8 {wa : Nat} (wu : Nat) (h : 1 ≤ wa) : Narrow a8 wa wu := (narrow_alignedRead h).bind fun _ => .pure _ _ _

theorem narrow_a16 {wa : Nat} (wu : Nat) (h : 2 ≤ wa) : Narrow a16 wa wu := (narrow_alignedRead h).bind fun _ => .pure _ _ _

theorem narrow_a16s {wa : Nat} (wu : Nat) (h : 2 ≤ wa) : Narrow a16s wa wu := (narrow_a16 wu h).bind fun _ => .pure _ _ _

theorem narrow_a24 {wa : Nat} (wu : Nat) (h : 3 ≤ wa) : Narrow a24 wa wu := (narrow_alignedRead h).bind fun _ => .pure _ _ _

theorem narrow_a32 {wa : Nat} (wu : Nat) (h : 4 ≤ wa) : Narrow a32 wa wu := (narrow_alignedRead h).bind fun _ => .pure _ _ _

theorem narrow_a40 {wa : Nat} (wu : Nat) (h : 5 ≤ wa) : Narrow a40 wa wu := (narrow_alignedRead h).bind fun _ => .pure _ _ _

theorem narrow_u8 (wa : Nat) {wu : Nat} (h : 1 ≤ wu) : Narrow u8 wa wu :=
  (narrow_unalignedRead h).bind fun _ => .pure _ _ _

theorem narrow_u16 (wa : Nat) {wu : Nat} (h : 2 ≤ wu) : Narrow u16 wa wu :=
  (narrow_unalignedRead h).bind fun _ => .pure _ _ _

theorem narrow_u16s (wa : Nat) {wu : Nat} (h : 2 ≤ wu) : Narrow u16s wa wu :=
  (narrow_u16 wa h).bind fun _ => .pure _ _ _

theorem narrow_u24 (wa : Nat) {wu : Nat} (h : 3 ≤ wu) : Narrow u24 wa wu :=
  (narrow_unalignedRead h).bind fun _ => .pure _ _ _

theorem narrow_axy {wa : Nat} (wu : Nat) (h : 1 ≤ wa) : Narrow axy wa wu :=
  (narrow_a8 wu h).bind fun _ => (narrow_a8 wu h).bind fun _ => (narrow_get _ _).bind fun _ => .pure _ _ _

theorem narrow_uxy (wa : Nat) {wu : Nat} (h : 1 ≤ wu) : Narrow uxy wa wu :=
  (narrow_u8 wa h).bind fun _ => (narrow_u8 wa h).bind fun _ => (narrow_get _ _).bind fun _ => .pure _ _ _

theorem narrow_copy8 (src : Int) (wa wu : Nat) : Narrow (copy8 src) wa wu :=
  .loop fun _ => .loop fun _ => (narrow_get _ _).bind fun _ => (narrow_prev _ _ _).bind fun _ => narrow_pix _ _ _ _ _

theorem narrow_copy4 (q : Nat) (src : Int) (wa wu : Nat) : Narrow (copy4 q src) wa wu :=
  .loop fun _ => .loop fun _ => (narrow_get _ _).bind fun _ => (narrow_prev _ _ _).bind fun _ => narrow_qpix _ _ _ _ _ _

theorem narrow_packedRow {w : Nat} (k : List Byte) (n : Nat) (v : BitVec w) (r wa wu : Nat) :
    Narrow (packedRow k n v r) wa wu := .loop fun _ => narrow_pix _ _ _ _ _

theorem narrow_packedQuad {w : Nat} (k : List Byte) (n : Nat) (v : BitVec w) (q d c wa wu : Nat) :
    Narrow (packedQuad k n v q d c) wa wu := .loop fun _ => narrow_qpix _ _ _ _ _ _

theorem narrow_nextNibble (wa : Nat) {wu : Nat} (h : 1 ≤ wu) : Narrow nextNibble wa wu :=
  (narrow_get _ _).bind fun _ => .ite
    ((narrow_modify _ _ _).bind fun _ => (narrow_get _ _).bind fun _ => .pure _ _ _)
    ((narrow_u8 wa h).bind fun _ => (narrow_modify _ _ _).bind fun _ => .pure _ _ _)

theorem narrow_maskLoop (pos : Traversal) {next : Exec Byte} {wa wu : Nat} (ha : 1 ≤ wa) (h : Narrow next wa wu) :
    Narrow (maskLoop pos next) wa wu :=
  .loop fun i => (narrow_a8 wu ha).bind fun m => .loop fun j => by
    have hp : Narrow (do pix (pos i j).1 (pos i j).2 (← get).lastColor) wa wu :=
      (narrow_get _ _).bind fun _ => narrow_pix _ _ _ _ _
    dsimp only
    split
    · exact h.bind fun _ => (narrow_modify _ _ _).bind fun _ => hp
    · exact hp

theorem narrow_update4 {wa wu : Nat} (ha : 1 ≤ wa) (hu : 3 ≤ wu) : Narrow update4 wa wu :=
  (narrow_u24 wa hu).bind fun _ => .loop fun _ => (narrow_a8 wu ha).bind fun _ => narrow_pix _ _ _ _ _

theorem narrow_update8 {wa wu : Nat} (ha : 1 ≤ wa) (hu : 3 ≤ wu) : Narrow update8 wa wu :=
  (narrow_update4 ha hu).bind fun _ => narrow_update4 ha hu

theorem narrow_update16 {wa wu : Nat} (ha : 1 ≤ wa) (hu : 1 ≤ wu) : Narrow update16 wa wu :=
  .loop fun _ => (narrow_a8 wu ha).bind fun _ => .loop fun _ =>
    .ite ((narrow_u8 wa hu).bind fun _ => narrow_pix _ _ _ _ _) (.pure _ _ _)

/-! ### An overrun in the first read -/

theorem bind_error {α β : Type} {f : Exec α} {g : α → Exec β} {t u : State} {e : Overrun} (h : f t = .error e u) :
    (f >>= g) t = .error e u := by
  show EStateM.bind f g t = _
  unfold EStateM.bind; rw [h]

theorem forUpTo_error {n : Nat} {f : Nat → Exec Unit} {t u : State} {e : Overrun} (h : f 0 t = .error e u) :
    forUpTo (n + 1) f t = .error e u := by
  induction n with
  | zero => exact h
  | succ n ih => exact bind_error ih

theorem alignedRead_overrun {t : State} {n : Nat} (h : t.payloadLen.toNat < t.alnPtr.toNat + n) :
    alignedRead n t = .error { stream := .aligned, addr := t.alnPtr.toNat } t :=
  bind_error (f := plRead t.alnPtr.toNat n .aligned) (plRead_overrun h)

theorem unalignedRead_overrun {t : State} {n : Nat} (h : t.payloadLen.toNat < t.unaPtr.toNat + n) :
    unalignedRead n t = .error { stream := .unaligned, addr := t.unaPtr.toNat } t :=
  bind_error (f := plRead t.unaPtr.toNat n .unaligned) (plRead_overrun h)

theorem update4_overrun {t : State} (h : t.payloadLen.toNat < t.unaPtr.toNat + 3) :
    update4 t = .error { stream := .unaligned, addr := t.unaPtr.toNat } t :=
  bind_error (bind_error (unalignedRead_overrun h))

theorem update8_overrun {t : State} (h : t.payloadLen.toNat < t.unaPtr.toNat + 3) :
    update8 t = .error { stream := .unaligned, addr := t.unaPtr.toNat } t := bind_error (update4_overrun h)

theorem update16_overrun {t : State} (h : t.payloadLen.toNat < t.alnPtr.toNat + 1) :
    update16 t = .error { stream := .aligned, addr := t.alnPtr.toNat } t :=
  forUpTo_error (bind_error (bind_error (alignedRead_overrun h)))

/-! ### From a body to the statements about `exec` -/

/-- Only the opcode of the fault record says which instruction overran. -/
theorem State.overrunInStep_opcode (t : State) (op op' : BitVec 6) (e : Overrun) :
    t.overrunInStep op' e =
      { t.overrunInStep op e with fault := { (t.overrunInStep op e).fault with opcode := op' } } := by
  unfold State.overrunInStep State.faultEntry
  generalize t.freeTile = u
  rfl

/-- The overrun `e` of instruction `i`, taken in a state `t` that the tile has reached from `s`. -/
theorem State.overran {s t : State} {i : Instr} {e : Overrun} (ht : s.InTile t)
    (hr : s.ReadSome t i.alignedSize (s.unalignedNeed i))
    (hs : (e.stream = .aligned ∧ e.addr = t.alnPtr.toNat ∧ ¬ s.Fits s.alnPtr i.alignedSize)
      ∨ (e.stream = .unaligned ∧ e.addr = t.unaPtr.toNat ∧ ¬ s.Fits s.unaPtr (s.unalignedNeed i)))
    (hw : (e.stream = .aligned ∧ t.payloadLen.toNat < e.addr + i.widestAligned)
      ∨ (e.stream = .unaligned ∧ t.payloadLen.toNat < e.addr + i.widestUnaligned)) :
    s.Overran (t.overrunInStep i.opcode e) i := by
  obtain ⟨a, u, la, lu, fa, fu, pa, pu⟩ := hr
  obtain ⟨v, hv, -, va, vu, vf, ev⟩ := t.overrunInStep_spec i.opcode e
  have hsv := ht.trans hv
  have hkt := ht.kept
  rw [ev]
  refine ⟨?_, fun h => hkt.refOob h, hsv.2.1, hsv.2.2.1, ⟨a, u, la, lu, fa, fu, ?_, ?_⟩, ?_⟩
  · conv_lhs => rw [hsv.1]
    simp [hkt.tileIdx, hkt.done, hkt.errConfig, hkt.degraded]
  · show v.alnPtr.toNat = _
    rw [va, pa, State.toNat_advance fa]
  · show v.unaPtr.toNat = _
    rw [vu, pu, State.toNat_advance fu]
  · rw [hkt.payloadLen] at hw
    rcases hs with ⟨x, y, z⟩ | ⟨x, y, z⟩
    · refine .inl ⟨by simp [x, StreamId.code], by simp [y, va], z, ?_⟩
      rcases hw with ⟨-, w⟩ | ⟨x', -⟩
      · simpa [y, va] using w
      · rw [x] at x'; cases x'
    · refine .inr ⟨by simp [x, StreamId.code], by simp [y, vu], z, ?_⟩
      rcases hw with ⟨x', -⟩ | ⟨-, w⟩
      · rw [x] at x'; cases x'
      · simpa [y, vu] using w

/-- A body one of whose records does not fit ends in the overrun of its instruction. -/
theorem Runs.overran {i : Instr} {body : Exec Unit} {s : State} {A U : Nat} {Q : Unit → State → Prop}
    (h : Runs body s A U Q) (hA : A = i.alignedSize) (hU : U = s.unalignedNeed i)
    (hn : Narrow body i.widestAligned i.widestUnaligned) (hf : ¬ s.Readable i) :
    ∃ e t, body s = .error e t ∧ runTile i body s = .next (t.overrunInStep i.opcode e)
      ∧ s.Overran (t.overrunInStep i.opcode e) i := by
  subst hA hU
  have hc := h.came
  unfold runTile
  cases hr : body s with
  | ok v t => rw [hr] at hc; exact absurd ⟨hc.2.2.1, hc.2.2.2.1⟩ hf
  | error e t =>
    rw [hr] at hc
    exact ⟨e, t, rfl, rfl, State.overran hc.1 hc.2.2.1 hc.2.2.2 (hn.misses s e t hr)⟩

/-- The overruns of a composite, from what its base `f` and its overlay `g` can do. -/
theorem State.CompositeOverruns.of_runs {s : State} {b i : Instr} {f g : Exec Unit} {first : StreamId} {n A U : Nat}
    {Q R : Unit → State → Prop} (hb : exec b s = runTile b f s) (hi : exec i s = runTile i (f >>= fun _ => g) s)
    (hf : Runs f s b.alignedSize (s.unalignedNeed b) Q)
    (hg : ∀ t, s.InTile t → t.alnPtr = s.alnPtr + BitVec.ofNat 32 b.alignedSize →
      t.unaPtr = s.unaPtr + BitVec.ofNat 32 (s.unalignedNeed b) → s.Fits s.alnPtr b.alignedSize →
      s.Fits s.unaPtr (s.unalignedNeed b) → Q () t → Runs g t A U R)
    (hA : b.alignedSize + A = i.alignedSize) (hU : s.unalignedNeed b + U = s.unalignedNeed i)
    (nf : Narrow f b.widestAligned b.widestUnaligned) (ng : Narrow g i.widestAligned i.widestUnaligned)
    (ha : b.widestAligned ≤ i.widestAligned) (hu : b.widestUnaligned ≤ i.widestUnaligned)
    (hn : ∀ t : State, t.payloadLen.toNat < (if first = .aligned then t.alnPtr else t.unaPtr).toNat + n →
      g t = .error { stream := first, addr := (if first = .aligned then t.alnPtr else t.unaPtr).toNat } t) :
    s.CompositeOverruns b i first n := by
  have hc := Runs.bind (g := fun _ => g) hf fun _ t => hg t
  rw [hA, hU] at hc
  have hnc : Narrow (f >>= fun _ => g) i.widestAligned i.widestUnaligned := (nf.mono ha hu).bind fun _ => ng
  have hbind : (f >>= fun _ => g) s = EStateM.bind f (fun _ => g) s := rfl
  refine ⟨fun hr => ?_, fun hr hr' => ?_⟩
  · obtain ⟨e, t, he, h1, h2⟩ := Runs.overran (i := b) hf rfl rfl nf hr
    have hr' : ¬ s.Readable i := by
      unfold State.Readable; rw [← hA, ← hU]; exact fun h => hr ⟨h.1.mono, h.2.mono⟩
    obtain ⟨e', t', he', h1', h2'⟩ := Runs.overran (i := i) hc rfl rfl hnc hr'
    have e1 : (f >>= fun _ => g) s = .error e t := by rw [hbind, EStateM.bind, he]
    rw [e1] at he'
    cases he'
    have ho := t.overrunInStep_opcode b.opcode i.opcode e
    refine ⟨_, _, hb.trans h1, hi.trans h1', h2, h2', ?_, ?_, ?_, ?_⟩ <;> rw [ho]
  · obtain ⟨e, t, he, h1, h2⟩ := Runs.overran (i := i) hc rfl rfl hnc hr'
    have hfc := hf.came
    rw [hbind, EStateM.bind] at he
    have hk : (t.overrunInStep i.opcode e).alnPtr = t.alnPtr ∧ (t.overrunInStep i.opcode e).unaPtr = t.unaPtr := by
      obtain ⟨v, -, -, va, vu, -, ev⟩ := t.overrunInStep_spec i.opcode e
      rw [ev]; exact ⟨va, vu⟩
    cases hr0 : f s with
    | error x u => rw [hr0] at hfc; exact absurd hr (not_and_or.2 (hfc.2.2.2.imp (·.2.2) (·.2.2)))
    | ok v u =>
      rw [hr0] at he hfc
      obtain ⟨q1, -, q2, q3, q4, q5, q6⟩ := hfc
      have hgc := (hg u q1 q4 q5 q2 q3 q6).came
      have hgu : g u = .error e t := he
      rw [hgu] at hgc
      obtain ⟨x, y, -, -, fx, fy, px, py⟩ := hgc.2.2.1
      refine ⟨u, _, by rw [hb]; unfold runTile; rw [hr0], hi.trans h1, h2, ?_, ?_, fun hw => ?_⟩
      · rw [hk.1, px, State.toNat_advance fx]; exact Nat.le_add_right ..
      · rw [hk.2, py, State.toNat_advance fy]; exact Nat.le_add_right ..
      · rw [← q1.kept.payloadLen] at hw
        have hgn := hn u hw
        rw [hgu] at hgn
        cases hgn
        refine ⟨hk.1, hk.2, ?_⟩
        obtain ⟨v, -, -, -, -, -, ev⟩ := t.overrunInStep_spec i.opcode
          { stream := first, addr := (if first = .aligned then t.alnPtr else t.unaPtr).toNat }
        rw [ev]

end Sys2Proof.Machine
end

