-- ==== Sys2Proof/Laws/PerInstr.lean ====
section
/-!
SUPPORT. What holds of every instruction as syntax, instruction by instruction. Family `Record`: the shape of its operand
record.
-/

namespace Sys2Proof.Laws.Record

/-- The instruction is well formed, every aligned record is a whole number of 4-byte words (R104), and with any number
of set mask bits a record has at most 80 bytes in all (R372). -/
def Statement (i : Instr) : Prop :=
  i.wellFormed = true ∧ i.alignedSize % 4 = 0 ∧ ∀ ones, ones ≤ 64 → i.alignedSize + i.unalignedSize ones ≤ 80

/-- `Statement` by its largest case: no size shrinks as the number of set bits grows. -/
theorem of_full {i : Instr} (h : i.wellFormed = true ∧ i.alignedSize % 4 = 0 ∧ i.alignedSize + i.unalignedSize 64 ≤ 80)
    (hm : ∀ ones, ones ≤ 64 → i.unalignedSize ones ≤ i.unalignedSize 64) : Statement i :=
  ⟨h.1, h.2.1, fun ones ho => (Nat.add_le_add_left (hm ones ho) _).trans h.2.2⟩

theorem base_mono (b : Base) {ones : Nat} (h : ones ≤ 64) : b.unalignedSize ones ≤ b.unalignedSize 64 := by
  cases b <;> simp only [Base.unalignedSize] <;> omega

theorem overlay_mono (o : Overlay) {ones : Nat} (h : ones ≤ 64) : o.unalignedSize ones ≤ o.unalignedSize 64 := by
  cases o <;> simp only [Overlay.unalignedSize] <;> omega

theorem mono (i : Instr) (ones : Nat) (h : ones ≤ 64) : i.unalignedSize ones ≤ i.unalignedSize 64 := by
  unfold Instr.unalignedSize
  cases i.overlay with
  | none => exact Nat.add_le_add_right (base_mono _ h) _
  | some o => exact Nat.add_le_add (base_mono _ h) (overlay_mono o h)

theorem raw : Statement .raw := of_full (by decide) (mono _)
theorem zero : Statement .zero := of_full (by decide) (mono _)
theorem zeroU4 : Statement .zeroU4 := of_full (by decide) (mono _)
theorem zeroU8 : Statement .zeroU8 := of_full (by decide) (mono _)
theorem zeroU16 : Statement .zeroU16 := of_full (by decide) (mono _)
theorem shortMotion8 : Statement .shortMotion8 := of_full (by decide) (mono _)
theorem sm8U4 : Statement .sm8U4 := of_full (by decide) (mono _)
theorem sm8U8 : Statement .sm8U8 := of_full (by decide) (mono _)
theorem sm8U16 : Statement .sm8U16 := of_full (by decide) (mono _)
theorem motion8 : Statement .motion8 := of_full (by decide) (mono _)
theorem m8U4 : Statement .m8U4 := of_full (by decide) (mono _)
theorem m8U8 : Statement .m8U8 := of_full (by decide) (mono _)
theorem m8U16 : Statement .m8U16 := of_full (by decide) (mono _)
theorem shortMotion4 : Statement .shortMotion4 := of_full (by decide) (mono _)
theorem sm4U4 : Statement .sm4U4 := of_full (by decide) (mono _)
theorem sm4U8 : Statement .sm4U8 := of_full (by decide) (mono _)
theorem sm4U16 : Statement .sm4U16 := of_full (by decide) (mono _)
theorem motion4 : Statement .motion4 := of_full (by decide) (mono _)
theorem m4U4 : Statement .m4U4 := of_full (by decide) (mono _)
theorem m4U8 : Statement .m4U8 := of_full (by decide) (mono _)
theorem m4U16 : Statement .m4U16 := of_full (by decide) (mono _)
theorem singleFill : Statement .singleFill := of_full (by decide) (mono _)
theorem sfU4 : Statement .sfU4 := of_full (by decide) (mono _)
theorem sfU8 : Statement .sfU8 := of_full (by decide) (mono _)
theorem sfU16 : Statement .sfU16 := of_full (by decide) (mono _)
theorem fourFill : Statement .fourFill := of_full (by decide) (mono _)
theorem ffU4 : Statement .ffU4 := of_full (by decide) (mono _)
theorem ffU8 : Statement .ffU8 := of_full (by decide) (mono _)
theorem ffU16 : Statement .ffU16 := of_full (by decide) (mono _)
theorem oneBit : Statement .oneBit := of_full (by decide) (mono _)
theorem twoBit : Statement .twoBit := of_full (by decide) (mono _)
theorem threeBit : Statement .threeBit := of_full (by decide) (mono _)
theorem fourBit : Statement .fourBit := of_full (by decide) (mono _)
theorem oneBitSplit : Statement .oneBitSplit := of_full (by decide) (mono _)
theorem twoBitSplit : Statement .twoBitSplit := of_full (by decide) (mono _)
theorem threeBitSplit : Statement .threeBitSplit := of_full (by decide) (mono _)
theorem cross : Statement .cross := of_full (by decide) (mono _)
theorem prime : Statement .prime := of_full (by decide) (mono _)
theorem oneBank : Statement .oneBank := of_full (by decide) (mono _)
theorem twoBanks : Statement .twoBanks := of_full (by decide) (mono _)
theorem blockH : Statement .blockH := of_full (by decide) (mono _)
theorem blockV : Statement .blockV := of_full (by decide) (mono _)
theorem blockD1 : Statement .blockD1 := of_full (by decide) (mono _)
theorem blockD2 : Statement .blockD2 := of_full (by decide) (mono _)
theorem bank1H : Statement .bank1H := of_full (by decide) (mono _)
theorem bank1V : Statement .bank1V := of_full (by decide) (mono _)
theorem bank1D1 : Statement .bank1D1 := of_full (by decide) (mono _)
theorem bank1D2 : Statement .bank1D2 := of_full (by decide) (mono _)
theorem roMotion8 : Statement .roMotion8 := of_full (by decide) (mono _)
theorem rom8U4 : Statement .rom8U4 := of_full (by decide) (mono _)
theorem rom8U8 : Statement .rom8U8 := of_full (by decide) (mono _)
theorem rom8U16 : Statement .rom8U16 := of_full (by decide) (mono _)
theorem rcMotion8 : Statement .rcMotion8 := of_full (by decide) (mono _)
theorem rcm8U4 : Statement .rcm8U4 := of_full (by decide) (mono _)
theorem rcm8U8 : Statement .rcm8U8 := of_full (by decide) (mono _)
theorem rcm8U16 : Statement .rcm8U16 := of_full (by decide) (mono _)
theorem roMotion4 : Statement .roMotion4 := of_full (by decide) (mono _)
theorem rom4U4 : Statement .rom4U4 := of_full (by decide) (mono _)
theorem rom4U8 : Statement .rom4U8 := of_full (by decide) (mono _)
theorem rom4U16 : Statement .rom4U16 := of_full (by decide) (mono _)
theorem rcMotion4 : Statement .rcMotion4 := of_full (by decide) (mono _)
theorem rcm4U4 : Statement .rcm4U4 := of_full (by decide) (mono _)
theorem rcm4U8 : Statement .rcm4U8 := of_full (by decide) (mono _)
theorem rcm4U16 : Statement .rcm4U16 := of_full (by decide) (mono _)

end Sys2Proof.Laws.Record
end

