-- ==== Sys2Proof/Tests/Slice0.lean ====
section
/-!
SUPPORT. The model's own tests: ill-formed terms that WellFormed refuses, the opcode words of the spec, one step of each
instruction on the examples of its rule, the sequencer and the host port, and a witness for the hypotheses of each
statement. Expected values are those of the spec's examples, or are worked out by hand from the rule named.
-/

namespace Sys2Proof.Tests

open Sys2Proof.Machine

-- One theorem after the other: checked side by side, the kernel evaluations below take a thread and its stack each.
set_option Elab.async false

/-! ### WellFormed refuses -/

/-- Raw takes no overlay (R103). -/
theorem test_wf_raw_overlay : pairWellFormed .raw (some .update4) = false := by decide

/-- Nor does any base from OneBit on (R103). -/
theorem test_wf_block_overlay : pairWellFormed .blockH (some .update16) = false := by decide

/-- SingleFill reads one unaligned byte (R104): none is too few. -/
theorem test_wf_unaligned_short : TileLine.wellFormed ⟨.singleFill, [], []⟩ = false := by decide

/-- FourFill reads four aligned bytes (R104): five are too many. -/
theorem test_wf_aligned_long : TileLine.wellFormed ⟨.fourFill, [1, 2, 3, 4, 5], []⟩ = false := by decide

/-- Prime reads 1 + pc unaligned bytes (R104): with one mask bit set, one byte is too few and two are right. -/
theorem test_wf_mask_dependent :
    TileLine.wellFormed ⟨.prime, [0, 0, 0, 0, 0, 0, 0, 0x80], [0x77]⟩ = false ∧
    TileLine.wellFormed ⟨.prime, [0, 0, 0, 0, 0, 0, 0, 0x80], [0x77, 0x99]⟩ = true := by decide

/-- The masks of a +U16 composite stand behind the base's aligned record (R102). -/
theorem test_wf_overlay_masks :
    TileLine.wellFormed ⟨.ffU16, [1, 2, 3, 4, 1, 0, 0, 0, 0, 0, 0, 0], [9]⟩ = true ∧
    TileLine.wellFormed ⟨.ffU16, [1, 2, 3, 4, 1, 0, 0, 0, 0, 0, 0, 0], []⟩ = false := by decide

/-- Dimensions are positive multiples of 8 (R6). -/
theorem test_wf_dims :
    dimsWellFormed 0 8 = false ∧ dimsWellFormed 8 0 = false ∧ dimsWellFormed 12 8 = false ∧
    dimsWellFormed 8 20 = false ∧ dimsWellFormed 320 200 = true := by decide

/-- A frame has one line per tile (R100). -/
theorem test_wf_tile_count :
    FrameProgram.wellFormed ⟨16, 8, [⟨.zero, [], []⟩]⟩ = false ∧
    FrameProgram.wellFormed ⟨16, 8, [⟨.zero, [], []⟩, ⟨.zero, [], []⟩]⟩ = true := by decide

/-- A frame with an ill-formed line, or with illegal dimensions, is ill formed. -/
theorem test_wf_frame :
    FrameProgram.wellFormed ⟨8, 8, [⟨.singleFill, [], []⟩]⟩ = false ∧
    FrameProgram.wellFormed ⟨8, 9, [⟨.zero, [], []⟩]⟩ = false := by decide

/-! ### Decoding: every opcode word, written out in binary from the opcode map (R109) -/

theorem test_decode_motion :
    decodeBytes [0b00000001#8] = .ok .zero ∧
    decodeBytes [0b00000101#8] = .ok .shortMotion8 ∧
    decodeBytes [0b00001001#8] = .ok .motion8 ∧
    decodeBytes [0b00001101#8] = .ok .shortMotion4 ∧
    decodeBytes [0b00010001#8] = .ok .motion4 := by decide

theorem test_decode_relative_motion :
    decodeBytes [0b00110000#8] = .ok .roMotion8 ∧
    decodeBytes [0b00110100#8] = .ok .rcMotion8 ∧
    decodeBytes [0b00111000#8] = .ok .roMotion4 ∧
    decodeBytes [0b00111100#8] = .ok .rcMotion4 := by decide

theorem test_decode_fill_raw :
    decodeBytes [0b00000000#8] = .ok .raw ∧
    decodeBytes [0b00010101#8] = .ok .singleFill ∧
    decodeBytes [0b00011001#8] = .ok .fourFill := by decide

theorem test_decode_bitpacked :
    decodeBytes [0b00011101#8] = .ok .oneBit ∧
    decodeBytes [0b00011110#8] = .ok .twoBit ∧
    decodeBytes [0b00011111#8] = .ok .threeBit ∧
    decodeBytes [0b00100000#8] = .ok .fourBit ∧
    decodeBytes [0b00100001#8] = .ok .oneBitSplit ∧
    decodeBytes [0b00100010#8] = .ok .twoBitSplit ∧
    decodeBytes [0b00100011#8] = .ok .threeBitSplit := by decide

theorem test_decode_cross_prime_bank :
    decodeBytes [0b00100100#8] = .ok .cross ∧
    decodeBytes [0b00100101#8] = .ok .prime ∧
    decodeBytes [0b00100110#8] = .ok .oneBank ∧
    decodeBytes [0b00100111#8] = .ok .twoBanks := by decide

theorem test_decode_block :
    decodeBytes [0b00101000#8] = .ok .blockH ∧
    decodeBytes [0b00101001#8] = .ok .blockV ∧
    decodeBytes [0b00101010#8] = .ok .blockD1 ∧
    decodeBytes [0b00101011#8] = .ok .blockD2 ∧
    decodeBytes [0b00101100#8] = .ok .bank1H ∧
    decodeBytes [0b00101101#8] = .ok .bank1V ∧
    decodeBytes [0b00101110#8] = .ok .bank1D1 ∧
    decodeBytes [0b00101111#8] = .ok .bank1D2 := by decide

theorem test_decode_overlay_absolute :
    decodeBytes [0b00000010#8] = .ok .zeroU4 ∧
    decodeBytes [0b00000011#8] = .ok .zeroU8 ∧
    decodeBytes [0b00000100#8] = .ok .zeroU16 ∧
    decodeBytes [0b00000110#8] = .ok .sm8U4 ∧
    decodeBytes [0b00000111#8] = .ok .sm8U8 ∧
    decodeBytes [0b00001000#8] = .ok .sm8U16 ∧
    decodeBytes [0b00001010#8] = .ok .m8U4 ∧
    decodeBytes [0b00001011#8] = .ok .m8U8 ∧
    decodeBytes [0b00001100#8] = .ok .m8U16 ∧
    decodeBytes [0b00001110#8] = .ok .sm4U4 ∧
    decodeBytes [0b00001111#8] = .ok .sm4U8 ∧
    decodeBytes [0b00010000#8] = .ok .sm4U16 ∧
    decodeBytes [0b00010010#8] = .ok .m4U4 ∧
    decodeBytes [0b00010011#8] = .ok .m4U8 ∧
    decodeBytes [0b00010100#8] = .ok .m4U16 := by decide

theorem test_decode_overlay_fill :
    decodeBytes [0b00010110#8] = .ok .sfU4 ∧
    decodeBytes [0b00010111#8] = .ok .sfU8 ∧
    decodeBytes [0b00011000#8] = .ok .sfU16 ∧
    decodeBytes [0b00011010#8] = .ok .ffU4 ∧
    decodeBytes [0b00011011#8] = .ok .ffU8 ∧
    decodeBytes [0b00011100#8] = .ok .ffU16 := by decide

theorem test_decode_overlay_relative :
    decodeBytes [0b00110001#8] = .ok .rom8U4 ∧
    decodeBytes [0b00110010#8] = .ok .rom8U8 ∧
    decodeBytes [0b00110011#8] = .ok .rom8U16 ∧
    decodeBytes [0b00110101#8] = .ok .rcm8U4 ∧
    decodeBytes [0b00110110#8] = .ok .rcm8U8 ∧
    decodeBytes [0b00110111#8] = .ok .rcm8U16 ∧
    decodeBytes [0b00111001#8] = .ok .rom4U4 ∧
    decodeBytes [0b00111010#8] = .ok .rom4U8 ∧
    decodeBytes [0b00111011#8] = .ok .rom4U16 ∧
    decodeBytes [0b00111101#8] = .ok .rcm4U4 ∧
    decodeBytes [0b00111110#8] = .ok .rcm4U8 ∧
    decodeBytes [0b00111111#8] = .ok .rcm4U16 := by decide

/-- No byte, no instruction. -/
theorem test_decode_no_byte : decodeBytes [] = .error .noByte := by decide

/-- The two bits above the opcode belong to the next one (R100). -/
theorem test_decode_ignores_next : decodeBytes [0b11010101#8] = .ok .singleFill := by decide

/-- Opcodes 21, 25, 29, 40 pack to 55 D6 A1 by the byte table of R100: b0 = 01 010101, b1 = 1101 0110,
b2 = 101000 01. -/
theorem test_encode_packing :
    encodeStream [.singleFill, .fourFill, .oneBit, .blockH] = [0b01010101#8, 0b11010110#8, 0b10100001#8] := by decide

/-- A table word of eight bits. -/
theorem test_decodeTableWord : decodeTableWord 8 0x25 = some .prime ∧ decodeTableWord 0 0 = none := by decide

/-- `ALN_START` for 320×200 is 754 (R64), and for 16×16 it is 4 + roundup4(3). -/
theorem test_alnStart : alnStart 320 1000 = 754 ∧ alnStart 16 4 = 8 := by decide

/-! ### Small states -/

/-- Bytes listed from address `a` on. -/
def cells (a : Nat) (bs : List Byte) : Memory := bs.zipIdx.map fun p => (a + p.2, p.1)

/-- A BUSY state of a 16×16 frame, at the tile at `ofs`, whose payload is the aligned record and then the unaligned
one; the previous frame holds its own index at every pixel. -/
def tile (ofs : Nat) (aligned unaligned : List Byte) : State :=
  { State.reset with
    run := .busy, cfgWidth := 16, cfgHeight := 16
    pl := cells 0 (aligned ++ unaligned)
    payloadLen := BitVec.ofNat 32 (aligned.length + unaligned.length)
    alnPtr := 0, unaPtr := BitVec.ofNat 32 aligned.length
    tileOfs := BitVec.ofNat 32 ofs
    fb1 := cells 1 ((List.range 255).map fun i => BitVec.ofNat 8 (i + 1)) }

/-- A property of the next state. -/
def nextIs (o : Host.Outcome State Fault Refusal) (p : State → Bool) : Bool :=
  match o with
  | .next t => p t
  | .fault _ => false
  | .refused _ => false

/-- Row `r` of the tile, as numbers. -/
def row (t : State) (r : Nat) : List Nat := (List.range 8).map fun c => (t.byteAt .cur (t.pixAddr r c)).toNat

/-- The corners and the pixel (1, 1) of the tile: (0,0), (0,7), (1,1), (7,0), (7,7). -/
def corners (t : State) : List Nat :=
  [(0, 0), (0, 7), (1, 1), (7, 0), (7, 7)].map fun p => (t.byteAt .cur (t.pixAddr p.1 p.2)).toNat

/-- Both pointers stand at the end of their records. -/
def consumed (s t : State) (a u : Nat) : Bool :=
  t.alnPtr.toNat == s.alnPtr.toNat + a && t.unaPtr.toNat == s.unaPtr.toNat + u

/-! ### One step of each instruction -/

/-- R190: the record is the tile, row-major. -/
theorem test_raw :
    let s := tile 8 [0x00, 0x01, 0x02, 0x03, 0x04, 0x05, 0x06, 0x07, 0x08, 0x09, 0x0A, 0x0B, 0x0C, 0x0D, 0x0E, 0x0F,
      0x10, 0x11, 0x12, 0x13, 0x14, 0x15, 0x16, 0x17, 0x18, 0x19, 0x1A, 0x1B, 0x1C, 0x1D, 0x1E, 0x1F, 0x20, 0x21,
      0x22, 0x23, 0x24, 0x25, 0x26, 0x27, 0x28, 0x29, 0x2A, 0x2B, 0x2C, 0x2D, 0x2E, 0x2F, 0x30, 0x31, 0x32, 0x33,
      0x34, 0x35, 0x36, 0x37, 0x38, 0x39, 0x3A, 0x3B, 0x3C, 0x3D, 0x3E, 0x3F] []
    nextIs (exec .raw s) (fun t => row t 0 == [0, 1, 2, 3, 4, 5, 6, 7] && row t 7 == [56, 57, 58, 59, 60, 61, 62,
      63] && consumed s t 64 0) = true := by decide +kernel

/-- R161 at tile (1, 1): `PRV` at the same place. -/
theorem test_zero :
    let s := tile 136 [] []
    nextIs (exec .zero s) (fun t => row t 0 == [136, 137, 138, 139, 140, 141, 142, 143] && row t 7 == [248, 249, 250,
      251, 252, 253, 254, 255] && consumed s t 0 0) = true := by decide +kernel

/-- R162: vector byte 0x00 copies from TILE_OFS + 4 + 4*W. -/
theorem test_shortMotion8 :
    let s := tile 0 [] [0x00]
    nextIs (exec .shortMotion8 s) (fun t => row t 0 == [68, 69, 70, 71, 72, 73, 74, 75] && row t 7 == [180, 181, 182,
      183, 184, 185, 186, 187] && consumed s t 0 1) = true := by decide +kernel

/-- R162: vector byte 0xCC is the tile's own place. -/
theorem test_shortMotion8_signs :
    let s := tile 136 [] [0xCC]
    nextIs (exec .shortMotion8 s) (fun t => row t 0 == [136, 137, 138, 139, 140, 141, 142, 143] &&
      consumed s t 0 1) = true := by decide +kernel

/-- R163: operand 08 00 copies the block at index 8. -/
theorem test_motion8 :
    let s := tile 136 [] [0x08, 0x00]
    nextIs (exec .motion8 s) (fun t => row t 0 == [8, 9, 10, 11, 12, 13, 14, 15] && row t 7 == [120, 121, 122, 123,
      124, 125, 126, 127] && consumed s t 0 2) = true := by decide +kernel

/-- R163, R74: with operand `FF FF` every source is outside the frame, which sets `REF_OOB` and is no fault. -/
theorem test_motion8_outside :
    nextIs (exec .motion8 (tile 0 [] [0xFF, 0xFF])) (fun t => t.flags.refOob && decide (t.run = .busy)) = true := by
  decide +kernel

/-- R164 with W = 16: quadrants 0 to 2 stay, quadrant 3 copies from 68 + 2 + 2*W. -/
theorem test_shortMotion4 :
    let s := tile 0 [0xEE, 0xEE, 0xEE, 0x00] []
    nextIs (exec .shortMotion4 s) (fun t => row t 0 == [0, 1, 2, 3, 4, 5, 6, 7] && row t 4 == [64, 65, 66, 67, 102,
      103, 104, 105] && consumed s t 4 0) = true := by decide +kernel

/-- R165's example: quadrants from 76, 72, 12 and 8. -/
theorem test_motion4 :
    let s := tile 0 [0x4C, 0x00, 0x48, 0x00, 0x0C, 0x00, 0x08, 0x00] []
    nextIs (exec .motion4 s) (fun t => row t 0 == [76, 77, 78, 79, 72, 73, 74, 75] && row t 4 == [12, 13, 14, 15, 8,
      9, 10, 11] && consumed s t 8 0) = true := by decide +kernel

/-- R166: o = −BIAS8 = −68 is the tile's own place. -/
theorem test_roMotion8 :
    let s := tile 136 [] [0xBC, 0xFF]
    nextIs (exec .roMotion8 s) (fun t => row t 0 == [136, 137, 138, 139, 140, 141, 142, 143] &&
      consumed s t 0 2) = true := by decide +kernel

/-- R167's example: dx = −4, dy = −8 is −BIAS8. -/
theorem test_rcMotion8 :
    let s := tile 136 [] [0xFC, 0xF8]
    nextIs (exec .rcMotion8 s) (fun t => row t 0 == [136, 137, 138, 139, 140, 141, 142, 143] &&
      consumed s t 0 2) = true := by decide +kernel

/-- R168: o = −BIAS4 = −34 is the quadrant's own place; o = −33 is one pixel to the right of it. -/
theorem test_roMotion4 :
    let s := tile 0 [0xDE, 0xFF, 0xDE, 0xFF, 0xDE, 0xFF, 0xDF, 0xFF] []
    nextIs (exec .roMotion4 s) (fun t => row t 0 == [0, 1, 2, 3, 4, 5, 6, 7] && row t 4 == [64, 65, 66, 67, 69, 70,
      71, 72] && consumed s t 8 0) = true := by decide +kernel

/-- R169: dx = −2, dy = −4 is the quadrant's own place; dx = −1 is one pixel to the right of it. -/
theorem test_rcMotion4 :
    let s := tile 0 [0xFE, 0xFC, 0xFF, 0xFC, 0xFE, 0xFC, 0xFE, 0xFC] []
    nextIs (exec .rcMotion4 s) (fun t => row t 0 == [0, 1, 2, 3, 5, 6, 7, 8] && row t 4 == [64, 65, 66, 67, 68, 69,
      70, 71] && consumed s t 8 0) = true := by decide +kernel

/-- R191's example. -/
theorem test_singleFill :
    let s := tile 8 [] [0x11]
    nextIs (exec .singleFill s) (fun t => row t 0 == [17, 17, 17, 17, 17, 17, 17, 17] && row t 7 == [17, 17, 17, 17,
      17, 17, 17, 17] && consumed s t 0 1) = true := by decide +kernel

/-- R192's example. -/
theorem test_fourFill :
    let s := tile 8 [0x0A, 0x0B, 0x0C, 0x0D] []
    nextIs (exec .fourFill s) (fun t => row t 3 == [10, 10, 10, 10, 11, 11, 11, 11] && row t 4 == [12, 12, 12, 12, 13,
      13, 13, 13] && consumed s t 4 0) = true := by decide +kernel

/-- R201's example. -/
theorem test_oneBit :
    let s := tile 8 [0x0F, 0x0F, 0x0F, 0x0F, 0xF0, 0xF0, 0xF0, 0xF0] [0x20, 0x21]
    nextIs (exec .oneBit s) (fun t => row t 0 == [33, 33, 33, 33, 32, 32, 32, 32] && row t 7 == [32, 32, 32, 32, 33,
      33, 33, 33] && consumed s t 8 2) = true := by decide +kernel

/-- R202's example row, after seven rows of zeros. -/
theorem test_twoBit :
    let s := tile 8 [0x10, 0x11, 0x12, 0x13, 0x00, 0x00, 0x00, 0x00, 0x00, 0x00, 0x00, 0x00, 0x00, 0x00, 0x00, 0x00,
      0x00, 0x00, 0xE4, 0xE4] []
    nextIs (exec .twoBit s) (fun t => row t 6 == [16, 16, 16, 16, 16, 16, 16, 16] && row t 7 == [16, 17, 18, 19, 16,
      17, 18, 19] && consumed s t 20 0) = true := by decide +kernel

/-- R203's example row, as row 1. -/
theorem test_threeBit :
    let s := tile 8 [0x00, 0x00, 0x00, 0x88, 0xC6, 0xFA, 0x00, 0x00, 0x00, 0x00, 0x00, 0x00, 0x00, 0x00, 0x00, 0x00,
      0x00, 0x00, 0x00, 0x00, 0x00, 0x00, 0x00, 0x00] [0x30, 0x31, 0x32, 0x33, 0x34, 0x35, 0x36, 0x37]
    nextIs (exec .threeBit s) (fun t => row t 0 == [48, 48, 48, 48, 48, 48, 48, 48] && row t 1 == [48, 49, 50, 51, 52,
      53, 54, 55] && consumed s t 24 8) = true := by decide +kernel

/-- R204's example row, as row 1. -/
theorem test_fourBit :
    let s := tile 8 [0x00, 0x00, 0x00, 0x00, 0x10, 0x32, 0x54, 0x76, 0x00, 0x00, 0x00, 0x00, 0x00, 0x00, 0x00, 0x00,
      0x00, 0x00, 0x00, 0x00, 0x00, 0x00, 0x00, 0x00, 0x00, 0x00, 0x00, 0x00, 0x00, 0x00, 0x00, 0x00] [0x40, 0x41,
      0x42, 0x43, 0x44, 0x45, 0x46, 0x47, 0x48, 0x49, 0x4A, 0x4B, 0x4C, 0x4D, 0x4E, 0x4F]
    nextIs (exec .fourBit s) (fun t => row t 0 == [64, 64, 64, 64, 64, 64, 64, 64] && row t 1 == [64, 65, 66, 67, 68,
      69, 70, 71] && consumed s t 32 16) = true := by decide +kernel

/-- R205's example, as quadrant 1. -/
theorem test_oneBitSplit :
    let s := tile 8 [0x00, 0x00, 0x01, 0x02, 0xF0, 0x00, 0x20, 0x21, 0x00, 0x00, 0x03, 0x04, 0x00, 0x00, 0x05, 0x06] []
    nextIs (exec .oneBitSplit s) (fun t => row t 0 == [1, 1, 1, 1, 32, 32, 32, 32] && row t 1 == [1, 1, 1, 1, 33, 33,
      33, 33] && consumed s t 16 0) = true := by decide +kernel

/-- R206's example, as quadrant 2. -/
theorem test_twoBitSplit :
    let s := tile 8 [0x00, 0x00, 0x00, 0x00, 0x01, 0x02, 0x03, 0x04, 0x00, 0x00, 0x00, 0x00, 0x05, 0x06, 0x07, 0x08,
      0xE4, 0xE4, 0xE4, 0xE4, 0x10, 0x11, 0x12, 0x13, 0x00, 0x00, 0x00, 0x00, 0x09, 0x0A, 0x0B, 0x0C] []
    nextIs (exec .twoBitSplit s) (fun t => row t 3 == [1, 1, 1, 1, 5, 5, 5, 5] && row t 4 == [16, 17, 18, 19, 9, 9, 9,
      9] && consumed s t 32 0) = true := by decide +kernel

/-- R207's example, as quadrant 0. -/
theorem test_threeBitSplit :
    let s := tile 8 [0x88, 0xC6, 0xFA, 0x00, 0x00, 0x00, 0x00, 0x00, 0x00, 0x00, 0x00, 0x00, 0x00, 0x00, 0x00, 0x00,
      0x00, 0x00, 0x00, 0x00, 0x00, 0x00, 0x00, 0x00] [0x30, 0x31, 0x32, 0x33, 0x34, 0x35, 0x36, 0x37, 0x01, 0x01,
      0x01, 0x01, 0x01, 0x01, 0x01, 0x01, 0x02, 0x02, 0x02, 0x02, 0x02, 0x02, 0x02, 0x02, 0x03, 0x03, 0x03, 0x03,
      0x03, 0x03, 0x03, 0x03]
    nextIs (exec .threeBitSplit s) (fun t => row t 0 == [48, 49, 50, 51, 1, 1, 1, 1] && row t 1 == [52, 53, 54, 55, 1,
      1, 1, 1] && consumed s t 24 32) = true := by decide +kernel

/-- R221 with a sample table that selects by `d` modulo 4 (the table itself is a parameter). -/
theorem test_cross_by_index :
    let s := tile 8 [0xA0, 0xA1, 0xA2, 0xA3, 0xB0, 0xB1, 0xB2, 0xB3, 0xC0, 0xC1, 0xC2, 0xC3, 0xD0, 0xD1, 0xD2, 0xD3,
      0x11, 0x22, 0x33, 0x44] []
    nextIs (runTile .cross (crossWith fun d _ => Fin.ofNat 4 d.val) s) (fun t => row t 0 == [160, 161, 162, 163, 176,
      177, 178, 179] && row t 7 == [192, 193, 194, 195, 208, 209, 210, 211] &&
      consumed s t 20 0) = true := by decide +kernel

/-- R221 with a sample table that selects by the slice modulo 4: slices 0x11, 0x22, 0x33, 0x44. -/
theorem test_cross_by_value :
    let s := tile 8 [0xA0, 0xA1, 0xA2, 0xA3, 0xB0, 0xB1, 0xB2, 0xB3, 0xC0, 0xC1, 0xC2, 0xC3, 0xD0, 0xD1, 0xD2, 0xD3,
      0x11, 0x22, 0x33, 0x44] []
    nextIs (runTile .cross (crossWith fun _ v => Fin.ofNat 4 v.toNat) s) (fun t => row t 0 == [161, 161, 161, 161,
      178, 178, 178, 178] && row t 7 == [195, 195, 195, 195, 208, 208, 208, 208] &&
      consumed s t 20 0) = true := by decide +kernel

/-- R222's example. -/
theorem test_prime :
    let s := tile 8 [0x00, 0x00, 0x00, 0x00, 0x00, 0x00, 0x00, 0x80] [0x77, 0x99]
    nextIs (exec .prime s) (fun t => row t 0 == [119, 119, 119, 119, 119, 119, 119, 119] && row t 7 == [119, 119, 119,
      119, 119, 119, 119, 153] && consumed s t 8 2) = true := by decide +kernel

/-- R226's example byte. -/
theorem test_oneBank :
    let s := tile 8 [0x21, 0x00, 0x00, 0x00, 0x00, 0x00, 0x00, 0x00, 0x00, 0x00, 0x00, 0x00, 0x00, 0x00, 0x00, 0x00,
      0x00, 0x00, 0x00, 0x00, 0x00, 0x00, 0x00, 0x00, 0x00, 0x00, 0x00, 0x00, 0x00, 0x00, 0x00, 0x00] [0x05]
    nextIs (exec .oneBank s) (fun t => row t 0 == [81, 82, 80, 80, 80, 80, 80, 80] && t.bank == 0x50 &&
      consumed s t 32 1) = true := by decide +kernel

/-- R227's example row, as row 7. -/
theorem test_twoBanks :
    let s := tile 8 [0x00, 0x00, 0x00, 0x00, 0x00, 0x00, 0x00, 0x00, 0x00, 0x00, 0x00, 0x00, 0x00, 0x00, 0x00, 0x00,
      0x00, 0x00, 0x00, 0x00, 0x00, 0x00, 0x00, 0x00, 0x00, 0x00, 0x00, 0x00, 0x00, 0x00, 0x00, 0x00, 0x00, 0x00,
      0x00, 0x20, 0x8A, 0x49, 0xAA, 0xB9] [0x21]
    nextIs (exec .twoBanks s) (fun t => row t 6 == [16, 16, 16, 16, 16, 16, 16, 16] && row t 7 == [16, 33, 18, 35, 20,
      37, 22, 39] && consumed s t 40 1) = true := by decide +kernel

/-- R242's example. -/
theorem test_blockH :
    let s := tile 8 [0x11, 0x00, 0x00, 0x00, 0x00, 0x00, 0x00, 0x00] [0x30, 0x31]
    nextIs (exec .blockH s) (fun t => row t 0 == [48, 48, 48, 48, 49, 49, 49, 49] && row t 7 == [49, 49, 49, 49, 49,
      49, 49, 49] && consumed s t 8 2) = true := by decide +kernel

/-- R243's example. -/
theorem test_blockV :
    let s := tile 8 [0x01, 0x00, 0x00, 0x00, 0x01, 0x00, 0x00, 0x00] [0x30, 0x31]
    nextIs (exec .blockV s) (fun t => row t 0 == [48, 48, 48, 48, 49, 49, 49, 49] && row t 7 == [48, 48, 48, 48, 49,
      49, 49, 49] && consumed s t 8 2) = true := by decide +kernel

/-- R240 along a sample table that runs backwards (DIAG1 and DIAG2 are parameters); opcodes 42 and 43 are this loop. -/
theorem test_blockD_sample_table :
    let s := tile 8 [0x11, 0x00, 0x00, 0x00, 0x00, 0x00, 0x00, 0x00] [0x30, 0x31]
    nextIs (runTile .blockD1 (runMask (posTable fun k => Fin.ofNat 64 (63 - k.val))) s) (fun t => row t 7 == [49, 49,
      49, 49, 48, 48, 48, 48] && row t 0 == [49, 49, 49, 49, 49, 49, 49, 49] &&
      consumed s t 8 2) = true := by decide +kernel

/-- R244, R245: what opcodes 42 and 43 read does not depend on the tables. -/
theorem test_blockD_consumes :
    let s := tile 8 [0x11, 0, 0, 0, 0, 0, 0, 0] [0x30, 0x31]
    (nextIs (exec .blockD1 s) (fun t => consumed s t 8 2 && t.lastColor == 0x31)
      && nextIs (exec .blockD2 s) (fun t => consumed s t 8 2 && t.lastColor == 0x31)) = true := by decide +kernel

/-- R248's example. -/
theorem test_bank1H :
    let s := tile 8 [0x07, 0x00, 0x00, 0x00, 0x00, 0x00, 0x00, 0x00] [0x05, 0x21, 0x03]
    nextIs (exec .bank1H s) (fun t => row t 0 == [81, 82, 83, 83, 83, 83, 83, 83] && t.nibFlag &&
      consumed s t 8 3) = true := by decide +kernel

/-- R249's example. -/
theorem test_bank1V :
    let s := tile 8 [0x01, 0x00, 0x00, 0x00, 0x01, 0x00, 0x00, 0x00] [0x05, 0x21]
    nextIs (exec .bank1V s) (fun t => row t 0 == [81, 81, 81, 81, 82, 82, 82, 82] && row t 7 == [81, 81, 81, 81, 82,
      82, 82, 82] && consumed s t 8 2) = true := by decide +kernel

/-- R247 along a sample table that runs backwards; opcodes 46 and 47 are this loop. -/
theorem test_bank1D_sample_table :
    let s := tile 8 [0x07, 0x00, 0x00, 0x00, 0x00, 0x00, 0x00, 0x00] [0x05, 0x21, 0x03]
    nextIs (runTile .bank1D1 (bank1 (posTable fun k => Fin.ofNat 64 (63 - k.val))) s) (fun t => row t 7 == [83, 83,
      83, 83, 83, 83, 82, 81] && row t 0 == [83, 83, 83, 83, 83, 83, 83, 83] &&
      consumed s t 8 3) = true := by decide +kernel

/-- R250, R251: what opcodes 46 and 47 read does not depend on the tables. -/
theorem test_bank1D_consumes :
    let s := tile 8 [0x07, 0, 0, 0, 0, 0, 0, 0] [0x05, 0x21, 0x03]
    (nextIs (exec .bank1D1 s) (fun t => consumed s t 8 3 && t.lastColor == 0x53)
      && nextIs (exec .bank1D2 s) (fun t => consumed s t 8 3 && t.lastColor == 0x53)) = true := by decide +kernel

/-- R274's example record, at the tile at offset 136 of a 16×16 frame. -/
theorem test_zeroU4 :
    let s := tile 136 [0xE0, 0xE1, 0xE2, 0xE3] [0xC0, 0x81, 0xFF]
    nextIs (exec .zeroU4 s) (fun t => corners t == [224, 225, 153, 226, 227] &&
      consumed s t 4 3) = true := by decide +kernel

/-- R275's example record, at the tile at offset 136 of a 16×16 frame. -/
theorem test_zeroU8 :
    let s := tile 136 [0xE0, 0xE1, 0xE2, 0xE3, 0xF0, 0xF1, 0xF2, 0xF3] [0xC0, 0x81, 0xFF, 0x09, 0x00, 0x00]
    nextIs (exec .zeroU8 s) (fun t => corners t == [243, 225, 240, 226, 227] &&
      consumed s t 8 6) = true := by decide +kernel

/-- R276's example record, at the tile at offset 136 of a 16×16 frame. -/
theorem test_zeroU16 :
    let s := tile 136 [0x01, 0x00, 0x00, 0x00, 0x00, 0x00, 0x00, 0x80] [0xE0, 0xE1]
    nextIs (exec .zeroU16 s) (fun t => corners t == [224, 143, 153, 248, 225] &&
      consumed s t 8 2) = true := by decide +kernel

/-- R277's example record, at the tile at offset 136 of a 16×16 frame. -/
theorem test_sm8U4 :
    let s := tile 136 [0xE0, 0xE1, 0xE2, 0xE3] [0xCC, 0xC0, 0x81, 0xFF]
    nextIs (exec .sm8U4 s) (fun t => corners t == [224, 225, 153, 226, 227] &&
      consumed s t 4 4) = true := by decide +kernel

/-- R278's example record, at the tile at offset 136 of a 16×16 frame. -/
theorem test_sm8U8 :
    let s := tile 136 [0xE0, 0xE1, 0xE2, 0xE3, 0xF0, 0xF1, 0xF2, 0xF3] [0xCC, 0xC0, 0x81, 0xFF, 0x09, 0x00, 0x00]
    nextIs (exec .sm8U8 s) (fun t => corners t == [243, 225, 240, 226, 227] &&
      consumed s t 8 7) = true := by decide +kernel

/-- R279's example record, at the tile at offset 136 of a 16×16 frame. -/
theorem test_sm8U16 :
    let s := tile 136 [0x01, 0x00, 0x00, 0x00, 0x00, 0x00, 0x00, 0x80] [0xCC, 0xE0, 0xE1]
    nextIs (exec .sm8U16 s) (fun t => corners t == [224, 143, 153, 248, 225] &&
      consumed s t 8 3) = true := by decide +kernel

/-- R280's example record, at the tile at offset 136 of a 16×16 frame. -/
theorem test_m8U4 :
    let s := tile 136 [0xE0, 0xE1, 0xE2, 0xE3] [0x08, 0x00, 0xC0, 0x81, 0xFF]
    nextIs (exec .m8U4 s) (fun t => corners t == [224, 225, 25, 226, 227] &&
      consumed s t 4 5) = true := by decide +kernel

/-- R281's example record, at the tile at offset 136 of a 16×16 frame. -/
theorem test_m8U8 :
    let s := tile 136 [0xE0, 0xE1, 0xE2, 0xE3, 0xF0, 0xF1, 0xF2, 0xF3] [0x08, 0x00, 0xC0, 0x81, 0xFF, 0x09, 0x00, 0x00]
    nextIs (exec .m8U8 s) (fun t => corners t == [243, 225, 240, 226, 227] &&
      consumed s t 8 8) = true := by decide +kernel

/-- R282's example record, at the tile at offset 136 of a 16×16 frame. -/
theorem test_m8U16 :
    let s := tile 136 [0x01, 0x00, 0x00, 0x00, 0x00, 0x00, 0x00, 0x80] [0x08, 0x00, 0xE0, 0xE1]
    nextIs (exec .m8U16 s) (fun t => corners t == [224, 15, 25, 120, 225] &&
      consumed s t 8 4) = true := by decide +kernel

/-- R283's example record, at the tile at offset 136 of a 16×16 frame. -/
theorem test_sm4U4 :
    let s := tile 136 [0xEE, 0xEE, 0xEE, 0xEE, 0xE0, 0xE1, 0xE2, 0xE3] [0xC0, 0x81, 0xFF]
    nextIs (exec .sm4U4 s) (fun t => corners t == [224, 225, 153, 226, 227] &&
      consumed s t 8 3) = true := by decide +kernel

/-- R284's example record, at the tile at offset 136 of a 16×16 frame. -/
theorem test_sm4U8 :
    let s := tile 136 [0xEE, 0xEE, 0xEE, 0xEE, 0xE0, 0xE1, 0xE2, 0xE3, 0xF0, 0xF1, 0xF2, 0xF3] [0xC0, 0x81, 0xFF,
      0x09, 0x00, 0x00]
    nextIs (exec .sm4U8 s) (fun t => corners t == [243, 225, 240, 226, 227] &&
      consumed s t 12 6) = true := by decide +kernel

/-- R285's example record, at the tile at offset 136 of a 16×16 frame. -/
theorem test_sm4U16 :
    let s := tile 136 [0xEE, 0xEE, 0xEE, 0xEE, 0x01, 0x00, 0x00, 0x00, 0x00, 0x00, 0x00, 0x80] [0xE0, 0xE1]
    nextIs (exec .sm4U16 s) (fun t => corners t == [224, 143, 153, 248, 225] &&
      consumed s t 12 2) = true := by decide +kernel

/-- R286's example record, at the tile at offset 136 of a 16×16 frame. -/
theorem test_m4U4 :
    let s := tile 136 [0x4C, 0x00, 0x48, 0x00, 0x0C, 0x00, 0x08, 0x00, 0xE0, 0xE1, 0xE2, 0xE3] [0xC0, 0x81, 0xFF]
    nextIs (exec .m4U4 s) (fun t => corners t == [224, 225, 93, 226, 227] &&
      consumed s t 12 3) = true := by decide +kernel

/-- R287's example record, at the tile at offset 136 of a 16×16 frame. -/
theorem test_m4U8 :
    let s := tile 136 [0x4C, 0x00, 0x48, 0x00, 0x0C, 0x00, 0x08, 0x00, 0xE0, 0xE1, 0xE2, 0xE3, 0xF0, 0xF1, 0xF2,
      0xF3] [0xC0, 0x81, 0xFF, 0x09, 0x00, 0x00]
    nextIs (exec .m4U8 s) (fun t => corners t == [243, 225, 240, 226, 227] &&
      consumed s t 16 6) = true := by decide +kernel

/-- R288's example record, at the tile at offset 136 of a 16×16 frame. -/
theorem test_m4U16 :
    let s := tile 136 [0x4C, 0x00, 0x48, 0x00, 0x0C, 0x00, 0x08, 0x00, 0x01, 0x00, 0x00, 0x00, 0x00, 0x00, 0x00,
      0x80] [0xE0, 0xE1]
    nextIs (exec .m4U16 s) (fun t => corners t == [224, 75, 93, 60, 225] &&
      consumed s t 16 2) = true := by decide +kernel

/-- R289's example record, at the tile at offset 136 of a 16×16 frame. -/
theorem test_sfU4 :
    let s := tile 136 [0xE0, 0xE1, 0xE2, 0xE3] [0x11, 0xC0, 0x81, 0xFF]
    nextIs (exec .sfU4 s) (fun t => corners t == [224, 225, 17, 226, 227] &&
      consumed s t 4 4) = true := by decide +kernel

/-- R290's example record, at the tile at offset 136 of a 16×16 frame. -/
theorem test_sfU8 :
    let s := tile 136 [0xE0, 0xE1, 0xE2, 0xE3, 0xF0, 0xF1, 0xF2, 0xF3] [0x11, 0xC0, 0x81, 0xFF, 0x09, 0x00, 0x00]
    nextIs (exec .sfU8 s) (fun t => corners t == [243, 225, 240, 226, 227] &&
      consumed s t 8 7) = true := by decide +kernel

/-- R291's example record, at the tile at offset 136 of a 16×16 frame. -/
theorem test_sfU16 :
    let s := tile 136 [0x01, 0x00, 0x00, 0x00, 0x00, 0x00, 0x00, 0x80] [0x11, 0xE0, 0xE1]
    nextIs (exec .sfU16 s) (fun t => corners t == [224, 17, 17, 17, 225] &&
      consumed s t 8 3) = true := by decide +kernel

/-- R292's example record, at the tile at offset 136 of a 16×16 frame. -/
theorem test_ffU4 :
    let s := tile 136 [0x0A, 0x0B, 0x0C, 0x0D, 0xE0, 0xE1, 0xE2, 0xE3] [0xC0, 0x81, 0xFF]
    nextIs (exec .ffU4 s) (fun t => corners t == [224, 225, 10, 226, 227] &&
      consumed s t 8 3) = true := by decide +kernel

/-- R293's example record, at the tile at offset 136 of a 16×16 frame. -/
theorem test_ffU8 :
    let s := tile 136 [0x0A, 0x0B, 0x0C, 0x0D, 0xE0, 0xE1, 0xE2, 0xE3, 0xF0, 0xF1, 0xF2, 0xF3] [0xC0, 0x81, 0xFF,
      0x09, 0x00, 0x00]
    nextIs (exec .ffU8 s) (fun t => corners t == [243, 225, 240, 226, 227] &&
      consumed s t 12 6) = true := by decide +kernel

/-- R294's example record, at the tile at offset 136 of a 16×16 frame. -/
theorem test_ffU16 :
    let s := tile 136 [0x0A, 0x0B, 0x0C, 0x0D, 0x01, 0x00, 0x00, 0x00, 0x00, 0x00, 0x00, 0x80] [0xE0, 0xE1]
    nextIs (exec .ffU16 s) (fun t => corners t == [224, 11, 10, 12, 225] &&
      consumed s t 12 2) = true := by decide +kernel

/-- R295's example record, at the tile at offset 136 of a 16×16 frame. -/
theorem test_rom8U4 :
    let s := tile 136 [0xE0, 0xE1, 0xE2, 0xE3] [0xBC, 0xFF, 0xC0, 0x81, 0xFF]
    nextIs (exec .rom8U4 s) (fun t => corners t == [224, 225, 153, 226, 227] &&
      consumed s t 4 5) = true := by decide +kernel

/-- R296's example record, at the tile at offset 136 of a 16×16 frame. -/
theorem test_rom8U8 :
    let s := tile 136 [0xE0, 0xE1, 0xE2, 0xE3, 0xF0, 0xF1, 0xF2, 0xF3] [0xBC, 0xFF, 0xC0, 0x81, 0xFF, 0x09, 0x00, 0x00]
    nextIs (exec .rom8U8 s) (fun t => corners t == [243, 225, 240, 226, 227] &&
      consumed s t 8 8) = true := by decide +kernel

/-- R297's example record, at the tile at offset 136 of a 16×16 frame. -/
theorem test_rom8U16 :
    let s := tile 136 [0x01, 0x00, 0x00, 0x00, 0x00, 0x00, 0x00, 0x80] [0xBC, 0xFF, 0xE0, 0xE1]
    nextIs (exec .rom8U16 s) (fun t => corners t == [224, 143, 153, 248, 225] &&
      consumed s t 8 4) = true := by decide +kernel

/-- R298's example record, at the tile at offset 136 of a 16×16 frame. -/
theorem test_rcm8U4 :
    let s := tile 136 [0xE0, 0xE1, 0xE2, 0xE3] [0xFC, 0xF8, 0xC0, 0x81, 0xFF]
    nextIs (exec .rcm8U4 s) (fun t => corners t == [224, 225, 153, 226, 227] &&
      consumed s t 4 5) = true := by decide +kernel

/-- R299's example record, at the tile at offset 136 of a 16×16 frame. -/
theorem test_rcm8U8 :
    let s := tile 136 [0xE0, 0xE1, 0xE2, 0xE3, 0xF0, 0xF1, 0xF2, 0xF3] [0xFC, 0xF8, 0xC0, 0x81, 0xFF, 0x09, 0x00, 0x00]
    nextIs (exec .rcm8U8 s) (fun t => corners t == [243, 225, 240, 226, 227] &&
      consumed s t 8 8) = true := by decide +kernel

/-- R300's example record, at the tile at offset 136 of a 16×16 frame. -/
theorem test_rcm8U16 :
    let s := tile 136 [0x01, 0x00, 0x00, 0x00, 0x00, 0x00, 0x00, 0x80] [0xFC, 0xF8, 0xE0, 0xE1]
    nextIs (exec .rcm8U16 s) (fun t => corners t == [224, 143, 153, 248, 225] &&
      consumed s t 8 4) = true := by decide +kernel

/-- R301's example record, at the tile at offset 136 of a 16×16 frame. -/
theorem test_rom4U4 :
    let s := tile 136 [0xDE, 0xFF, 0xDE, 0xFF, 0xDE, 0xFF, 0xDE, 0xFF, 0xE0, 0xE1, 0xE2, 0xE3] [0xC0, 0x81, 0xFF]
    nextIs (exec .rom4U4 s) (fun t => corners t == [224, 225, 153, 226, 227] &&
      consumed s t 12 3) = true := by decide +kernel

/-- R302's example record, at the tile at offset 136 of a 16×16 frame. -/
theorem test_rom4U8 :
    let s := tile 136 [0xDE, 0xFF, 0xDE, 0xFF, 0xDE, 0xFF, 0xDE, 0xFF, 0xE0, 0xE1, 0xE2, 0xE3, 0xF0, 0xF1, 0xF2,
      0xF3] [0xC0, 0x81, 0xFF, 0x09, 0x00, 0x00]
    nextIs (exec .rom4U8 s) (fun t => corners t == [243, 225, 240, 226, 227] &&
      consumed s t 16 6) = true := by decide +kernel

/-- R303's example record, at the tile at offset 136 of a 16×16 frame. -/
theorem test_rom4U16 :
    let s := tile 136 [0xDE, 0xFF, 0xDE, 0xFF, 0xDE, 0xFF, 0xDE, 0xFF, 0x01, 0x00, 0x00, 0x00, 0x00, 0x00, 0x00,
      0x80] [0xE0, 0xE1]
    nextIs (exec .rom4U16 s) (fun t => corners t == [224, 143, 153, 248, 225] &&
      consumed s t 16 2) = true := by decide +kernel

/-- R304's example record, at the tile at offset 136 of a 16×16 frame. -/
theorem test_rcm4U4 :
    let s := tile 136 [0xFE, 0xFC, 0xFE, 0xFC, 0xFE, 0xFC, 0xFE, 0xFC, 0xE0, 0xE1, 0xE2, 0xE3] [0xC0, 0x81, 0xFF]
    nextIs (exec .rcm4U4 s) (fun t => corners t == [224, 225, 153, 226, 227] &&
      consumed s t 12 3) = true := by decide +kernel

/-- R305's example record, at the tile at offset 136 of a 16×16 frame. -/
theorem test_rcm4U8 :
    let s := tile 136 [0xFE, 0xFC, 0xFE, 0xFC, 0xFE, 0xFC, 0xFE, 0xFC, 0xE0, 0xE1, 0xE2, 0xE3, 0xF0, 0xF1, 0xF2,
      0xF3] [0xC0, 0x81, 0xFF, 0x09, 0x00, 0x00]
    nextIs (exec .rcm4U8 s) (fun t => corners t == [243, 225, 240, 226, 227] &&
      consumed s t 16 6) = true := by decide +kernel

/-- R306's example record, at the tile at offset 136 of a 16×16 frame. -/
theorem test_rcm4U16 :
    let s := tile 136 [0xFE, 0xFC, 0xFE, 0xFC, 0xFE, 0xFC, 0xFE, 0xFC, 0x01, 0x00, 0x00, 0x00, 0x00, 0x00, 0x00,
      0x80] [0xE0, 0xE1]
    nextIs (exec .rcm4U16 s) (fun t => corners t == [224, 143, 153, 248, 225] &&
      consumed s t 16 2) = true := by decide +kernel

/-! ### The sequencer, faults and the host port -/

/-- R324: too short for both streams, OneBit reports the unaligned one, and neither pointer has moved. -/
theorem test_oneBit_overrun :
    nextIs (exec .oneBit { tile 8 [1, 2] [] with tileIdx := 1 })
      (fun t => decide (t.run = .halted ∧ t.flags.errOverrun = true
        ∧ t.fault = { kind := 1, tile := 1, opcode := 29, stream := 3, addr := 2 }
        ∧ t.alnPtr = 0 ∧ t.unaPtr = 2)) = true := by decide +kernel

/-- R321: the reads before the faulting one have moved the pointer, the faulting one has not. -/
theorem test_fourFill_overrun :
    nextIs (exec .fourFill (tile 8 [1, 2, 3] []))
      (fun t => decide (t.fault = { kind := 1, tile := 0, opcode := 25, stream := 2, addr := 3 } ∧
        t.alnPtr = 3)) = true := by
  decide +kernel

/-- A one-tile frame whose only opcode is SingleFill of 0x11, loaded at reset and not yet started. -/
def loaded : State :=
  { State.reset with
    cfgWidth := 8, cfgHeight := 8, payloadLen := 9
    pl := cells 0 [0x08, 0, 0, 0, 0x15, 0, 0, 0, 0x11] }

/-- Capacities for the tests. -/
def caps : Config.Caps := { fbCap := 256, plCap := 1024 }

/-- The same after START. -/
def started : State := loaded.hostWriteReg caps 0 1

/-- R132: the pointers after START, with `ALN_START` = 4 + roundup4(1) = 8. -/
theorem test_start :
    started.run = .busy ∧ started.unaPtr = 8 ∧ started.alnPtr = 8 ∧ started.colorOffset = 8 ∧ started.opcPtr = 4 := by
  decide +kernel

/-- R135, R139: the only step of that frame completes it. -/
theorem test_step_completes :
    nextIs (step started) (fun t => decide (t.run = .idle ∧ t.bufsel = true ∧ t.flags.done = true
      ∧ t.emitLog = [{ width := 8, height := 8, bytes := List.replicate 64 0x11 }]
      ∧ t.tileOfs = 64 ∧ t.tileY = 1 ∧ t.unaPtr = 9 ∧ t.opcnt = 3)) = true := by decide +kernel

/-- R322, R323: START straight after reset is a ConfigFault. -/
theorem test_start_unconfigured :
    (State.reset.hostWriteReg caps 0 1).run = .halted ∧ (State.reset.hostWriteReg caps 0 1).flags.errConfig = true ∧
    (State.reset.hostWriteReg caps 0 1).fault = { kind := 2, tile := 0, opcode := 0, stream := 0, addr := 0 } := by
  decide +kernel

/-- R132, R321: a payload of three bytes overruns on the head field. -/
theorem test_start_head_overrun :
    ({ loaded with payloadLen := 3 }.hostWriteReg caps 0 1).fault
      = { kind := 1, tile := 0, opcode := 0, stream := 0, addr := 0 } := by decide +kernel

/-- R351: CLEAR wins over START (R33) and leaves the configuration. -/
theorem test_clear :
    let t := { loaded with fb0 := [(3, 7)], run := .halted }.hostWriteReg caps 0 3
    t.fb0 = [] ∧ t.run = .idle ∧ t.cfgWidth = 8 := by decide +kernel

/-- R133, R137: after the first of four tiles `OPREG` holds three opcodes and the cursor is eight bytes on. -/
theorem test_step_advances :
    let s := { tile 0 [] [] with
      tileIdx := 0, opcPtr := 4, payloadLen := 7, pl := cells 0 [0, 0, 0, 0, 0x41, 0x10, 0x04] }
    nextIs (step s) (fun t => decide (t.run = .busy ∧ t.tileIdx = 1 ∧ t.tileX = 1 ∧ t.tileOfs = 8
      ∧ t.opreg = 0x1041 ∧ t.opcnt = 3 ∧ t.opcPtr = 7)) = true := by decide +kernel

/-- R31: `STATUS` with BUSY, REF_OOB and BUFSEL set is 0xA1. -/
theorem test_statusWord :
    let f := { StatusFlags.clear with refOob := true }
    State.statusWord { State.reset with run := .busy, bufsel := true, flags := f } = 0xA1 := by decide

/-- R61: a five-byte little-endian read (R67's `A40`). -/
theorem test_memRead : (tile 0 [0x20, 0x8A, 0x49, 0xAA, 0xB9] []).memRead .pl 0 5 = 0xB9AA498A20 := by decide +kernel

/-- The canonical form: writing 0x00 over a listed byte removes it. -/
theorem test_setFrameByte : Memory.setFrameByte [(1, 5), (2, 6)] 1 0 = [(2, 6)] := by decide

/-- `withFetchWord` from reset: the next step runs the word's instruction. -/
theorem test_withFetchWord :
    nextIs (step (State.reset.withFetchWord 8 0x15)) (fun t => decide (t.run = .idle ∧ t.unaPtr = 9)) = true := by
  decide +kernel

/-! ### Witnesses: a concrete state and operands for the hypotheses of each statement -/

/-- The 64 instructions. -/
def allInstrs : List Instr := (List.range 64).map fun k => decode (BitVec.ofNat 6 k)

/-- A BUSY state of a 16×16 frame with 200 payload bytes of 0xFF before both pointers' ends: every record fits. -/
def rich : State :=
  { tile 8 (List.replicate 100 0xFF) (List.replicate 100 0xFF) with tileIdx := 1, tileX := 1, opcnt := 3, opcPtr := 7 }

/-- The same with nothing left in the payload. -/
def poor : State := { rich with payloadLen := 0 }

theorem rich_width : 8 ≤ rich.width := by decide
theorem poor_width : 8 ≤ poor.width := by decide

/-- Every instruction's records fit in `rich`. -/
theorem rich_readable : ∀ i ∈ allInstrs, rich.Readable i := by decide +kernel

/-- No record of an instruction with operands fits in `poor`. -/
theorem poor_unreadable : ∀ i ∈ allInstrs, i ≠ .zero → ¬ poor.Readable i := by decide +kernel

theorem witness_RawResult : 8 ≤ rich.width ∧ 8 ≤ poor.width ∧
      rich.Readable .raw ∧ ¬ poor.Readable .raw :=
  ⟨rich_width, poor_width, rich_readable .raw (by decide), poor_unreadable .raw (by decide) (by decide)⟩

theorem witness_ShortMotion8Result : 8 ≤ rich.width ∧ 8 ≤ poor.width ∧
      rich.Readable .shortMotion8 ∧ ¬ poor.Readable .shortMotion8 :=
  ⟨rich_width, poor_width, rich_readable .shortMotion8 (by decide),
    poor_unreadable .shortMotion8 (by decide) (by decide)⟩

theorem witness_Motion8Result : 8 ≤ rich.width ∧ 8 ≤ poor.width ∧
      rich.Readable .motion8 ∧ ¬ poor.Readable .motion8 :=
  ⟨rich_width, poor_width, rich_readable .motion8 (by decide), poor_unreadable .motion8 (by decide) (by decide)⟩

theorem witness_ROMotion8Result : 8 ≤ rich.width ∧ 8 ≤ poor.width ∧
      rich.Readable .roMotion8 ∧ ¬ poor.Readable .roMotion8 :=
  ⟨rich_width, poor_width, rich_readable .roMotion8 (by decide), poor_unreadable .roMotion8 (by decide) (by decide)⟩

theorem witness_RCMotion8Result : 8 ≤ rich.width ∧ 8 ≤ poor.width ∧
      rich.Readable .rcMotion8 ∧ ¬ poor.Readable .rcMotion8 :=
  ⟨rich_width, poor_width, rich_readable .rcMotion8 (by decide), poor_unreadable .rcMotion8 (by decide) (by decide)⟩

theorem witness_ShortMotion4Result : 8 ≤ rich.width ∧ 8 ≤ poor.width ∧
      rich.Readable .shortMotion4 ∧ ¬ poor.Readable .shortMotion4 :=
  ⟨rich_width, poor_width, rich_readable .shortMotion4 (by decide),
    poor_unreadable .shortMotion4 (by decide) (by decide)⟩

theorem witness_Motion4Result : 8 ≤ rich.width ∧ 8 ≤ poor.width ∧
      rich.Readable .motion4 ∧ ¬ poor.Readable .motion4 :=
  ⟨rich_width, poor_width, rich_readable .motion4 (by decide), poor_unreadable .motion4 (by decide) (by decide)⟩

theorem witness_ROMotion4Result : 8 ≤ rich.width ∧ 8 ≤ poor.width ∧
      rich.Readable .roMotion4 ∧ ¬ poor.Readable .roMotion4 :=
  ⟨rich_width, poor_width, rich_readable .roMotion4 (by decide), poor_unreadable .roMotion4 (by decide) (by decide)⟩

theorem witness_RCMotion4Result : 8 ≤ rich.width ∧ 8 ≤ poor.width ∧
      rich.Readable .rcMotion4 ∧ ¬ poor.Readable .rcMotion4 :=
  ⟨rich_width, poor_width, rich_readable .rcMotion4 (by decide), poor_unreadable .rcMotion4 (by decide) (by decide)⟩

theorem witness_SingleFillResult : 8 ≤ rich.width ∧ 8 ≤ poor.width ∧
      rich.Readable .singleFill ∧ ¬ poor.Readable .singleFill :=
  ⟨rich_width, poor_width, rich_readable .singleFill (by decide), poor_unreadable .singleFill (by decide) (by decide)⟩

theorem witness_FourFillResult : 8 ≤ rich.width ∧ 8 ≤ poor.width ∧
      rich.Readable .fourFill ∧ ¬ poor.Readable .fourFill :=
  ⟨rich_width, poor_width, rich_readable .fourFill (by decide), poor_unreadable .fourFill (by decide) (by decide)⟩

theorem witness_OneBitResult : 8 ≤ rich.width ∧ 8 ≤ poor.width ∧
      rich.Readable .oneBit ∧ ¬ poor.Readable .oneBit :=
  ⟨rich_width, poor_width, rich_readable .oneBit (by decide), poor_unreadable .oneBit (by decide) (by decide)⟩

theorem witness_TwoBitResult : 8 ≤ rich.width ∧ 8 ≤ poor.width ∧
      rich.Readable .twoBit ∧ ¬ poor.Readable .twoBit :=
  ⟨rich_width, poor_width, rich_readable .twoBit (by decide), poor_unreadable .twoBit (by decide) (by decide)⟩

theorem witness_ThreeBitResult : 8 ≤ rich.width ∧ 8 ≤ poor.width ∧
      rich.Readable .threeBit ∧ ¬ poor.Readable .threeBit :=
  ⟨rich_width, poor_width, rich_readable .threeBit (by decide), poor_unreadable .threeBit (by decide) (by decide)⟩

theorem witness_FourBitResult : 8 ≤ rich.width ∧ 8 ≤ poor.width ∧
      rich.Readable .fourBit ∧ ¬ poor.Readable .fourBit :=
  ⟨rich_width, poor_width, rich_readable .fourBit (by decide), poor_unreadable .fourBit (by decide) (by decide)⟩

theorem witness_OneBitSplitResult : 8 ≤ rich.width ∧ 8 ≤ poor.width ∧
      rich.Readable .oneBitSplit ∧ ¬ poor.Readable .oneBitSplit :=
  ⟨rich_width, poor_width, rich_readable .oneBitSplit (by decide), poor_unreadable .oneBitSplit (by decide) (by decide)⟩

theorem witness_TwoBitSplitResult : 8 ≤ rich.width ∧ 8 ≤ poor.width ∧
      rich.Readable .twoBitSplit ∧ ¬ poor.Readable .twoBitSplit :=
  ⟨rich_width, poor_width, rich_readable .twoBitSplit (by decide), poor_unreadable .twoBitSplit (by decide) (by decide)⟩

theorem witness_ThreeBitSplitResult : 8 ≤ rich.width ∧ 8 ≤ poor.width ∧
      rich.Readable .threeBitSplit ∧ ¬ poor.Readable .threeBitSplit :=
  ⟨rich_width, poor_width, rich_readable .threeBitSplit (by decide),
    poor_unreadable .threeBitSplit (by decide) (by decide)⟩

theorem witness_CrossResult : 8 ≤ rich.width ∧ 8 ≤ poor.width ∧
      rich.Readable .cross ∧ ¬ poor.Readable .cross :=
  ⟨rich_width, poor_width, rich_readable .cross (by decide), poor_unreadable .cross (by decide) (by decide)⟩

theorem witness_PrimeResult : 8 ≤ rich.width ∧ 8 ≤ poor.width ∧
      rich.Readable .prime ∧ ¬ poor.Readable .prime :=
  ⟨rich_width, poor_width, rich_readable .prime (by decide), poor_unreadable .prime (by decide) (by decide)⟩

theorem witness_OneBankResult : 8 ≤ rich.width ∧ 8 ≤ poor.width ∧
      rich.Readable .oneBank ∧ ¬ poor.Readable .oneBank :=
  ⟨rich_width, poor_width, rich_readable .oneBank (by decide), poor_unreadable .oneBank (by decide) (by decide)⟩

theorem witness_TwoBanksResult : 8 ≤ rich.width ∧ 8 ≤ poor.width ∧
      rich.Readable .twoBanks ∧ ¬ poor.Readable .twoBanks :=
  ⟨rich_width, poor_width, rich_readable .twoBanks (by decide), poor_unreadable .twoBanks (by decide) (by decide)⟩

theorem witness_BlockHVResult : 8 ≤ rich.width ∧ 8 ≤ poor.width ∧
      rich.Readable .blockH ∧ ¬ poor.Readable .blockH ∧
      rich.Readable .blockV ∧ ¬ poor.Readable .blockV :=
  ⟨rich_width, poor_width, rich_readable .blockH (by decide), poor_unreadable .blockH (by decide) (by decide),
    rich_readable .blockV (by decide), poor_unreadable .blockV (by decide) (by decide)⟩

theorem witness_BlockD1D2Result : 8 ≤ rich.width ∧ 8 ≤ poor.width ∧
      rich.Readable .blockD1 ∧ ¬ poor.Readable .blockD1 ∧
      rich.Readable .blockD2 ∧ ¬ poor.Readable .blockD2 :=
  ⟨rich_width, poor_width, rich_readable .blockD1 (by decide), poor_unreadable .blockD1 (by decide) (by decide),
    rich_readable .blockD2 (by decide), poor_unreadable .blockD2 (by decide) (by decide)⟩

theorem witness_Bank1HVResult : 8 ≤ rich.width ∧ 8 ≤ poor.width ∧
      rich.Readable .bank1H ∧ ¬ poor.Readable .bank1H ∧
      rich.Readable .bank1V ∧ ¬ poor.Readable .bank1V :=
  ⟨rich_width, poor_width, rich_readable .bank1H (by decide), poor_unreadable .bank1H (by decide) (by decide),
    rich_readable .bank1V (by decide), poor_unreadable .bank1V (by decide) (by decide)⟩

theorem witness_Bank1D1D2Result : 8 ≤ rich.width ∧ 8 ≤ poor.width ∧
      rich.Readable .bank1D1 ∧ ¬ poor.Readable .bank1D1 ∧
      rich.Readable .bank1D2 ∧ ¬ poor.Readable .bank1D2 :=
  ⟨rich_width, poor_width, rich_readable .bank1D1 (by decide), poor_unreadable .bank1D1 (by decide) (by decide),
    rich_readable .bank1D2 (by decide), poor_unreadable .bank1D2 (by decide) (by decide)⟩

/-- Two pairs of the list: a base without operands, so that only the overlay's records can fail, its first read among
them, and one with an operand that fails. -/
theorem witness_Update4CompositeResult :
    8 ≤ rich.width ∧ rich.Readable .sfU4 ∧ 8 ≤ poor.width ∧ ¬ poor.Readable .singleFill ∧
    poor.Readable .zero ∧ ¬ poor.Readable .zeroU4 ∧
    poor.payloadLen.toNat < poor.unaPtr.toNat + 3 ∧ poor.payloadLen.toNat < poor.alnPtr.toNat + 1 :=
  ⟨rich_width, rich_readable .sfU4 (by decide), poor_width, poor_unreadable .singleFill (by decide) (by decide),
    by decide, poor_unreadable .zeroU4 (by decide) (by decide), by decide, by decide⟩

/-- Two pairs of the list: a base without operands, so that only the overlay's records can fail, its first read among
them, and one with an operand that fails. -/
theorem witness_Update8CompositeResult :
    8 ≤ rich.width ∧ rich.Readable .sfU8 ∧ 8 ≤ poor.width ∧ ¬ poor.Readable .singleFill ∧
    poor.Readable .zero ∧ ¬ poor.Readable .zeroU8 ∧
    poor.payloadLen.toNat < poor.unaPtr.toNat + 3 ∧ poor.payloadLen.toNat < poor.alnPtr.toNat + 1 :=
  ⟨rich_width, rich_readable .sfU8 (by decide), poor_width, poor_unreadable .singleFill (by decide) (by decide),
    by decide, poor_unreadable .zeroU8 (by decide) (by decide), by decide, by decide⟩

/-- Two pairs of the list: a base without operands, so that only the overlay's records can fail, its first read among
them, and one with an operand that fails. -/
theorem witness_Update16CompositeResult :
    8 ≤ rich.width ∧ rich.Readable .sfU16 ∧ 8 ≤ poor.width ∧ ¬ poor.Readable .singleFill ∧
    poor.Readable .zero ∧ ¬ poor.Readable .zeroU16 ∧
    poor.payloadLen.toNat < poor.unaPtr.toNat + 3 ∧ poor.payloadLen.toNat < poor.alnPtr.toNat + 1 :=
  ⟨rich_width, rich_readable .sfU16 (by decide), poor_width, poor_unreadable .singleFill (by decide) (by decide),
    by decide, poor_unreadable .zeroU16 (by decide) (by decide), by decide, by decide⟩

/-- The sequencer of a BUSY run at tile 0. -/
theorem started_ok : started.SequencerOk where
  dims := by decide +kernel
  tileIdx := by decide +kernel
  tileX := by decide +kernel
  index := by decide +kernel
  offset := by decide +kernel
  opcnt := by decide +kernel
  opcPtr := by decide +kernel
  opreg := fun _ _ _ _ h => absurd (by decide +kernel) h

/-- A 16×16 frame of four Zero tiles, between its first and its second step. -/
def second : State :=
  { tile 8 [] [] with
    tileIdx := 1, tileX := 1, opcPtr := 7, opcnt := 3, opreg := 0x1041
    payloadLen := 8, pl := cells 0 [8, 0, 0, 0, 0x41, 0x10, 0x04, 0], alnPtr := 8, unaPtr := 8 }

/-- The same before its last step. -/
def last : State :=
  { second with tileIdx := 3, tileX := 1, tileY := 1, tileOfs := 136, opcnt := 1, opreg := 1 }

/-- Its sequencer, in mid-triple and at the end of a tile row. -/
theorem second_ok : second.SequencerOk where
  dims := by decide +kernel
  tileIdx := by decide +kernel
  tileX := by decide +kernel
  index := by decide +kernel
  offset := by decide +kernel
  opcnt := by decide +kernel
  opcPtr := by decide +kernel
  opreg := by
    have h : ∀ k, k < 4 → 1 ≤ k → second.opreg.toNat / 2 ^ (6 * (k - second.tileIdx.toNat)) % 64
        = second.opcodeTriple k / 2 ^ (6 * (k % 4)) % 64 := by decide +kernel
    intro k h1 h2 _ _
    have e : second.tiles = 4 := by decide
    have e1 : second.tileIdx.toNat = 1 := by decide
    exact h k (by omega) (by omega)

/-- The sequencer before the last tile. -/
theorem last_ok : last.SequencerOk where
  dims := by decide +kernel
  tileIdx := by decide +kernel
  tileX := by decide +kernel
  index := by decide +kernel
  offset := by decide +kernel
  opcnt := by decide +kernel
  opcPtr := by decide +kernel
  opreg := by
    have h : ∀ k, k < 4 → 3 ≤ k → last.opreg.toNat / 2 ^ (6 * (k - last.tileIdx.toNat)) % 64
        = last.opcodeTriple k / 2 ^ (6 * (k % 4)) % 64 := by decide +kernel
    intro k h1 h2 _ _
    have e : last.tiles = 4 := by decide
    have e1 : last.tileIdx.toNat = 3 := by decide
    exact h k (by omega) (by omega)

theorem witness_ZeroResult : 8 ≤ second.width ∧ second.SequencerOk := ⟨by decide, second_ok⟩

/-- The first and the last bit of an opcode. -/
theorem witness_OpcodeBitsInStream : (0 : Nat) < 6 ∧ (5 : Nat) < 6 := by decide

/-- The ends of each range of opcodes, one bound apart: no opcode falls under two clauses. -/
theorem witness_OpcodeWordsDecodeRight :
    (1 ≤ (1#6).toNat ∧ (28#6).toNat ≤ 28) ∧ (48 ≤ (48#6).toNat ∧ 48 ≤ (63#6).toNat) ∧
    (0#6).toNat = 0 ∧ (29 ≤ (29#6).toNat ∧ (47#6).toNat ≤ 47) := by decide

/-- A program with operands in both streams and padding between opcodes and aligned stream. -/
def program : FrameProgram :=
  ⟨16, 8, [⟨.oneBit, [1, 2, 3, 4, 5, 6, 7, 8], [9, 10]⟩, ⟨.singleFill, [], [11]⟩]⟩

/-- Padding at offsets 6 and 7, eight aligned bytes and three unaligned ones: no range of the statement is empty. -/
theorem witness_AssembledPayloadLayout :
    program.wellFormed = true ∧ program.assemble.length < 2 ^ 32 ∧ 4 + opBytes 2 ≤ 6 ∧ 7 < alnStart 16 2 ∧
    (program.tiles.flatMap TileLine.aligned).length = 8 ∧ (program.tiles.flatMap TileLine.unaligned).length = 3 := by
  decide

theorem witness_StepRunsDecodedInstruction :
    started.run = .busy ∧ started.tileIdx.toNat < started.tiles ∧
    (match fetch started with
      | .ok op _ => decide (decode op = .singleFill)
      | .error _ _ => false) = true ∧ Instr.wellFormed .singleFill = true := by decide +kernel

/-- A refill, at tile 0, and a fetch without one, in mid-triple; the payload ends exactly with the opcode stream in
neither. -/
theorem witness_FetchGivesTileOpcode :
    (started.SequencerOk ∧ 4 + started.opBytes ≤ started.payloadLen.toNat) ∧
    second.SequencerOk ∧ 4 + second.opBytes ≤ second.payloadLen.toNat :=
  ⟨⟨started_ok, by decide +kernel⟩, second_ok, by decide +kernel⟩

/-- One byte short of the refill, and a fetch that needs none. -/
theorem witness_OpcodeRefillOverrun :
    let s := { started with payloadLen := 4 }
    (s.run = .busy ∧ s.tileIdx.toNat < s.tiles ∧ s.opcnt = 0 ∧
      s.payloadLen.toNat < s.opcPtr.toNat + min 3 (4 + s.opBytes - s.opcPtr.toNat)) ∧
    second.opcnt ≠ 0 := by decide +kernel

/-- Exactly no byte left, in either stream. -/
theorem witness_FirstReadOverrunIsReported :
    poor.payloadLen.toNat < poor.unaPtr.toNat + 1 ∧
    { poor with alnPtr := 0 }.payloadLen.toNat < { poor with alnPtr := 0 }.alnPtr.toNat + 1 := by decide

theorem witness_PixelWritesStayInFrame : last.SequencerOk := last_ok

/-- Mid-row, at the end of a row, and at the last tile. -/
theorem witness_AdvanceFollowsRasterOrder :
    (second.SequencerOk ∧ second.tileX.toNat + 1 = second.tilesPerRow) ∧
    (last.SequencerOk ∧ last.advance.tileIdx.toNat = last.tiles) ∧
    ∃ s : State, s.SequencerOk ∧ s.tileX.toNat + 1 ≠ s.tilesPerRow :=
  ⟨⟨second_ok, by decide +kernel⟩, ⟨last_ok, by decide +kernel⟩,
    { second with tileIdx := 2, tileX := 0, tileY := 1, tileOfs := 128, opcnt := 2, opreg := 0x41 },
    { dims := by decide +kernel, tileIdx := by decide +kernel, tileX := by decide +kernel, index := by decide +kernel
      offset := by decide +kernel, opcnt := by decide +kernel, opcPtr := by decide +kernel
      opreg := by
        have h : ∀ k, k < 4 → 2 ≤ k → (0x41#24).toNat / 2 ^ (6 * (k - (2#32).toNat)) % 64
            = second.opcodeTriple k / 2 ^ (6 * (k % 4)) % 64 := by decide +kernel
        intro k h1 h2 _ _
        have e : second.tiles = 4 := by decide
        have e1 : (2#32).toNat = 2 := by decide
        exact h k (by have : k < second.tiles := h2; omega) (by have : (2#32).toNat ≤ k := h1; omega) },
    by decide +kernel⟩

/-- A step that completes the frame, one that goes on, and one at the last tile that halts. -/
theorem witness_CompletionLogsAndSwaps :
    (last.run = .busy ∧ last.tileIdx.toNat + 1 = last.tiles ∧ nextIs (step last) (fun t => decide (t.run = .idle))) ∧
    (second.run = .busy ∧ nextIs (step second) (fun t => decide (t.run = .busy))) ∧
    nextIs (step { started with payloadLen := 8 }) (fun t => decide (t.run = .halted)) = true := by decide +kernel

/-- A step, and an address outside its tile. -/
theorem witness_StepLeavesInputsAlone :
    nextIs (step second) (fun _ => true) = true ∧ ∀ r, r < 8 → ∀ c, c < 8 → 0 ≠ second.pixAddr r c := by decide +kernel

theorem witness_StepKeepsInvariant : second.Inv ∧ nextIs (step second) (fun _ => true) = true :=
  ⟨⟨by decide +kernel, fun _ => second_ok⟩, by decide +kernel⟩

/-- START from a state with the invariant, a host write and a read during a run. -/
theorem witness_HostOperationsKeepInvariant :
    loaded.Inv ∧ nextIs (loaded.hostStep caps (.writeReg 0 1)) (fun t => decide (t.run = .busy)) = true ∧
    nextIs (loaded.hostStep caps (.writeMem .fb0 255 1)) (fun _ => true) = true ∧
    started.Inv ∧ nextIs (started.hostStep caps (.readReg 11)) (fun _ => true) = true :=
  ⟨⟨by decide +kernel, fun h => absurd h (by decide)⟩, by decide +kernel, by decide +kernel,
    ⟨by decide +kernel, fun _ => started_ok⟩, by decide +kernel⟩

theorem witness_RunEndsWithinTiles : second.run = .busy ∧ second.tileIdx.toNat < second.tiles := by decide +kernel

theorem witness_IdleOrHaltedStepDoesNothing : loaded.run ≠ .busy ∧ { loaded with run := .halted }.run ≠ .busy := by
  decide

/-- Both ways to meet the hypothesis, the second by a reset during a run. -/
theorem witness_ResetStateValues :
    (State.reset = State.reset ∨ ∃ s : State, State.reset = s.hostReset) ∧
    (second.hostReset = State.reset ∨ ∃ s : State, second.hostReset = s.hostReset) := ⟨.inl rfl, .inr ⟨second, rfl⟩⟩

/-- An unusable configuration by each reason, and a usable one at the bounds: 8×8 pixels in 64 bytes,
  the payload as long
as `PL`. -/
theorem witness_StartConfigFault :
    loaded.run ≠ .busy ∧ (1#32).getLsbD 0 = true ∧ (1#32).getLsbD 1 = false ∧
    { loaded with cfgWidth := 0 }.width = 0 ∧ { loaded with cfgHeight := 0 }.height = 0 ∧
    { loaded with cfgWidth := 9 }.width % 8 ≠ 0 ∧ { loaded with cfgHeight := 7 }.height % 8 ≠ 0 ∧
    loaded.width * loaded.height > 63 ∧ loaded.payloadLen.toNat > 8 ∧
    ¬ (loaded.width = 0 ∨ loaded.height = 0 ∨ loaded.width % 8 ≠ 0 ∨ loaded.height % 8 ≠ 0 ∨
      loaded.width * loaded.height > 64 ∨ loaded.payloadLen.toNat > 9) := by decide

/-- Payloads of four bytes and of three. -/
theorem witness_StartInitialisesRun :
    loaded.run ≠ .busy ∧ (1#32).getLsbD 0 = true ∧ (1#32).getLsbD 1 = false ∧ loaded.width ≠ 0 ∧ loaded.height ≠ 0 ∧
    loaded.width % 8 = 0 ∧ loaded.height % 8 = 0 ∧ loaded.width * loaded.height ≤ caps.fbCap ∧
    4 ≤ { loaded with payloadLen := 4 }.payloadLen.toNat ∧
      { loaded with payloadLen := 4 }.payloadLen.toNat ≤ caps.plCap ∧
    { loaded with payloadLen := 3 }.payloadLen.toNat < 4 := by decide

/-- The four values of the two command bits, and the two cases of `RUN`. -/
theorem witness_CtrlAndClear :
    started.run = .busy ∧ loaded.run ≠ .busy ∧ (2#32).getLsbD 1 = true ∧ (3#32).getLsbD 1 = true ∧
    ((0#32).getLsbD 1 = false ∧ (0#32).getLsbD 0 = false) ∧ ((1#32).getLsbD 1 = false ∧ (1#32).getLsbD 0 = true) ∧
    ((5#32).getLsbD 0 = (1#32).getLsbD 0 ∧ (5#32).getLsbD 1 = (1#32).getLsbD 1) := by decide +kernel

/-- The largest value of a 16-bit register. -/
theorem witness_ConfigurationRegistersReadBack :
    started.run = .busy ∧ loaded.run ≠ .busy ∧ (0xFFFF#32).toNat < 2 ^ 16 := by decide +kernel

/-- The ends of the register ranges: 10 and 11, 23 and 24; and of the ignored writes: 1 and 6. -/
theorem witness_RegisterReads :
    loaded.run ≠ .busy ∧ started.run = .busy ∧ (10 ≤ 10 ∧ 11 ≤ 11 ∧ 23 ≤ 23 ∧ 23 < 24) ∧ (1 = 1 ∨ 5 < 1) ∧
    (6 = 1 ∨ 5 < 6) := by decide +kernel

/-- The last byte of a memory, the first beyond it, and a run. -/
theorem witness_HostMemoryAccess :
    loaded.run ≠ .busy ∧ 255 < HostMem.capacity caps .fb1 ∧ HostMem.capacity caps .fb1 ≤ 256 ∧ started.run = .busy := by
  decide +kernel

/-- Two states that differ in a flag, the tag and a leftover register, and step. -/
theorem witness_FlagsAndLeftoversDoNotInfluence :
    let s' := { second with cfgCompressor := 1, lastColor := 7, flags := { second.flags with degraded := true } }
    s' = { second with
      flags := s'.flags, cfgCompressor := s'.cfgCompressor, colorOffset := s'.colorOffset, fault := s'.fault
      emitLog := s'.emitLog, lastColor := s'.lastColor, nibFlag := s'.nibFlag, nibByte := s'.nibByte
      bank := s'.bank } ∧ s' ≠ second ∧ nextIs (step second) (fun _ => true) = true := by decide +kernel

/-- The ends of the opcode ranges, and two states that differ in the previous frame only, for each role of the
memories. -/
theorem witness_KeyFrameOpcodesIgnorePrevious :
    (Instr.raw.opcode = 0 ∧ 21 ≤ Instr.singleFill.opcode.toNat ∧ Instr.bank1D2.opcode.toNat ≤ 47) ∧
    nextIs (exec .raw rich) (fun _ => true) = true ∧
    (let s' := { rich with fb1 := [] }
     s' = (if rich.bufsel then { rich with fb0 := s'.fb0 } else { rich with fb1 := s'.fb1 }) ∧ s' ≠ rich) ∧
    (let s := { rich with bufsel := true, fb0 := [(0, 1)] }
     let s' := { s with fb0 := [] }
     s' = (if s.bufsel then { s with fb0 := s'.fb0 } else { s with fb1 := s'.fb1 }) ∧ s' ≠ s) := by decide +kernel

end Sys2Proof.Tests
end

section
/-!
PROOFS. Two runs of one instruction, side by side. `Alike R P Q f f'` says of the computations `f` and `f'`, started in
states related by `R` whose primitive-local registers (R29) are related by `P`: both end with one value, or both overrun
in one read, and the states they reach are related by `R` again, with the registers related by `Q` if they ended. One
rule for each shared operation, one for sequencing and one for loops; `KeptByCopies.instrBody` then says it of all 64
instructions, for every relation that the shared operations keep (`Kept`, `KeptByCopies`).

Equality together with "the tile has got here from `s`" is such a relation, and gives what an instruction may change
(`exec_cases`). So is agreement on everything but the flags and leftovers, which gives noninterference
(`exec_sameWork`).
-/

namespace Sys2Proof.Machine

/-! ### The primitive-local registers -/

/-- The primitive-local registers (R29). -/
structure Locals where
  lastColor : Byte
  nibFlag : Bool
  nibByte : Byte
  bank : Byte

/-- The primitive-local registers of a state. -/
def State.locals (s : State) : Locals :=
  { lastColor := s.lastColor, nibFlag := s.nibFlag, nibByte := s.nibByte, bank := s.bank }

/-- The state with its primitive-local registers updated by `g`. -/
def State.mapLocals (s : State) (g : Locals → Locals) : State :=
  { s with lastColor := (g s.locals).lastColor, nibFlag := (g s.locals).nibFlag
           nibByte := (g s.locals).nibByte, bank := (g s.locals).bank }

@[simp] theorem State.locals_mapLocals (s : State) (g : Locals → Locals) : (s.mapLocals g).locals = g s.locals := rfl

/-- Nothing is known of the registers. -/
def Locals.Any (_ _ : Locals) : Prop := True

/-- `LAST_COLOR` agrees. -/
def Locals.SameColour (l l' : Locals) : Prop := l.lastColor = l'.lastColor

/-- `BANK` agrees. -/
def Locals.SameBank (l l' : Locals) : Prop := l.bank = l'.bank

/-- The registers agree as far as the mask loop of the Bank-1 forms reads them: `NIB_BYTE` only counts while a nibble
of it is left (R246). -/
structure Locals.SameNibbles (l l' : Locals) : Prop where
  lastColor : l.lastColor = l'.lastColor
  bank : l.bank = l'.bank
  nibFlag : l.nibFlag = l'.nibFlag
  nibByte : l.nibFlag = true → l.nibByte = l'.nibByte

/-! ### The judgement -/

/-- Two outcomes of one kind, with one value or one overrun, in states related by `R`; the registers are related by `Q`
when the computation ended. -/
inductive SameOutcome {α : Type} (R : State → State → Prop) (Q : Locals → Locals → Prop) :
    EStateM.Result Overrun State α → EStateM.Result Overrun State α → Prop where
  | ok (v : α) {t t' : State} (hR : R t t') (hQ : Q t.locals t'.locals) : SameOutcome R Q (.ok v t) (.ok v t')
  | error (e : Overrun) {t t' : State} (hR : R t t') : SameOutcome R Q (.error e t) (.error e t')

/-- See the head of this part. -/
structure Alike {α : Type} (R : State → State → Prop) (P Q : Locals → Locals → Prop) (f f' : Exec α) : Prop where
  /-- What the outcomes of `f` and `f'` are like. -/
  came : ∀ s s', R s s' → P s.locals s'.locals → SameOutcome R Q (f s) (f' s')

section Rules

variable {α β : Type} {R : State → State → Prop} {P P' Q Q' : Locals → Locals → Prop}

theorem Alike.pure (v : α) : Alike R P P (pure v) (pure v) := ⟨fun _ _ hR hP => .ok v hR hP⟩

/-- What is known of the registers may be more before, and less after. -/
theorem Alike.mono {f f' : Exec α} (h : Alike R P Q f f') (hP : ∀ l l', P' l l' → P l l')
    (hQ : ∀ l l', Q l l' → Q' l l') : Alike R P' Q' f f' := by
  refine ⟨fun s s' hR hP' => ?_⟩
  have hc := h.came s s' hR (hP _ _ hP')
  revert hc
  generalize f s = x, f' s' = x'
  rintro (⟨v, hR, hq⟩ | ⟨e, hR⟩)
  · exact .ok v hR (hQ _ _ hq)
  · exact .error e hR

/-- Sequencing. -/
theorem Alike.bind {f f' : Exec α} {g g' : α → Exec β} (hf : Alike R P P' f f')
    (hg : ∀ v, Alike R P' Q (g v) (g' v)) : Alike R P Q (f >>= g) (f' >>= g') := by
  refine ⟨fun s s' hR hP => ?_⟩
  show SameOutcome R Q (EStateM.bind f g s) (EStateM.bind f' g' s')
  unfold EStateM.bind
  have hc := hf.came s s' hR hP
  revert hc
  generalize f s = x, f' s' = x'
  rintro (⟨v, hR, hP'⟩ | ⟨e, hR⟩)
  · exact (hg v).came _ _ hR hP'
  · exact .error e hR

/-- Reading the state; the two runs go on knowing which registers they have. -/
theorem Alike.getLocals {g g' : State → Exec β}
    (hg : ∀ s s', R s s' → P s.locals s'.locals →
      Alike R (fun l l' => l = s.locals ∧ l' = s'.locals) Q (g s) (g' s')) :
    Alike R P Q (get >>= g) (get >>= g') :=
  ⟨fun s s' hR hP => (hg s s' hR hP).came s s' hR ⟨rfl, rfl⟩⟩

/-- Reading the state. -/
theorem Alike.get {g g' : State → Exec β}
    (hg : ∀ s s', R s s' → P s.locals s'.locals → Alike R P Q (g s) (g' s')) :
    Alike R P Q (get >>= g) (get >>= g') :=
  ⟨fun s s' hR hP => (hg s s' hR hP).came s s' hR hP⟩

theorem Alike.modify {f f' : State → State}
    (h : ∀ s s', R s s' → P s.locals s'.locals → R (f s) (f' s') ∧ Q (f s).locals (f' s').locals) :
    Alike R P Q (modify f) (modify f') :=
  ⟨fun s s' hR hP => .ok () (h s s' hR hP).1 (h s s' hR hP).2⟩

theorem Alike.loop {n : Nat} {f f' : Nat → Exec Unit} (h : ∀ i, i < n → Alike R P P (f i) (f' i)) :
    Alike R P P (forUpTo n f) (forUpTo n f') := by
  induction n with
  | zero => exact .pure ()
  | succ n ih => exact (ih fun i hi => h i (by omega)).bind fun _ => h n (by omega)

theorem Alike.list {n : Nat} {f : Exec Byte} (h : Alike R P P f f) : Alike R P P (readList n f) (readList n f) := by
  induction n with
  | zero => exact .pure []
  | succ n ih => exact h.bind fun v => ih.bind fun vs => .pure (v :: vs)

end Rules

/-! ### Relations that the shared operations keep -/

/-- The relation `R` shows a run what it reads (the stream pointers, the payload, where the tile is), and every update
that a base or an overlay makes to both states keeps it: a pixel of the tile, the stream pointers, the primitive-local
registers. -/
structure Kept (R : State → State → Prop) : Prop where
  width : ∀ {s s'}, R s s' → s.width = s'.width
  tileOfs : ∀ {s s'}, R s s' → s.tileOfs = s'.tileOfs
  alnPtr : ∀ {s s'}, R s s' → s.alnPtr = s'.alnPtr
  unaPtr : ∀ {s s'}, R s s' → s.unaPtr = s'.unaPtr
  payloadLen : ∀ {s s'}, R s s' → s.payloadLen = s'.payloadLen
  plByte : ∀ {s s'}, R s s' → ∀ a, s.plByte a = s'.plByte a
  setPixel : ∀ {s s'}, R s s' → ∀ {r c}, r < 8 → c < 8 → ∀ v,
    R (s.setByte .cur (s.pixAddr r c) v) (s'.setByte .cur (s'.pixAddr r c) v)
  setPointers : ∀ {s s'}, R s s' → ∀ a u, R { s with alnPtr := a, unaPtr := u } { s' with alnPtr := a, unaPtr := u }
  mapLocals : ∀ {s s'}, R s s' → ∀ g, R (s.mapLocals g) (s'.mapLocals g)

/-- The relation `R` also shows a run the previous frame, and setting `REF_OOB` keeps it. -/
structure KeptByCopies (R : State → State → Prop) : Prop extends Kept R where
  frameSize : ∀ {s s'}, R s s' → s.frameSize = s'.frameSize
  prevByte : ∀ {s s'}, R s s' → ∀ a, s.prevByte a = s'.prevByte a
  setRefOob : ∀ {s s'}, R s s' → R s.setRefOob s'.setRefOob

section Operations

variable {R : State → State → Prop} {P Q : Locals → Locals → Prop}

/-! ### Reading the streams -/

theorem Kept.memRead (hk : Kept R) {s s' : State} (h : R s s') (a n : Nat) :
    s.memRead .pl a n = s'.memRead .pl a n := by
  induction n generalizing a with
  | zero => rfl
  | succ n ih => simp [State.memRead, State.byteAt, hk.plByte h, ih]

theorem Kept.plRead (hk : Kept R) (a n : Nat) (id : StreamId) : Alike R P P (plRead a n id) (plRead a n id) := by
  refine ⟨fun s s' hR hP => ?_⟩
  have hl := hk.payloadLen hR
  by_cases h : a + n ≤ s.payloadLen.toNat
  · rw [plRead_ok h, plRead_ok (s := s') (hl ▸ h), hk.memRead hR]
    exact .ok _ hR hP
  · rw [plRead_overrun (by omega), plRead_overrun (s := s') (by rw [← hl]; omega)]
    exact .error _ hR

theorem Kept.alignedRead (hk : Kept R) (n : Nat) : Alike R P P (alignedRead n) (alignedRead n) := by
  refine .get fun s s' hR _ => ?_
  rw [hk.alnPtr hR]
  refine (hk.plRead _ n .aligned).bind fun v => Alike.bind (.modify fun t t' hR hP => ⟨?_, hP⟩) fun _ => .pure v
  have h := hk.setPointers hR (t.alnPtr + BitVec.ofNat 32 n) t.unaPtr
  rw [hk.alnPtr hR, hk.unaPtr hR] at h
  rw [hk.alnPtr hR]
  exact (hk.unaPtr hR) ▸ h

theorem Kept.unalignedRead (hk : Kept R) (n : Nat) : Alike R P P (unalignedRead n) (unalignedRead n) := by
  refine .get fun s s' hR _ => ?_
  rw [hk.unaPtr hR]
  refine (hk.plRead _ n .unaligned).bind fun v => Alike.bind (.modify fun t t' hR hP => ⟨?_, hP⟩) fun _ => .pure v
  have h := hk.setPointers hR t.alnPtr (t.unaPtr + BitVec.ofNat 32 n)
  rw [hk.alnPtr hR, hk.unaPtr hR] at h
  rw [hk.unaPtr hR]
  exact (hk.alnPtr hR) ▸ h

theorem Kept.a8 (hk : Kept R) : Alike R P P a8 a8 := (hk.alignedRead 1).bind fun _ => .pure _
theorem Kept.a16 (hk : Kept R) : Alike R P P a16 a16 := (hk.alignedRead 2).bind fun _ => .pure _
theorem Kept.a16s (hk : Kept R) : Alike R P P a16s a16s := hk.a16.bind fun _ => .pure _
theorem Kept.a24 (hk : Kept R) : Alike R P P a24 a24 := (hk.alignedRead 3).bind fun _ => .pure _
theorem Kept.a32 (hk : Kept R) : Alike R P P a32 a32 := (hk.alignedRead 4).bind fun _ => .pure _
theorem Kept.a40 (hk : Kept R) : Alike R P P a40 a40 := (hk.alignedRead 5).bind fun _ => .pure _
theorem Kept.u8 (hk : Kept R) : Alike R P P u8 u8 := (hk.unalignedRead 1).bind fun _ => .pure _
theorem Kept.u16 (hk : Kept R) : Alike R P P u16 u16 := (hk.unalignedRead 2).bind fun _ => .pure _
theorem Kept.u16s (hk : Kept R) : Alike R P P u16s u16s := hk.u16.bind fun _ => .pure _
theorem Kept.u24 (hk : Kept R) : Alike R P P u24 u24 := (hk.unalignedRead 3).bind fun _ => .pure _

/-- A value that depends on the state by the width of the frame only. -/
theorem Kept.ofWidth {α : Type} (hk : Kept R) (k : Nat → α) :
    Alike R P P (do return k (← get).width) (do return k (← get).width) :=
  .get fun s s' hR _ => by rw [hk.width hR]; exact .pure _

theorem Kept.axy (hk : Kept R) : Alike R P P axy axy :=
  hk.a8.bind fun dx => hk.a8.bind fun dy => hk.ofWidth fun w => xyOffset w dx dy

theorem Kept.uxy (hk : Kept R) : Alike R P P uxy uxy :=
  hk.u8.bind fun dx => hk.u8.bind fun dy => hk.ofWidth fun w => xyOffset w dx dy

/-! ### Writing pixels and registers -/

theorem Kept.pix (hk : Kept R) {r c : Nat} (hr : r < 8) (hc : c < 8) (v : Byte) :
    Alike R P P (pix r c v) (pix r c v) :=
  .modify fun s s' hR hP => by
    simp only [State.memWrite_one]
    exact ⟨hk.setPixel hR hr hc v, hP⟩

theorem Kept.qpix (hk : Kept R) {q r c : Nat} (hq : q < 4) (hr : r < 4) (hc : c < 4) (v : Byte) :
    Alike R P P (qpix q r c v) (qpix q r c v) :=
  .modify fun s s' hR hP => by
    simp only [State.memWrite_one, State.qpixAddr_eq _ hq]
    exact ⟨hk.setPixel hR (by omega) (by omega) v, hP⟩

/-- Updating the primitive-local registers. -/
theorem Kept.modifyLocals (hk : Kept R) (g : Locals → Locals) (h : ∀ l l', P l l' → Q (g l) (g l')) :
    Alike R P Q (modify fun s => s.mapLocals g) (modify fun s => s.mapLocals g) :=
  .modify fun _ _ hR hP => ⟨hk.mapLocals hR g, h _ _ hP⟩

theorem Kept.setLastColor (hk : Kept R) (v : Byte)
    (h : ∀ l l', P l l' → Q { l with lastColor := v } { l' with lastColor := v }) :
    Alike R P Q (setLastColor v) (setLastColor v) :=
  hk.modifyLocals (fun l => { l with lastColor := v }) h

/-- A pixel written with a value that depends on the state by the primitive-local registers only. -/
theorem Kept.pixOfLocals (hk : Kept R) {r c : Nat} (hr : r < 8) (hc : c < 8) (k : State → Byte)
    (h : ∀ s s' : State, P s.locals s'.locals → k s = k s') :
    Alike R P P (do Machine.pix r c (k (← get))) (do Machine.pix r c (k (← get))) :=
  .get fun s s' _ hP => by rw [h s s' hP]; exact hk.pix hr hc _

/-! ### Copies from the previous frame -/

theorem KeptByCopies.prev (hk : KeptByCopies R) (a : Int) : Alike R P P (prev a) (prev a) := by
  refine ⟨fun s s' hR hP => ?_⟩
  unfold Machine.prev
  rw [hk.prevByte hR]
  by_cases h : s.InFrame a
  · have h' : s'.InFrame a := by rw [State.InFrame, ← hk.frameSize hR]; exact h
    rw [if_pos h, if_pos h']
    exact .ok _ hR hP
  · have h' : ¬ s'.InFrame a := by rw [State.InFrame, ← hk.frameSize hR]; exact h
    rw [if_neg h, if_neg h']
    exact .ok _ (hk.setRefOob hR) hP

theorem KeptByCopies.copy8 (hk : KeptByCopies R) (src : Int) : Alike R P P (copy8 src) (copy8 src) :=
  .loop fun r hr => .loop fun c hc => .get fun s s' hR _ => by
    rw [hk.width hR]
    exact (hk.prev _).bind fun v => hk.pix hr hc v

theorem KeptByCopies.copy4 (hk : KeptByCopies R) {q : Nat} (hq : q < 4) (src : Int) :
    Alike R P P (copy4 q src) (copy4 q src) :=
  .loop fun r hr => .loop fun c hc => .get fun s s' hR _ => by
    rw [hk.width hR]
    exact (hk.prev _).bind fun v => hk.qpix hq hr hc v

theorem KeptByCopies.copyRelative8 (hk : KeptByCopies R) (o : Int) :
    Alike R P P (copyRelative8 o) (copyRelative8 o) :=
  .get fun s s' hR _ => by
    have e : s.source8 o = s'.source8 o := by simp only [State.source8, hk.tileOfs hR, hk.width hR]
    rw [e]
    exact hk.copy8 _

theorem KeptByCopies.copyRelative4 (hk : KeptByCopies R) {q : Nat} (hq : q < 4) (o : Int) :
    Alike R P P (copyRelative4 q o) (copyRelative4 q o) :=
  .get fun s s' hR _ => by
    have e : s.source4 q o = s'.source4 q o := by
      have hq : s.quadOfs q = s'.quadOfs q := by unfold State.quadOfs; rw [hk.width hR]
      simp only [State.source4, hk.tileOfs hR, hk.width hR, hq]
    rw [e]
    exact hk.copy4 hq _

/-! ### Packed pixels -/

theorem Kept.packedRow (hk : Kept R) {w : Nat} (k : List Byte) (n : Nat) (v : BitVec w) {r : Nat} (hr : r < 8) :
    Alike R P P (packedRow k n v r) (packedRow k n v r) :=
  .loop fun _ hc => hk.pix hr hc _

theorem Kept.packedQuad (hk : Kept R) {w : Nat} (k : List Byte) (n : Nat) (v : BitVec w) {q d count : Nat} (hq : q < 4)
    (hd : d + count ≤ 16) : Alike R P P (packedQuad k n v q d count) (packedQuad k n v q d count) :=
  .loop fun _ hj => hk.qpix hq (by omega) (by omega) _

/-! ### The mask loops (R240, R247) -/

/-- The places a traversal visits are in the tile. -/
def Traversal.InTile (pos : Traversal) : Prop := ∀ i j, i < 8 → j < 8 → (pos i j).1 < 8 ∧ (pos i j).2 < 8

theorem posH_inTile : Traversal.InTile posH := fun _ _ hi hj => ⟨hi, hj⟩

theorem posV_inTile : Traversal.InTile posV := fun _ _ hi hj => ⟨hj, hi⟩

theorem posTable_inTile (table : Fin 64 → Fin 64) : Traversal.InTile (posTable table) := fun i j _ _ => by
  have h := (table (Fin.ofNat 64 (8 * i + j))).isLt
  exact ⟨by simp only [posTable]; omega, Nat.mod_lt _ (by omega)⟩

/-- The loop that R240 and R247 share, for runs that agree on `LAST_COLOR`. -/
theorem Kept.maskLoop (hk : Kept R) {pos : Traversal} (hpos : pos.InTile) {next : Exec Byte}
    (hn : Alike R P P next next) (hP : ∀ l l', P l l' → l.lastColor = l'.lastColor)
    (hset : ∀ l l' v, P l l' → P { l with lastColor := v } { l' with lastColor := v }) :
    Alike R P P (maskLoop pos next) (maskLoop pos next) :=
  .loop fun i hi => hk.a8.bind fun m => .loop fun j hj => by
    obtain ⟨hr, hc⟩ := hpos i j hi hj
    have hp := hk.pixOfLocals (P := P) hr hc State.lastColor fun s s' h => hP _ _ h
    dsimp only
    split
    · exact hn.bind fun v => (hk.setLastColor v fun l l' h => hset l l' v h).bind fun _ => hp
    · exact hp

theorem Kept.runMask (hk : Kept R) {pos : Traversal} (hpos : pos.InTile) :
    Alike R Locals.Any Locals.Any (runMask pos) (runMask pos) :=
  (hk.setLastColor (Q := Locals.SameColour) _ fun _ _ _ => rfl).bind fun _ =>
    (hk.maskLoop hpos hk.u8 (fun _ _ h => h) fun _ _ _ _ => rfl).mono (fun _ _ h => h) fun _ _ _ => trivial

/-- `NextNibble()` gives one value in runs that agree on the nibbles, and they agree on them afterwards (R246). -/
theorem Kept.nextNibble (hk : Kept R) : Alike R Locals.SameNibbles Locals.SameNibbles nextNibble nextNibble := by
  refine .getLocals fun s s' _ hn => ?_
  have hflag : s.nibFlag = s'.nibFlag := hn.nibFlag
  rw [← hflag]
  cases hf : s.nibFlag with
  | true =>
    have hbyte : s.nibByte = s'.nibByte := hn.nibByte hf
    refine Alike.bind (P' := fun l l' => Locals.SameNibbles l l' ∧ l.nibByte = l'.nibByte)
      (hk.modifyLocals (fun l => { l with nibFlag := false }) ?_) fun _ => .get fun t t' _ h => ?_
    · rintro l l' ⟨rfl, rfl⟩
      exact ⟨⟨hn.lastColor, hn.bank, rfl, fun h => by cases h⟩, hbyte⟩
    · have e : t.nibByte = t'.nibByte := h.2
      rw [e]
      exact (Alike.pure _).mono (fun _ _ h => h) fun _ _ h => h.1
  | false =>
    refine hk.u8.bind fun b => (hk.modifyLocals (fun l => { l with nibByte := b, nibFlag := true }) ?_).bind
      fun _ => .pure _
    rintro l l' ⟨rfl, rfl⟩
    exact ⟨hn.lastColor, hn.bank, rfl, fun _ => rfl⟩

theorem Kept.bank1 (hk : Kept R) {pos : Traversal} (hpos : pos.InTile) :
    Alike R Locals.Any Locals.Any (bank1 pos) (bank1 pos) := by
  refine hk.u8.bind fun b => ?_
  refine Alike.bind (P' := fun l l' => l.bank = l'.bank ∧ l.nibFlag = false ∧ l'.nibFlag = false)
    (hk.modifyLocals (fun l => { l with bank := bankBase b, nibFlag := false }) fun _ _ _ => ⟨rfl, rfl, rfl⟩) fun _ => ?_
  refine Alike.bind (P' := Locals.SameNibbles) (hk.setLastColor _ ?_) fun _ => ?_
  · rintro l l' ⟨hb, hf, hf'⟩
    exact ⟨rfl, hb, hf.trans hf'.symm, fun h => by rw [show l.nibFlag = true from h] at hf; cases hf⟩
  · refine Alike.mono (hk.maskLoop hpos ?_ (fun _ _ h => h.lastColor) fun l l' v h => ?_) (fun _ _ h => h)
      fun _ _ _ => trivial
    · refine hk.nextNibble.bind fun n => .get fun s s' _ h => ?_
      rw [show s.bank = s'.bank from h.bank]
      exact .pure _
    · exact ⟨rfl, h.bank, h.nibFlag, h.nibByte⟩

/-- `OneBank` writes `BANK` before it reads it (R226). -/
theorem Kept.oneBank (hk : Kept R) : Alike R Locals.Any Locals.Any baseOneBank baseOneBank := by
  refine hk.u8.bind fun b => Alike.bind (P' := Locals.SameBank)
    (hk.modifyLocals (fun l => { l with bank := bankBase b }) fun _ _ _ => rfl) fun _ => ?_
  refine Alike.mono (.loop fun r hr => .loop fun j hj => hk.a8.bind fun p => ?_) (fun _ _ h => h) fun _ _ _ => trivial
  have hp : ∀ (c : Nat), c < 8 → ∀ n : BitVec 4, Alike R Locals.SameBank Locals.SameBank
      (do Machine.pix r c (bankPixel (← get).bank n)) (do Machine.pix r c (bankPixel (← get).bank n)) := fun c hc n =>
    hk.pixOfLocals hr hc (fun s => bankPixel s.bank n) fun s s' h => by
      rw [show s.bank = s'.bank from h]
  have h := (hp (2 * j) (by omega) (lowNibble p)).bind fun _ => hp (2 * j + 1) (by omega) (highNibble p)
  simpa only [bind_assoc] using h

end Operations

/-! ### Every instruction -/

/-- The computation of a base primitive (R134). -/
def baseBody : Base → Exec Unit
  | .raw => baseRaw
  | .zero => baseZero
  | .shortMotion8 => baseShortMotion8
  | .motion8 => baseMotion8
  | .shortMotion4 => baseShortMotion4
  | .motion4 => baseMotion4
  | .singleFill => baseSingleFill
  | .fourFill => baseFourFill
  | .oneBit => baseOneBit
  | .twoBit => baseTwoBit
  | .threeBit => baseThreeBit
  | .fourBit => baseFourBit
  | .oneBitSplit => baseOneBitSplit
  | .twoBitSplit => baseTwoBitSplit
  | .threeBitSplit => baseThreeBitSplit
  | .cross => baseCross
  | .prime => basePrime
  | .oneBank => baseOneBank
  | .twoBanks => baseTwoBanks
  | .blockH => runMask posH
  | .blockV => runMask posV
  | .blockD1 => runMask posD1
  | .blockD2 => runMask posD2
  | .bank1H => bank1 posH
  | .bank1V => bank1 posV
  | .bank1D1 => bank1 posD1
  | .bank1D2 => bank1 posD2
  | .roMotion8 => baseRoMotion8
  | .rcMotion8 => baseRcMotion8
  | .roMotion4 => baseRoMotion4
  | .rcMotion4 => baseRcMotion4

/-- The computation of an overlay (R270 to R272). -/
def overlayBody : Overlay → Exec Unit
  | .update4 => update4
  | .update8 => update8
  | .update16 => update16

/-- The computation of an instruction: its base, and then its overlay if it has one (R134, R273). -/
def instrBody (i : Instr) : Exec Unit :=
  match i.overlay with
  | none => baseBody i.base
  | some o => do baseBody i.base; overlayBody o

/-- Every arm of the dispatcher runs the instruction's base and overlay. -/
theorem exec_eq_runTile (i : Instr) (s : State) : exec i s = runTile i (instrBody i) s := by
  cases i <;> rfl

section Bodies

variable {R : State → State → Prop}

theorem Kept.update4 (hk : Kept R) : Alike R Locals.Any Locals.Any update4 update4 :=
  hk.u24.bind fun _ => .loop fun _ _ => hk.a8.bind fun _ => hk.pix (BitVec.isLt _) (BitVec.isLt _) _

theorem Kept.update16 (hk : Kept R) : Alike R Locals.Any Locals.Any update16 update16 :=
  .loop fun r hr => hk.a8.bind fun m => .loop fun c hc => by
    split
    · exact hk.u8.bind fun v => hk.pix hr hc v
    · exact .pure ()

/-- Two runs of one base primitive. -/
theorem KeptByCopies.baseBody (hk : KeptByCopies R) (b : Base) :
    Alike R Locals.Any Locals.Any (baseBody b) (baseBody b) := by
  have k := hk.toKept
  cases b with
  | raw => exact .loop fun r hr => .loop fun c hc => k.a8.bind fun v => k.pix hr hc v
  | zero => exact .get fun s s' hR _ => by rw [hk.tileOfs hR]; exact hk.copy8 _
  | shortMotion8 => exact k.u8.bind fun b => .get fun s s' hR _ => by rw [hk.width hR]; exact hk.copyRelative8 _
  | motion8 => exact k.u16.bind fun o => hk.copy8 _
  | shortMotion4 =>
    exact .loop fun q hq => k.a8.bind fun b => .get fun s s' hR _ => by rw [hk.width hR]; exact hk.copyRelative4 hq _
  | motion4 => exact .loop fun q hq => k.a16.bind fun o => hk.copy4 hq _
  | singleFill => exact k.u8.bind fun v => .loop fun r hr => .loop fun c hc => k.pix hr hc v
  | fourFill => exact .loop fun q hq => k.a8.bind fun v => .loop fun r hr => .loop fun c hc => k.qpix hq hr hc v
  | oneBit => exact (Alike.list k.u8).bind fun _ => .loop fun r hr => k.a8.bind fun _ => k.packedRow _ _ _ hr
  | twoBit => exact (Alike.list k.a8).bind fun _ => .loop fun r hr => k.a16.bind fun _ => k.packedRow _ _ _ hr
  | threeBit => exact (Alike.list k.u8).bind fun _ => .loop fun r hr => k.a24.bind fun _ => k.packedRow _ _ _ hr
  | fourBit => exact (Alike.list k.u8).bind fun _ => .loop fun r hr => k.a32.bind fun _ => k.packedRow _ _ _ hr
  | oneBitSplit =>
    exact .loop fun q hq => k.a16.bind fun _ => (Alike.list k.a8).bind fun _ => k.packedQuad _ _ _ hq (by omega)
  | twoBitSplit =>
    exact .loop fun q hq => k.a32.bind fun _ => (Alike.list k.a8).bind fun _ => k.packedQuad _ _ _ hq (by omega)
  | threeBitSplit =>
    exact .loop fun q hq => (Alike.list k.u8).bind fun _ => .loop fun h hh => k.a24.bind fun _ =>
      k.packedQuad _ _ _ hq (by omega)
  | cross =>
    exact (Alike.list k.a8).bind fun _ => k.a32.bind fun _ => .loop fun q hq => .loop fun d hd =>
      k.qpix hq (by omega) (by omega) _
  | prime =>
    exact k.u8.bind fun bg => .loop fun r hr => k.a8.bind fun m => .loop fun c hc => by
      split
      · exact k.u8.bind fun v => k.pix hr hc v
      · exact k.pix hr hc bg
  | oneBank => exact k.oneBank
  | twoBanks =>
    exact k.u8.bind fun b => .loop fun r hr => k.a40.bind fun v => .loop fun c hc => k.pix hr hc _
  | blockH => exact k.runMask posH_inTile
  | blockV => exact k.runMask posV_inTile
  | blockD1 => exact k.runMask (posTable_inTile _)
  | blockD2 => exact k.runMask (posTable_inTile _)
  | bank1H => exact k.bank1 posH_inTile
  | bank1V => exact k.bank1 posV_inTile
  | bank1D1 => exact k.bank1 (posTable_inTile _)
  | bank1D2 => exact k.bank1 (posTable_inTile _)
  | roMotion8 => exact k.u16s.bind fun o => hk.copyRelative8 o
  | rcMotion8 => exact k.uxy.bind fun o => hk.copyRelative8 o
  | roMotion4 => exact .loop fun q hq => k.a16s.bind fun o => hk.copyRelative4 hq o
  | rcMotion4 => exact .loop fun q hq => k.axy.bind fun o => hk.copyRelative4 hq o

/-- Two runs of one overlay. -/
theorem Kept.overlayBody (hk : Kept R) (o : Overlay) :
    Alike R Locals.Any Locals.Any (overlayBody o) (overlayBody o) := by
  cases o with
  | update4 => exact hk.update4
  | update8 => exact hk.update4.bind fun _ => hk.update4
  | update16 => exact hk.update16

/-- Two runs of one instruction. -/
theorem KeptByCopies.instrBody (hk : KeptByCopies R) (i : Instr) :
    Alike R Locals.Any Locals.Any (instrBody i) (instrBody i) := by
  unfold Machine.instrBody
  cases i.overlay with
  | none => exact hk.baseBody _
  | some o => exact (hk.baseBody _).bind fun _ => hk.toKept.overlayBody o

end Bodies

end Sys2Proof.Machine
end

section
/-!
PROOFS. What one instruction may change, whichever it is: by the pairing of a run with itself.
-/

namespace Sys2Proof.Machine

/-- The run from `s` has reached one state, in `s`'s tile, with the memories in canonical form if they were. -/
structure State.Reached (s t t' : State) : Prop where
  same : t = t'
  inTile : s.InTile t
  memoryWf : s.MemoryWf → t.MemoryWf

theorem State.InTile.mapLocals (s : State) (g : Locals → Locals) : s.InTile (s.mapLocals g) := .setLocals s _ _ _ _

theorem State.reached_keptByCopies (s : State) : KeptByCopies s.Reached where
  width h := by rw [h.same]
  tileOfs h := by rw [h.same]
  alnPtr h := by rw [h.same]
  unaPtr h := by rw [h.same]
  payloadLen h := by rw [h.same]
  plByte h _ := by rw [h.same]
  setPixel h _ _ hr hc v := ⟨by rw [h.same], h.inTile.trans (.setByte _ hr hc v), fun m => (h.memoryWf m).setByte _ _ _⟩
  setPointers h a u := ⟨by rw [h.same], h.inTile.trans (.setPointers _ a u), h.memoryWf⟩
  mapLocals h g := ⟨by rw [h.same], h.inTile.trans (.mapLocals _ g), h.memoryWf⟩
  frameSize h := by rw [h.same]
  prevByte h _ := by rw [h.same]
  setRefOob h := ⟨by rw [h.same], h.inTile.trans (.setRefOob _), h.memoryWf⟩

/-- What an instruction can do (R134, R321): its body ended or overran in a state that differs from the first at most in
what a base or an overlay may change, and the overrun was taken. -/
theorem exec_cases (i : Instr) (s : State) :
    ∃ u, s.InTile u ∧ (s.MemoryWf → u.MemoryWf) ∧
      (exec i s = .next u ∨ ∃ e, exec i s = .next (u.overrunInStep i.opcode e)) := by
  rw [exec_eq_runTile]
  have hc := (s.reached_keptByCopies.instrBody i).came s s ⟨rfl, .refl s, id⟩ trivial
  unfold runTile
  generalize instrBody i s = x at hc
  cases hc with
  | ok _ hR _ => exact ⟨_, hR.inTile, hR.memoryWf, .inl rfl⟩
  | error e hR => exact ⟨_, hR.inTile, hR.memoryWf, .inr ⟨e, rfl⟩⟩

end Sys2Proof.Machine
end

section
/-!
PROOFS. Every step keeps the invariant. The invariant of the sequencer falls in two: the tile registers say where the
tile is (`PlaceOk`), and the opcode registers hold what is to come from tile `n` on (`OpcodesFrom n`). A fetch takes the
second from `n` to `n + 1`, the instruction changes neither, and `Advance` takes the first to the next tile.
-/

namespace Sys2Proof.Machine

/-! ### The two parts of the sequencer's invariant -/

/-- Legal dimensions and tile registers that agree (R26, R131). -/
structure State.PlaceOk (s : State) : Prop where
  dims : dimsWellFormed s.width s.height = true
  tileIdx : s.tileIdx.toNat < s.tiles
  tileX : s.tileX.toNat < s.tilesPerRow
  index : s.tileIdx.toNat = s.tileY.toNat * s.tilesPerRow + s.tileX.toNat
  offset : s.tileOfs.toNat = s.tileX.toNat * 8 + s.tileY.toNat * 8 * s.width

/-- The opcode registers as they stand when the next opcode to be taken is that of tile `n` (R133). -/
structure State.OpcodesFrom (s : State) (n : Nat) : Prop where
  opcnt : s.opcnt.toNat = (4 - n % 4) % 4
  opcPtr : s.opcPtr.toNat = 4 + 3 * ((n + 3) / 4)
  opreg : ∀ k, n ≤ k → k < s.tiles → k / 4 = n / 4 → n % 4 ≠ 0 →
    s.opreg.toNat / 2 ^ (6 * (k - n)) % 64 = s.opcodeTriple k / 2 ^ (6 * (k % 4)) % 64

theorem State.sequencerOk_iff {s : State} : s.SequencerOk ↔ s.PlaceOk ∧ s.OpcodesFrom s.tileIdx.toNat :=
  ⟨fun h => ⟨⟨h.dims, h.tileIdx, h.tileX, h.index, h.offset⟩, ⟨h.opcnt, h.opcPtr, h.opreg⟩⟩,
    fun ⟨h, g⟩ => ⟨h.dims, h.tileIdx, h.tileX, h.index, h.offset, g.opcnt, g.opcPtr, g.opreg⟩⟩

/-- The place of the tile rests on the dimensions and the tile registers. -/
theorem State.PlaceOk.congr {s t : State} (h : s.PlaceOk) (hw : t.cfgWidth = s.cfgWidth) (hh : t.cfgHeight = s.cfgHeight)
    (hi : t.tileIdx = s.tileIdx) (hx : t.tileX = s.tileX) (hy : t.tileY = s.tileY) (ho : t.tileOfs = s.tileOfs) :
    t.PlaceOk := by
  have ew : t.width = s.width := by unfold State.width; rw [hw]
  have eh : t.height = s.height := by unfold State.height; rw [hh]
  have et : t.tiles = s.tiles := by unfold State.tiles; rw [ew, eh]
  have er : t.tilesPerRow = s.tilesPerRow := by unfold State.tilesPerRow; rw [ew]
  obtain ⟨h1, h2, h3, h4, h5⟩ := h
  constructor
  · rwa [ew, eh]
  · rwa [hi, et]
  · rwa [hx, er]
  · rwa [hi, hy, er, hx]
  · rwa [ho, hx, hy, ew]

/-- What the opcode registers hold rests on them, the payload and the dimensions. -/
theorem State.OpcodesFrom.congr {s t : State} {n : Nat} (h : s.OpcodesFrom n) (hp : t.pl = s.pl)
    (hr : t.resetCount = s.resetCount) (ht : t.tiles = s.tiles) (hc : t.opcnt = s.opcnt) (ho : t.opcPtr = s.opcPtr)
    (hg : t.opreg = s.opreg) : t.OpcodesFrom n := by
  have e : ∀ k, t.opcodeTriple k = s.opcodeTriple k := fun k => by
    simp only [State.opcodeTriple, State.memRead, State.byteAt, State.plByte, hp, hr]
  constructor
  · rw [hc]; exact h.opcnt
  · rw [ho]; exact h.opcPtr
  · intro k h1 h2 h3 h4
    rw [hg, e]
    exact h.opreg k h1 (ht ▸ h2) h3 h4

theorem State.InTile.tiles {s t : State} (h : s.InTile t) : t.tiles = s.tiles := by
  simp [State.tiles, State.width, State.height, h.kept.cfgWidth, h.kept.cfgHeight]

/-- An instruction changes neither part. -/
theorem State.PlaceOk.inTile {s t : State} (h : s.PlaceOk) (ht : s.InTile t) : t.PlaceOk :=
  h.congr ht.kept.cfgWidth ht.kept.cfgHeight ht.kept.tileIdx ht.kept.tileX ht.kept.tileY ht.kept.tileOfs

theorem State.OpcodesFrom.inTile {s t : State} {n : Nat} (h : s.OpcodesFrom n) (ht : s.InTile t) : t.OpcodesFrom n :=
  h.congr ht.kept.pl ht.kept.resetCount ht.tiles ht.kept.opcnt ht.kept.opcPtr ht.kept.opreg

/-! ### Reading the opcode stream -/

theorem State.memRead_add (s : State) (sp : Space) (a m n : Nat) :
    s.memRead sp a (m + n) = s.memRead sp a m + 256 ^ m * s.memRead sp (a + m) n := by
  induction m generalizing a with
  | zero => simp [State.memRead]
  | succ m ih =>
    rw [Nat.add_right_comm m 1 n]
    simp only [State.memRead, ih, Nat.pow_succ, show a + (m + 1) = a + 1 + m by omega]
    ring

/-- The low bytes of a longer read are a shorter read. -/
theorem State.memRead_mod (s : State) (sp : Space) (a : Nat) {m n : Nat} (h : m ≤ n) :
    s.memRead sp a n % 256 ^ m = s.memRead sp a m := by
  obtain ⟨d, rfl⟩ := Nat.exists_eq_add_of_le h
  rw [State.memRead_add, Nat.add_mul_mod_self_left, Nat.mod_eq_of_lt (s.memRead_lt sp a m)]

/-- A field of `b` bits that lies in the low `m` bits of a number. -/
theorem mod_two_pow_field (x : Nat) {a b m : Nat} (h : a + b ≤ m) :
    x % 2 ^ m / 2 ^ a % 2 ^ b = x / 2 ^ a % 2 ^ b := by
  obtain ⟨d, rfl⟩ := Nat.exists_eq_add_of_le h
  rw [show a + b + d = a + (b + d) by omega, Nat.pow_add 2 a, Nat.mod_mul_right_div_self,
    Nat.mod_mod_of_dvd _ (Nat.pow_dvd_pow 2 (Nat.le_add_right b d))]

theorem State.tiles_le (s : State) : s.tiles ≤ 8191 * 8191 := by
  have hw := s.cfgWidth.isLt
  have hh := s.cfgHeight.isLt
  exact Nat.mul_le_mul (by unfold State.width; omega) (by unfold State.height; omega)

/-- The three bytes that a refill before tile `i` reads, or what is left of them in the opcode stream, hold the opcodes of
the tiles of that group (R63, R133). -/
theorem State.refill_holds_opcode (s : State) {i k : Nat} (hk : k < s.tiles) (hg : k / 4 = i / 4) :
    s.memRead .pl (4 + 3 * (i / 4)) (min 3 (4 + s.opBytes - (4 + 3 * (i / 4)))) / 2 ^ (6 * (k % 4)) % 64
      = s.opcodeTriple k / 2 ^ (6 * (k % 4)) % 64 := by
  have hb : s.opBytes = (6 * s.tiles + 7) / 8 := rfl
  rw [State.opcodeTriple, hg, ← State.memRead_mod s .pl _ (Nat.min_le_left 3 _), show 256 = 2 ^ 8 from rfl, ← Nat.pow_mul]
  exact mod_two_pow_field (b := 6) _ (by omega)

/-- Taking an opcode off `OPREG` brings the next one to its low end. -/
theorem shift_field (x : Nat) {k n : Nat} (h : n + 1 ≤ k) :
    x / 64 / 2 ^ (6 * (k - (n + 1))) = x / 2 ^ (6 * (k - n)) := by
  rw [show 64 = 2 ^ 6 from rfl, Nat.div_div_eq_div_mul, ← Nat.pow_add]
  congr 2
  omega

/-- A fetch that ends changes the opcode registers only. -/
theorem fetch_frame {s u : State} {op : BitVec 6} (h : fetch s = .ok op u) :
    u = { s with opreg := u.opreg, opcPtr := u.opcPtr, opcnt := u.opcnt } := by
  rcases fetch_cases s with ⟨-, e⟩ | ⟨-, v, -, -, e⟩ | ⟨-, -, e⟩ <;> rw [e] at h <;> cases h <;> rfl

/-- A fetch takes the opcode of tile `n`; that of tile `n + 1` is then the next (R133). -/
theorem fetch_opcodesFrom {s u : State} {op : BitVec 6} {n : Nat} (h : s.OpcodesFrom n) (hn : n < s.tiles)
    (hf : fetch s = .ok op u) : u.OpcodesFrom (n + 1) := by
  obtain ⟨hc, hp, hr⟩ := h
  have hle := s.tiles_le
  rcases fetch_cases s with ⟨h0, e⟩ | ⟨h0, v, hv, -, e⟩ | ⟨-, -, e⟩ <;> rw [e] at hf <;> cases hf
  · have h0 : s.opcnt.toNat ≠ 0 := fun h => h0 (BitVec.eq_of_toNat_eq h)
    refine ⟨?_, ?_, fun k h1 h2 h3 h4 => ?_⟩
    · show (s.opcnt - 1).toNat = _
      have h1 : (1 : BitVec 3).toNat = 1 := rfl
      rw [BitVec.toNat_sub_of_le (by rw [BitVec.le_def]; omega)]
      omega
    · show s.opcPtr.toNat = _
      omega
    · show (s.opreg >>> 6).toNat / _ % 64 = s.opcodeTriple k / _ % 64
      rw [BitVec.toNat_ushiftRight, Nat.shiftRight_eq_div_pow, shift_field _ h1]
      exact hr k (by omega) h2 (by omega) (by omega)
  · have h0 : s.opcnt.toNat = 0 := by rw [h0]; rfl
    have hp : s.opcPtr.toNat = 4 + 3 * (n / 4) := by omega
    refine ⟨?_, ?_, fun k h1 h2 h3 h4 => ?_⟩
    · show 3 = _
      omega
    · show (s.opcPtr + 3).toNat = _
      have h3 : (3 : Ptr).toNat = 3 := rfl
      rw [BitVec.toNat_add_of_lt (by omega)]
      omega
    · show (v >>> 6).toNat / _ % 64 = s.opcodeTriple k / _ % 64
      rw [hp] at hv
      have hlt := s.memRead_lt .pl (4 + 3 * (n / 4)) (min 3 (4 + s.opBytes - (4 + 3 * (n / 4))))
      have hpow : 256 ^ min 3 (4 + s.opBytes - (4 + 3 * (n / 4))) ≤ 256 ^ 3 :=
        Nat.pow_le_pow_right (by decide) (Nat.min_le_left ..)
      have h2 : k < s.tiles := h2
      have hk : k - n = k % 4 := by omega
      rw [BitVec.toNat_ushiftRight, Nat.shiftRight_eq_div_pow, shift_field _ h1, hk, hv, BitVec.toNat_ofNat,
        Nat.mod_eq_of_lt (a := s.memRead _ _ _) (by omega)]
      exact s.refill_holds_opcode h2 (by omega)

/-! ### Advance -/

theorem dimsWellFormed_iff {w h : Nat} : dimsWellFormed w h = true ↔ w ≠ 0 ∧ h ≠ 0 ∧ w % 8 = 0 ∧ h % 8 = 0 := by
  simp [dimsWellFormed, and_assoc]

/-- The size of the frame in tiles, and the tile's row in it. -/
theorem State.PlaceOk.bounds {s : State} (h : s.PlaceOk) :
    s.width = 8 * s.tilesPerRow ∧ s.tilesPerRow < 8192 ∧ s.tileY.toNat < s.height / 8 ∧ s.height / 8 < 8192 ∧
      (s.tileY.toNat + 1) * s.tilesPerRow ≤ s.tiles := by
  obtain ⟨-, -, hw8, -⟩ := dimsWellFormed_iff.1 h.dims
  have hw := s.cfgWidth.isLt
  have hh := s.cfgHeight.isLt
  have hT : s.tiles = s.tilesPerRow * (s.height / 8) := rfl
  have hy : s.tileY.toNat < s.height / 8 := by
    by_contra hle
    have hrow := Nat.mul_le_mul_right s.tilesPerRow (Nat.le_of_not_lt hle)
    have hi := h.tileIdx
    rw [hT, Nat.mul_comm, h.index] at hi
    omega
  refine ⟨?_, ?_, hy, ?_, ?_⟩
  · unfold State.tilesPerRow; omega
  · unfold State.tilesPerRow State.width; omega
  · unfold State.height; omega
  · rw [hT, Nat.mul_comm]
    exact Nat.mul_le_mul_left _ hy

/-- `TILE_IDX` after `Advance` counts one more tile (R137). -/
theorem State.PlaceOk.advance_tileIdx {s : State} (h : s.PlaceOk) :
    s.advance.tileIdx.toNat = s.tileIdx.toNat + 1 := by
  have hle := s.tiles_le
  have hi := h.tileIdx
  have h1 : (1 : Ptr).toNat = 1 := rfl
  rw [State.advance_tileIdx, BitVec.toNat_add_of_lt (by omega)]
  rfl

/-- `TILE_OFS` by the row of tiles that the tile lies in. -/
theorem State.PlaceOk.offset_rows {s : State} (h : s.PlaceOk) :
    s.tileOfs.toNat = 8 * s.tileX.toNat + 64 * (s.tileY.toNat * s.tilesPerRow) := by
  rw [h.offset, h.bounds.1]
  ring

/-- At the end of a row of tiles, `Advance` goes to the start of the next (R137). -/
theorem State.PlaceOk.advance_endOfRow {s : State} (h : s.PlaceOk) (hend : s.tileX.toNat + 1 = s.tilesPerRow) :
    s.advance.tileX = 0 ∧ s.advance.tileY.toNat = s.tileY.toNat + 1 ∧
      s.advance.tileOfs.toNat = s.tileOfs.toNat + 8 + 7 * s.width := by
  obtain ⟨hW, hTW, hY, hTH, hrow⟩ := h.bounds
  have hle := s.tiles_le
  have hofs := h.offset_rows
  have hS : (s.tileY.toNat + 1) * s.tilesPerRow = s.tileY.toNat * s.tilesPerRow + s.tilesPerRow := by ring
  have e : s.advance = { s with tileIdx := s.tileIdx + 1, tileX := 0, tileY := s.tileY + 1
                                tileOfs := s.tileOfs + 8 + BitVec.ofNat 32 (7 * s.width) } := if_pos hend
  have h1 : (1 : Dim).toNat = 1 := rfl
  have h8 : (8 : Ptr).toNat = 8 := rfl
  have h7 : (BitVec.ofNat 32 (7 * s.width)).toNat = 7 * s.width := by
    rw [BitVec.toNat_ofNat, Nat.mod_eq_of_lt (by omega)]
  rw [e]
  refine ⟨rfl, ?_, ?_⟩
  · show (s.tileY + 1).toNat = _
    rw [BitVec.toNat_add_of_lt (by omega)]
    rfl
  · show (s.tileOfs + 8 + BitVec.ofNat 32 (7 * s.width)).toNat = _
    have h0 : (s.tileOfs + 8).toNat = s.tileOfs.toNat + 8 := by rw [BitVec.toNat_add_of_lt (by omega)]; rfl
    rw [BitVec.toNat_add_of_lt (by omega), h0, h7]

/-- Inside a row of tiles, `Advance` goes one tile to the right (R137). -/
theorem State.PlaceOk.advance_inRow {s : State} (h : s.PlaceOk) (hin : s.tileX.toNat + 1 ≠ s.tilesPerRow) :
    s.advance.tileX.toNat = s.tileX.toNat + 1 ∧ s.advance.tileY = s.tileY ∧
      s.advance.tileOfs.toNat = s.tileOfs.toNat + 8 := by
  obtain ⟨hW, hTW, hY, hTH, hrow⟩ := h.bounds
  have hle := s.tiles_le
  have hofs := h.offset_rows
  have hx := h.tileX
  have hS : (s.tileY.toNat + 1) * s.tilesPerRow = s.tileY.toNat * s.tilesPerRow + s.tilesPerRow := by ring
  have e : s.advance = { s with tileIdx := s.tileIdx + 1, tileX := s.tileX + 1, tileOfs := s.tileOfs + 8 } :=
    if_neg hin
  have h1 : (1 : Dim).toNat = 1 := rfl
  have h8 : (8 : Ptr).toNat = 8 := rfl
  rw [e]
  refine ⟨?_, rfl, ?_⟩
  · show (s.tileX + 1).toNat = _
    rw [BitVec.toNat_add_of_lt (by omega)]
    rfl
  · show (s.tileOfs + 8).toNat = _
    rw [BitVec.toNat_add_of_lt (by omega)]
    rfl

/-- `Advance` moves the tile registers to the next tile, unless this was the last (R26, R137). -/
theorem State.PlaceOk.advance {s : State} (h : s.PlaceOk) (hlast : s.advance.tileIdx.toNat ≠ s.advance.tiles) :
    s.advance.PlaceOk := by
  have hW := h.bounds.1
  have hidx := h.advance_tileIdx
  obtain ⟨hd, hi, hx, hn, ho⟩ := h
  have hlt : s.advance.tileIdx.toNat < s.advance.tiles := by rw [State.advance_tiles] at hlast ⊢; omega
  have hdims : dimsWellFormed s.advance.width s.advance.height = true := by simpa using hd
  by_cases hend : s.tileX.toNat + 1 = s.tilesPerRow
  · obtain ⟨ax, ay, ao⟩ := State.PlaceOk.advance_endOfRow ⟨hd, hi, hx, hn, ho⟩ hend
    have ax : s.advance.tileX.toNat = 0 := by rw [ax]; rfl
    refine ⟨hdims, hlt, ?_, ?_, ?_⟩
    · rw [ax, State.advance_tilesPerRow]; omega
    · rw [hidx, ay, ax, State.advance_tilesPerRow, Nat.add_mul]; omega
    · rw [ao, ax, ay, State.advance_width, ho, Nat.add_mul, Nat.add_mul]; omega
  · obtain ⟨ax, ay, ao⟩ := State.PlaceOk.advance_inRow ⟨hd, hi, hx, hn, ho⟩ hend
    refine ⟨hdims, hlt, ?_, ?_, ?_⟩
    · rw [ax, State.advance_tilesPerRow]; omega
    · rw [hidx, ay, ax, State.advance_tilesPerRow]; omega
    · rw [ao, ax, ay, State.advance_width, ho]; omega

/-! ### The step -/

/-- The end of a step that took no fault, from a tile in place whose opcode has been fetched. -/
theorem State.Inv.finishStep {s : State} (hm : s.MemoryWf) (hp : s.PlaceOk) (ho : s.OpcodesFrom (s.tileIdx.toNat + 1)) :
    s.finishStep.Inv := by
  have hma : s.advance.MemoryWf := by simpa [State.MemoryWf] using hm
  rcases s.finishStep_cases with ⟨hlast, e⟩ | ⟨-, e⟩ <;> rw [e]
  · refine ⟨hma, fun _ => State.sequencerOk_iff.2 ⟨hp.advance hlast, ?_⟩⟩
    rw [hp.advance_tileIdx]
    exact ho.congr (by simp) (by simp) (by simp) (by simp) (by simp) (by simp)
  · exact ⟨hma, fun h => by cases h⟩

/-- Taking an overrun keeps the invariant: the run is over. -/
theorem State.Inv.overrunInStep {s : State} (hm : s.MemoryWf) (op : BitVec 6) (e : Overrun) :
    (s.overrunInStep op e).Inv := by
  obtain ⟨u, -, hu, -, -, -, h⟩ := s.overrunInStep_spec op e
  rw [h]
  exact ⟨hu hm, fun h => by cases h⟩

/-- An overrun in the refill leaves the state as it was (R133). -/
theorem fetch_error {s u : State} {e : Overrun} (h : fetch s = .error e u) : u = s := by
  rcases fetch_cases s with ⟨-, e⟩ | ⟨-, v, -, -, e⟩ | ⟨-, -, e⟩ <;> (rw [e] at h; cases h)
  rfl

/-- Settles O45: outside a run nothing changes; an overrun ends the run; otherwise the fetch takes the opcode registers
to the next tile, the instruction leaves the sequencer alone, and the end of the step moves the tile registers. -/
theorem stepKeepsInvariant : Obligations.StepKeepsInvariant := by
  intro s t hs h
  rcases step_cases h with ⟨-, rfl⟩ | ⟨hbusy, hlt, ⟨e, u, hf, rfl⟩ | ⟨op, u, w, hf, hx, hw⟩⟩
  · exact hs
  · rw [fetch_error hf]
    exact State.Inv.overrunInStep hs.1 0 e
  · obtain ⟨hp, ho⟩ := State.sequencerOk_iff.1 (hs.2 hbusy)
    have ho := fetch_opcodesFrom ho hlt hf
    have hu := fetch_frame hf
    have hp : u.PlaceOk := hp.congr (by rw [hu]) (by rw [hu]) (by rw [hu]) (by rw [hu]) (by rw [hu]) (by rw [hu])
    have hi : u.tileIdx = s.tileIdx := by rw [hu]
    have hm : u.MemoryWf := by rw [hu]; exact hs.1
    obtain ⟨v, hv, hmv, hc | ⟨e, hc⟩⟩ := exec_cases (decode op) u <;> rw [hc] at hx <;> cases hx
    · rcases hw with ⟨hr, rfl⟩ | ⟨-, rfl⟩
      · exact ⟨hmv hm, fun h => absurd h hr⟩
      · refine State.Inv.finishStep (hmv hm) (hp.inTile hv) ?_
        rw [hv.kept.tileIdx, hi]
        exact ho.inTile hv
    · rcases hw with ⟨-, rfl⟩ | ⟨hr, -⟩
      · exact State.Inv.overrunInStep (hmv hm) _ e
      · rw [State.overrunInStep_run] at hr; cases hr

end Sys2Proof.Machine
end

section
/-!
PROOFS. What a step does not look at: the status flags, the compressor tag, `COLOR_OFFSET`, the fault record, the log and
the primitive-local registers of the tile before. `SameWork` relates two states that differ in these only; the shared
operations keep it, so the pairing of two runs gives that every step keeps it.
-/

namespace Sys2Proof.Machine

/-- What never influences the work of a step (R29, R31, R327, R354). -/
structure Leftovers where
  flags : StatusFlags
  cfgCompressor : BitVec 32
  colorOffset : Ptr
  fault : FaultRecord
  emitLog : List EmitRecord
  lastColor : Byte
  nibFlag : Bool
  nibByte : Byte
  bank : Byte

/-- The state with these replaced. -/
def State.withLeftovers (s : State) (x : Leftovers) : State :=
  { s with flags := x.flags, cfgCompressor := x.cfgCompressor, colorOffset := x.colorOffset, fault := x.fault
           emitLog := x.emitLog, lastColor := x.lastColor, nibFlag := x.nibFlag, nibByte := x.nibByte, bank := x.bank }

/-- Those of a state. -/
def State.leftovers (s : State) : Leftovers :=
  { flags := s.flags, cfgCompressor := s.cfgCompressor, colorOffset := s.colorOffset, fault := s.fault
    emitLog := s.emitLog, lastColor := s.lastColor, nibFlag := s.nibFlag, nibByte := s.nibByte, bank := s.bank }

/-- The two states agree on everything else. -/
def State.SameWork (s s' : State) : Prop := s' = s.withLeftovers s'.leftovers

theorem State.sameWork_withLeftovers (s : State) (x : Leftovers) : s.SameWork (s.withLeftovers x) := rfl

/-- An update that looks at none of these keeps the relation. -/
theorem State.SameWork.map {s s' : State} (h : s.SameWork s') (f : State → State)
    (hf : ∀ x, ∃ y, f (s.withLeftovers x) = (f s).withLeftovers y) : (f s).SameWork (f s') := by
  obtain ⟨y, hy⟩ := hf s'.leftovers
  rw [h, hy]
  exact State.sameWork_withLeftovers _ y

theorem State.sameWork_keptByCopies : KeptByCopies State.SameWork where
  width h := by rw [h]; rfl
  tileOfs h := by rw [h]; rfl
  alnPtr h := by rw [h]; rfl
  unaPtr h := by rw [h]; rfl
  payloadLen h := by rw [h]; rfl
  plByte h _ := by rw [h]; rfl
  setPixel h r c _ _ v := h.map (fun s => s.setByte .cur (s.pixAddr r c) v) fun x => ⟨x, rfl⟩
  setPointers h a u := h.map (fun s => { s with alnPtr := a, unaPtr := u }) fun x => ⟨x, rfl⟩
  mapLocals h g := h.map (fun s => s.mapLocals g) fun x =>
    let l := g ⟨x.lastColor, x.nibFlag, x.nibByte, x.bank⟩
    ⟨{ x with lastColor := l.lastColor, nibFlag := l.nibFlag, nibByte := l.nibByte, bank := l.bank }, rfl⟩
  frameSize h := by rw [h]; rfl
  prevByte h _ := by rw [h]; rfl
  setRefOob h := h.map State.setRefOob fun x => ⟨{ x with flags := { x.flags with refOob := true } }, rfl⟩

/-- Pixels written at given places keep the relation. -/
theorem State.SameWork.foldPixels {s s' : State} (h : s.SameWork s') (place : Nat → Nat) (v : Nat → Byte)
    (l : List Nat) :
    (l.foldl (fun t k => t.setByte .cur (place k) (v k)) s).SameWork
      (l.foldl (fun t k => t.setByte .cur (place k) (v k)) s') := by
  induction l generalizing s s' with
  | nil => exact h
  | cons k l ih => exact ih (h.map (fun s => s.setByte .cur (place k) (v k)) fun x => ⟨x, rfl⟩)

theorem State.SameWork.freeTile {s s' : State} (h : s.SameWork s') : s.freeTile.SameWork s'.freeTile := by
  have ht : s'.freeTick = s.freeTick := by rw [h]; rfl
  have ha : ∀ r c, s'.pixAddr r c = s.pixAddr r c := fun r c => by rw [h]; rfl
  unfold State.freeTile
  simp only [ht, ha]
  exact (h.foldPixels (fun k => s.pixAddr (k / 8) (k % 8)) (fun k => Config.faultPixel (s.freeTick + k)) _).map
    (fun t => { t with freeTick := s.freeTick + 64 }) fun x => ⟨x, rfl⟩

/-- Taking an overrun (R323). -/
theorem State.SameWork.overrunInStep {s s' : State} (h : s.SameWork s') (op : BitVec 6) (e : Overrun) :
    (s.overrunInStep op e).SameWork (s'.overrunInStep op e) := by
  have h := h.freeTile
  unfold State.overrunInStep
  generalize s.freeTile = u, s'.freeTile = u' at h
  exact h.map (fun t => t.faultEntry op (.streamOverrun e.stream e.addr)) fun x =>
    ⟨{ x with flags := x.flags.markFault (.streamOverrun e.stream e.addr)
              fault := u.faultRecord op (.streamOverrun e.stream e.addr) }, rfl⟩

/-- The end of a fetch: the low opcode of `OPREG` is taken off it (R133). -/
def takeOpcode : Exec (BitVec 6) := do
  let t ← get
  set { t with opreg := t.opreg >>> 6, opcnt := t.opcnt - 1 }
  return t.opreg.setWidth 6

theorem takeOpcode_sameWork : Alike State.SameWork Locals.Any Locals.Any takeOpcode takeOpcode := by
  refine ⟨fun t t' h _ => ?_⟩
  have hr : t'.opreg = t.opreg := by rw [h]; rfl
  have hn := h.map (fun t => { t with opreg := t.opreg >>> 6, opcnt := t.opcnt - 1 }) fun x => ⟨x, rfl⟩
  have ho := SameOutcome.ok (Q := Locals.Any) (t.opreg.setWidth 6) hn trivial
  conv at ho => rhs; rw [← hr]
  exact ho

/-- The fetch, which refills first when nothing is left (R133). -/
theorem fetch_sameWork : Alike State.SameWork Locals.Any Locals.Any fetch fetch := by
  refine .get fun s s' h _ => ?_
  have hc : s'.opcnt = s.opcnt := by rw [h]; rfl
  have hp : s'.opcPtr = s.opcPtr := by rw [h]; rfl
  have hb : s'.opBytes = s.opBytes := by rw [h]; rfl
  rw [hc, hp, hb]
  dsimp only
  split
  · refine (State.sameWork_keptByCopies.plRead _ _ .opcode).bind fun v =>
      Alike.bind (.modify fun t t' h _ => ⟨?_, trivial⟩) fun _ => takeOpcode_sameWork
    exact h.map (fun t => { t with opreg := BitVec.ofNat 24 v, opcPtr := t.opcPtr + 3, opcnt := 4 }) fun x => ⟨x, rfl⟩
  · exact takeOpcode_sameWork

/-- The instruction (R134). -/
theorem exec_sameWork {s s' t : State} (h : s.SameWork s') {i : Instr} (hx : exec i s = .next t) :
    ∃ t', exec i s' = .next t' ∧ t.SameWork t' := by
  rw [exec_eq_runTile] at hx
  simp only [exec_eq_runTile]
  have hc := (State.sameWork_keptByCopies.instrBody i).came s s' h trivial
  unfold runTile at hx ⊢
  generalize instrBody i s = x, instrBody i s' = x' at hc hx
  cases hc with
  | ok _ hR _ => cases hx; exact ⟨_, rfl, hR⟩
  | error e hR => cases hx; exact ⟨_, rfl, hR.overrunInStep _ e⟩

/-- The end of a step (R137, R139). -/
theorem State.SameWork.finishStep {s s' : State} (h : s.SameWork s') : s.finishStep.SameWork s'.finishStep := by
  have ha : s.advance.SameWork s'.advance := h.map State.advance fun x => ⟨x, by
    unfold State.advance
    by_cases hx : s.tileX.toNat + 1 = s.tilesPerRow
    · rw [if_pos hx]; exact if_pos hx
    · rw [if_neg hx]; exact if_neg hx⟩
  have hi : s'.advance.tileIdx = s.advance.tileIdx := by rw [ha]; rfl
  have ht : s'.advance.tiles = s.advance.tiles := by rw [ha]; rfl
  unfold State.finishStep
  simp only [hi, ht]
  split
  · exact ha.map State.complete fun x => ⟨{ x with
      flags := { x.flags with done := true }
      emitLog := x.emitLog ++ [{ width := s.advance.width, height := s.advance.height
                                 bytes := s.advance.curBytes s.advance.frameSize }] }, rfl⟩
  · exact ha

/-- A step of related states ends in related states. -/
theorem step_sameWork {s s' t : State} (h : s.SameWork s') (hs : step s = .next t) :
    ∃ t', step s' = .next t' ∧ t.SameWork t' := by
  have hr : s'.run = s.run := by rw [h]; rfl
  have hi : s'.tileIdx = s.tileIdx := by rw [h]; rfl
  have hT : s'.tiles = s.tiles := by rw [h]; rfl
  have hf := fetch_sameWork.came s s' h trivial
  unfold step at hs ⊢
  rw [hr, hi, hT]
  cases hrun : s.run <;> simp only [hrun] at hs ⊢
  case idle => cases hs; exact ⟨s', rfl, h⟩
  case halted => cases hs; exact ⟨s', rfl, h⟩
  case busy =>
    split at hs
    · next hlt =>
      rw [if_pos hlt]
      generalize fetch s = x, fetch s' = x' at hf hs
      cases hf with
      | error e hR => cases hs; exact ⟨_, rfl, hR.overrunInStep 0 e⟩
      | ok op hR _ =>
        simp only at hs ⊢
        split at hs <;> cases hs
        next w hw =>
        obtain ⟨w', hw', hR⟩ := exec_sameWork hR hw
        have hb : w'.run = w.run := by rw [hR]; rfl
        rw [hw']
        refine ⟨_, rfl, ?_⟩
        rw [hb]
        split
        · exact hR.finishStep
        · exact hR
    · cases hs

/-- Settles O58: the relation of the statement is `SameWork`, which every step keeps. -/
theorem flagsAndLeftoversDoNotInfluence : Obligations.FlagsAndLeftoversDoNotInfluence := by
  intro s s' t h hs
  exact step_sameWork (s' := s') h hs

end Sys2Proof.Machine
end

section
/-!
PROOFS. The host's operations (R353): what each register write, register read, memory access and reset does, said once,
and the statements about the host port from that.
-/

namespace Sys2Proof.Machine

section

variable {caps : Config.Caps} {s t : State}

/-! ### Register writes (R23, R33, R34) -/

/-- During a run every register write is ignored. -/
theorem State.hostWriteReg_busy (h : s.run = .busy) (no : Nat) (v : BitVec 32) : s.hostWriteReg caps no v = s :=
  if_pos h

theorem State.hostWriteReg_ctrl (h : s.run ≠ .busy) (v : BitVec 32) : s.hostWriteReg caps 0 v = s.writeCtrl caps v :=
  if_neg h

theorem State.hostWriteReg_width (h : s.run ≠ .busy) (v : BitVec 32) :
    s.hostWriteReg caps 2 v = { s with cfgWidth := v.setWidth 16 } := if_neg h

theorem State.hostWriteReg_height (h : s.run ≠ .busy) (v : BitVec 32) :
    s.hostWriteReg caps 3 v = { s with cfgHeight := v.setWidth 16 } := if_neg h

theorem State.hostWriteReg_compressor (h : s.run ≠ .busy) (v : BitVec 32) :
    s.hostWriteReg caps 4 v = { s with cfgCompressor := v } := if_neg h

theorem State.hostWriteReg_payloadLen (h : s.run ≠ .busy) (v : BitVec 32) :
    s.hostWriteReg caps 5 v = { s with payloadLen := v } := if_neg h

/-- A write to `STATUS`, to a read-only register or to an unlisted number is ignored. -/
theorem State.hostWriteReg_readOnly {no : Nat} (h : no = 1 ∨ 5 < no) (v : BitVec 32) :
    s.hostWriteReg caps no v = s := by
  by_cases hr : s.run = .busy
  · exact State.hostWriteReg_busy hr no v
  rcases h with rfl | h
  · exact if_neg hr
  · obtain ⟨k, rfl⟩ := Nat.exists_eq_add_of_le' h
    exact if_neg hr

theorem State.writeCtrl_clear {v : BitVec 32} (h1 : v.getLsbD 1 = true) : s.writeCtrl caps v = s.clear := if_pos h1

theorem State.writeCtrl_start {v : BitVec 32} (h1 : v.getLsbD 1 = false) (h0 : v.getLsbD 0 = true) :
    s.writeCtrl caps v = s.start caps := by
  unfold State.writeCtrl; rw [h1, h0]; rfl

theorem State.writeCtrl_nothing {v : BitVec 32} (h1 : v.getLsbD 1 = false) (h0 : v.getLsbD 0 = false) :
    s.writeCtrl caps v = s := by
  unfold State.writeCtrl; rw [h1, h0]; rfl

/-- A configuration register written outside a run changes neither the memories nor `RUN`. -/
theorem State.hostWriteReg_cases (no : Nat) (v : BitVec 32) :
    s.hostWriteReg caps no v = s ∨ s.run ≠ .busy ∧
      (s.hostWriteReg caps no v = s.clear ∨ s.hostWriteReg caps no v = s.start caps ∨
        ∃ w h c l, s.hostWriteReg caps no v = { s with cfgWidth := w, cfgHeight := h, cfgCompressor := c, payloadLen := l }) := by
  by_cases hr : s.run = .busy
  · exact .inl (State.hostWriteReg_busy hr no v)
  by_cases hro : no = 1 ∨ 5 < no
  · exact .inl (State.hostWriteReg_readOnly hro v)
  obtain rfl | rfl | rfl | rfl | rfl : no = 0 ∨ no = 2 ∨ no = 3 ∨ no = 4 ∨ no = 5 := by omega
  · rw [State.hostWriteReg_ctrl hr]
    cases h1 : v.getLsbD 1 with
    | true => exact .inr ⟨hr, .inl (State.writeCtrl_clear h1)⟩
    | false =>
      cases h0 : v.getLsbD 0 with
      | true => exact .inr ⟨hr, .inr (.inl (State.writeCtrl_start h1 h0))⟩
      | false => exact .inl (State.writeCtrl_nothing h1 h0)
  · exact .inr ⟨hr, .inr (.inr ⟨_, _, _, _, State.hostWriteReg_width hr v⟩)⟩
  · exact .inr ⟨hr, .inr (.inr ⟨_, _, _, _, State.hostWriteReg_height hr v⟩)⟩
  · exact .inr ⟨hr, .inr (.inr ⟨_, _, _, _, State.hostWriteReg_compressor hr v⟩)⟩
  · exact .inr ⟨hr, .inr (.inr ⟨_, _, _, _, State.hostWriteReg_payloadLen hr v⟩)⟩

/-- A CTRL write looks at the two low bits only (R33). -/
theorem State.writeCtrl_congr {v w : BitVec 32} (h0 : w.getLsbD 0 = v.getLsbD 0) (h1 : w.getLsbD 1 = v.getLsbD 1) :
    s.writeCtrl caps w = s.writeCtrl caps v := by
  unfold State.writeCtrl; rw [h0, h1]

/-! ### START (R130 to R132) -/

/-- What START can do: refuse the configuration, overrun on the head field, or leave a run at tile 0. -/
theorem State.start_cases (caps : Config.Caps) (s : State) :
    let begun := { s with flags := s.startFlags, run := .busy, tileIdx := 0, tileX := 0, tileY := 0, tileOfs := 0
                          opcPtr := 4, opreg := 0, opcnt := 0 }
    let c := BitVec.ofNat 32 (s.memRead .pl 0 4)
    (s.configBad caps = true ∧ s.start caps = { s with flags := s.startFlags }.faultEntry 0 .configFault)
    ∨ (s.configBad caps = false ∧ s.payloadLen.toNat < 4
        ∧ s.start caps = begun.faultEntry 0 (.streamOverrun .head 0))
    ∨ (s.configBad caps = false ∧ 4 ≤ s.payloadLen.toNat
        ∧ s.start caps = { begun with colorOffset := c, unaPtr := c, alnPtr := BitVec.ofNat 32 s.alnStart }) := by
  intro begun c
  have hb : { s with flags := s.startFlags }.configBad caps = s.configBad caps := rfl
  unfold State.start
  simp only [hb]
  cases s.configBad caps with
  | true => exact .inl ⟨rfl, rfl⟩
  | false =>
    rcases initRun_cases { s with flags := s.startFlags } with ⟨hl, e⟩ | ⟨hl, e⟩ <;> rw [e]
    · exact .inr (.inr ⟨rfl, hl, rfl⟩)
    · exact .inr (.inl ⟨rfl, hl, rfl⟩)

theorem State.start_run_ne_idle (caps : Config.Caps) (s : State) : (s.start caps).run ≠ .idle := by
  rcases s.start_cases caps with ⟨-, e⟩ | ⟨-, -, e⟩ | ⟨-, -, e⟩ <;> rw [e] <;> exact fun h => by cases h

/-- A configuration that START takes has legal dimensions (R131). -/
theorem State.dims_of_configBad (h : s.configBad caps = false) : dimsWellFormed s.width s.height = true := by
  simp only [State.configBad, Bool.or_eq_false_iff, Bool.not_eq_false'] at h
  exact h.1.1

/-- A run at tile 0 of a frame with legal dimensions is in order (R132). -/
theorem State.sequencerOk_of_begun (hd : dimsWellFormed s.width s.height = true) (hi : s.tileIdx = 0) (hx : s.tileX = 0)
    (hy : s.tileY = 0) (ho : s.tileOfs = 0) (hc : s.opcnt = 0) (hp : s.opcPtr = 4) : s.SequencerOk := by
  obtain ⟨hw, hh, hw8, hh8⟩ := dimsWellFormed_iff.1 hd
  have hrow : 0 < s.tilesPerRow := by unfold State.tilesPerRow; omega
  have htiles : 0 < s.tiles := Nat.mul_pos hrow (show 0 < s.height / 8 by omega)
  have zero : ∀ n, (0 : BitVec n).toNat = 0 := fun n => by simp
  have hi : s.tileIdx.toNat = 0 := by rw [hi, zero]
  have hx : s.tileX.toNat = 0 := by rw [hx, zero]
  have hy : s.tileY.toNat = 0 := by rw [hy, zero]
  constructor
  · exact hd
  · rw [hi]; exact htiles
  · rw [hx]; exact hrow
  · rw [hi, hy, hx, Nat.zero_mul]
  · rw [ho, hx, hy, zero, Nat.zero_mul, Nat.zero_mul]
  · rw [hc, hi, zero]
  · rw [hp, hi]; rfl
  · rw [hi]; exact fun _ _ _ _ h => absurd rfl h

/-! ### Register reads (R34) -/

/-- Where a read is specified, it gives the register and has no effect. -/
theorem State.hostReadReg_specified {no : Nat} (h : s.run ≠ .busy ∨ ¬ UnspecifiedWhileBusy no) :
    s.hostReadReg no = (s.regValue no, s) :=
  if_neg fun ⟨hr, hu⟩ => h.elim (absurd hr) (absurd hu)

theorem State.hostReadReg_gives {no : Nat} {v : BitVec 32} (h : s.run ≠ .busy ∨ ¬ UnspecifiedWhileBusy no)
    (hv : s.regValue no = v) : s.hostReadReg no = (v, s) := by
  rw [State.hostReadReg_specified h, hv]

/-- A read that is not specified only takes a free word. -/
theorem State.hostReadReg_unspecified {no : Nat} (hr : s.run = .busy) (hu : UnspecifiedWhileBusy no) :
    s.hostReadReg no = s.busyRead := if_pos ⟨hr, hu⟩

theorem State.regValue_unlisted {no : Nat} (h : no = 0 ∨ 23 < no) : s.regValue no = 0 := by
  rcases h with rfl | h
  · rfl
  · obtain ⟨k, rfl⟩ := Nat.exists_eq_add_of_le' h
    rfl

/-! ### The contents of registers -/

/-- A bit put below the bits of a word. -/
theorem getLsbD_append_ofBool {n : Nat} {x : BitVec n} {l : List Bool} (h : ∀ k, x.getLsbD k = l.getD k false) (b : Bool)
    (k : Nat) : (x ++ BitVec.ofBool b).getLsbD k = (b :: l).getD k false := by
  rw [BitVec.getLsbD_append]
  cases k with
  | zero => simp
  | succ k => simpa using h k

/-- The bits of `STATUS`, from bit 0 on; the rest are zero (R31). -/
theorem State.getLsbD_statusWord (s : State) (k : Nat) :
    s.statusWord.getLsbD k =
      [decide (s.run = .busy), s.flags.done, decide (s.run = .halted), s.flags.errOverrun, s.flags.errConfig,
        s.flags.refOob, s.flags.degraded, s.bufsel].getD k false := by
  have zero : ∀ k, (0#24).getLsbD k = ([] : List Bool).getD k false := fun k => by simp
  exact getLsbD_append_ofBool (getLsbD_append_ofBool (getLsbD_append_ofBool (getLsbD_append_ofBool
    (getLsbD_append_ofBool (getLsbD_append_ofBool (getLsbD_append_ofBool (getLsbD_append_ofBool zero _) _) _) _) _) _) _) _ k

/-- A value of 16 bits passes through a 16-bit register. -/
theorem setWidth_setWidth_of_fits {v : BitVec 32} (h : v.toNat < 2 ^ 16) :
    (v.setWidth 16).toNat = v.toNat ∧ (v.setWidth 16).setWidth 32 = v := by
  have e : (v.setWidth 16).toNat = v.toNat := by rw [BitVec.toNat_setWidth, Nat.mod_eq_of_lt h]
  refine ⟨e, BitVec.eq_of_toNat_eq ?_⟩
  rw [BitVec.toNat_setWidth, e, Nat.mod_eq_of_lt v.isLt]

/-- Zero-extension keeps the value. -/
theorem toNat_zeroExtend {n : Nat} (v : BitVec n) (h : n ≤ 32) : (v.setWidth 32).toNat = v.toNat :=
  BitVec.toNat_setWidth_of_le h

/-- Register 22 has `NIB_FLAG` above `NIB_BYTE` (R34). -/
theorem toNat_nibbleRegister (f : Bool) (b : Byte) :
    ((BitVec.ofBool f ++ b).setWidth 32).toNat = (if f then 256 else 0) + b.toNat := by
  rw [toNat_zeroExtend _ (by decide), BitVec.toNat_append, ← Nat.shiftLeft_add_eq_or_of_lt b.isLt]
  cases f <;> rfl

/-! ### Memory accesses (R35) -/

/-- The state after a host write of one byte. -/
def State.setHostByte (s : State) : HostMem → Nat → Byte → State
  | .pl, a, v => { s with pl := s.pl.insert a v }
  | .fb0, a, v => { s with fb0 := s.fb0.setFrameByte a v }
  | .fb1, a, v => { s with fb1 := s.fb1.setFrameByte a v }

theorem State.hostWriteMem_busy (hr : s.run = .busy) (m : HostMem) (a : Nat) (v : Byte) :
    s.hostWriteMem caps m a v = .refused .hostWriteWhileBusy := if_pos hr

theorem State.hostWriteMem_beyond (hr : s.run ≠ .busy) {m : HostMem} {a : Nat} (ha : m.capacity caps ≤ a) (v : Byte) :
    s.hostWriteMem caps m a v = .fault .noSuchByte := (if_neg hr).trans (if_pos ha)

theorem State.hostWriteMem_inside (hr : s.run ≠ .busy) {m : HostMem} {a : Nat} (ha : a < m.capacity caps) (v : Byte) :
    s.hostWriteMem caps m a v = .next (s.setHostByte m a v) := by
  unfold State.hostWriteMem
  rw [if_neg hr, if_neg (Nat.not_le.2 ha)]
  cases m <;> rfl

/-- A host write changes the one byte that it names. -/
theorem State.hostByte_setHostByte (s : State) (m : HostMem) (a : Nat) (v : Byte) (n : HostMem) (b : Nat) :
    (s.setHostByte m a v).hostByte n b = if n = m ∧ b = a then v else s.hostByte n b := by
  cases m with
  | pl =>
    cases n with
    | pl =>
      have h : (s.setHostByte .pl a v).plByte b = if b = a then v else s.plByte b := s.plByte_setByte_pl a v b
      simpa [State.hostByte] using h
    | fb0 => simp [State.hostByte, State.setHostByte]
    | fb1 => simp [State.hostByte, State.setHostByte]
  | fb0 => cases n <;> simp [State.hostByte, State.setHostByte, State.plByte]
  | fb1 => cases n <;> simp [State.hostByte, State.setHostByte, State.plByte]

/-- A host write changes no register. -/
theorem State.setHostByte_frame (s : State) (m : HostMem) (a : Nat) (v : Byte) :
    s.setHostByte m a v = { s with pl := (s.setHostByte m a v).pl, fb0 := (s.setHostByte m a v).fb0
                                   fb1 := (s.setHostByte m a v).fb1 } := by
  cases m <;> rfl

theorem State.hostReadMem_beyond {m : HostMem} {a : Nat} (ha : m.capacity caps ≤ a) :
    s.hostReadMem caps m a = .error .noSuchByte := if_pos ha

theorem State.hostReadMem_inside (hr : s.run ≠ .busy) {m : HostMem} {a : Nat} (ha : a < m.capacity caps) :
    s.hostReadMem caps m a = .ok (s.hostByte m a, s) := (if_neg (Nat.not_le.2 ha)).trans (if_neg hr)

theorem State.hostReadMem_busy (hr : s.run = .busy) {m : HostMem} {a : Nat} (ha : a < m.capacity caps) :
    s.hostReadMem caps m a = .ok (s.busyRead.1.setWidth 8, s.busyRead.2) := (if_neg (Nat.not_le.2 ha)).trans (if_pos hr)

/-- What a host write of a byte can answer, when it answers a next state. -/
theorem State.hostWriteMem_next {m : HostMem} {a : Nat} {v : Byte} (h : s.hostWriteMem caps m a v = .next t) :
    s.run ≠ .busy ∧ t = s.setHostByte m a v := by
  by_cases hr : s.run = .busy
  · rw [State.hostWriteMem_busy hr] at h; cases h
  · rcases Nat.lt_or_ge a (m.capacity caps) with ha | ha
    · rw [State.hostWriteMem_inside hr ha] at h; cases h; exact ⟨hr, rfl⟩
    · rw [State.hostWriteMem_beyond hr ha] at h; cases h

/-! ### The invariant -/

/-- Outside a run the invariant is the canonical form of the memories. -/
theorem State.Inv.of_memoryWf (h : s.MemoryWf) (hr : s.run ≠ .busy) : s.Inv := ⟨h, fun hb => absurd hb hr⟩

/-- A free word taken during a run leaves the run alone. -/
theorem State.Inv.busyRead (h : s.Inv) : s.busyRead.2.Inv :=
  ⟨h.1, fun hb => by
    obtain ⟨hp, ho⟩ := State.sequencerOk_iff.1 (h.2 hb)
    exact State.sequencerOk_iff.2 ⟨hp.congr rfl rfl rfl rfl rfl rfl, ho.congr rfl rfl rfl rfl rfl rfl⟩⟩

/-- START keeps the invariant: the run that it leaves, if any, is in order. -/
theorem State.Inv.start (caps : Config.Caps) (h : s.Inv) : (s.start caps).Inv := by
  rcases s.start_cases caps with ⟨-, e⟩ | ⟨-, -, e⟩ | ⟨hc, -, e⟩ <;> rw [e]
  · exact .of_memoryWf h.1 fun hb => by cases hb
  · exact .of_memoryWf h.1 fun hb => by cases hb
  · exact ⟨h.1, fun _ => State.sequencerOk_of_begun (State.dims_of_configBad hc) rfl rfl rfl rfl rfl rfl⟩

theorem State.Inv.hostWriteReg (h : s.Inv) (no : Nat) (v : BitVec 32) : (s.hostWriteReg caps no v).Inv := by
  rcases s.hostWriteReg_cases (caps := caps) no v with e | ⟨hr, e | e | ⟨w, k, c, l, e⟩⟩ <;> rw [e]
  · exact h
  · exact .of_memoryWf h.1.clear fun hb => by cases hb
  · exact h.start caps
  · exact .of_memoryWf h.1 hr

theorem State.Inv.hostReadReg (h : s.Inv) (no : Nat) : (s.hostReadReg no).2.Inv := by
  by_cases hu : s.run = .busy ∧ UnspecifiedWhileBusy no
  · rw [State.hostReadReg_unspecified hu.1 hu.2]; exact h.busyRead
  · rw [State.hostReadReg_specified (not_and_or.1 hu)]; exact h

theorem State.Inv.hostWriteMem {m : HostMem} {a : Nat} {v : Byte} (h : s.Inv)
    (e : s.hostWriteMem caps m a v = .next t) : t.Inv := by
  obtain ⟨hr, rfl⟩ := State.hostWriteMem_next e
  refine .of_memoryWf (h.1.hostWriteMem e) ?_
  rw [State.setHostByte_frame]
  exact hr

theorem State.Inv.hostReadMem {m : HostMem} {a : Nat} {b : Byte} (h : s.Inv)
    (e : s.hostReadMem caps m a = .ok (b, t)) : t.Inv := by
  rcases Nat.lt_or_ge a (m.capacity caps) with ha | ha
  · by_cases hr : s.run = .busy
    · rw [State.hostReadMem_busy hr ha] at e; cases e; exact h.busyRead
    · rw [State.hostReadMem_inside hr ha] at e; cases e; exact h
  · rw [State.hostReadMem_beyond ha] at e; cases e

theorem State.Inv.reset : State.reset.Inv := .of_memoryWf State.memoryWf_reset (by decide)

theorem State.Inv.hostReset (s : State) : s.hostReset.Inv :=
  .of_memoryWf State.memoryWf_reset (by rw [State.hostReset_run]; decide)

end

/-! ### The statements -/

/-- Settles O47, operation by operation. -/
theorem hostOperationsKeepInvariant : Obligations.HostOperationsKeepInvariant := by
  intro caps op s t hs h
  cases op with
  | writeReg no v => cases h; exact hs.hostWriteReg no v
  | readReg no => cases h; exact hs.hostReadReg no
  | writeMem m a v => exact hs.hostWriteMem h
  | readMem m a =>
    simp only [State.hostStep] at h
    split at h <;> cases h
    next b e => exact hs.hostReadMem e
  | reset => cases h; exact .hostReset s

/-- Settles O53. -/
theorem ctrlAndClear : Obligations.CtrlAndClear := by
  intro caps s v
  refine ⟨fun hr => s.hostWriteReg_busy hr 0 v, fun hr h1 => ?_, fun h1 h0 => ?_, fun hr h1 h0 => ?_,
    fun w h0 h1 => ?_, ?_⟩
  · rw [State.hostWriteReg_ctrl hr, State.writeCtrl_clear h1]
    exact ⟨fun a => ⟨Memory.frameByte_nil a, Memory.frameByte_nil a⟩, rfl⟩
  · by_cases hr : s.run = .busy
    · exact s.hostWriteReg_busy hr 0 v
    · rw [State.hostWriteReg_ctrl hr, State.writeCtrl_nothing h1 h0]
  · rw [State.hostWriteReg_ctrl hr, State.writeCtrl_start h1 h0]
    exact ⟨rfl, s.start_run_ne_idle caps⟩
  · by_cases hr : s.run = .busy
    · rw [State.hostWriteReg_busy hr, State.hostWriteReg_busy hr]
    · rw [State.hostWriteReg_ctrl hr, State.hostWriteReg_ctrl hr, State.writeCtrl_congr h0 h1]
  · exact State.hostReadReg_gives (.inr (by decide)) (State.regValue_unlisted (.inl rfl))

/-- Settles O57. -/
theorem hostMemoryAccess : Obligations.HostMemoryAccess := by
  intro caps s m a v
  exact ⟨fun hr ha => ⟨⟨_, State.hostWriteMem_inside hr ha v, s.hostByte_setHostByte m a v, s.setHostByte_frame m a v⟩,
    State.hostReadMem_inside hr ha⟩, fun hr => State.hostWriteMem_busy hr m a v,
    fun hr ha => ⟨State.hostWriteMem_beyond hr ha v, State.hostReadMem_beyond ha⟩⟩

/-- Settles O46: after a reset the memories are empty, and nothing runs. -/
theorem resetHasInvariant : Obligations.ResetHasInvariant := ⟨.reset, .hostReset⟩

/-- Settles O50: in both cases `t` is `State.reset` but for the model's own counters. -/
theorem resetStateValues : Obligations.ResetStateValues := by
  intro t ht
  obtain ⟨n, k, rfl⟩ : ∃ n k, t = { State.reset with freeTick := n, resetCount := k } := by
    rcases ht with rfl | ⟨s, rfl⟩
    exacts [⟨0, 0, rfl⟩, ⟨s.freeTick, s.resetCount + 1, rfl⟩]
  have hstatus : State.reset.statusWord = 0 := by decide
  refine ⟨fun a => ⟨rfl, rfl⟩, rfl, rfl, rfl, rfl, rfl, hstatus, rfl, rfl, rfl, rfl, rfl, rfl, rfl, rfl, rfl, rfl, rfl,
    rfl, rfl, rfl, rfl, rfl, rfl, fun u hu => ?_⟩
  cases hu
  rfl

/-- Settles O54. -/
theorem configurationRegistersReadBack : Obligations.ConfigurationRegistersReadBack := by
  refine ⟨fun caps s no v hr => s.hostWriteReg_busy hr no v, fun caps s v hr => ⟨fun hv => ?_, fun hv => ?_, ?_, ?_⟩,
    fun no h2 h5 => ?_⟩
  · obtain ⟨e, e'⟩ := setWidth_setWidth_of_fits hv
    rw [State.hostWriteReg_width hr]
    exact ⟨rfl, e, State.hostReadReg_gives (.inl hr) e'⟩
  · obtain ⟨e, e'⟩ := setWidth_setWidth_of_fits hv
    rw [State.hostWriteReg_height hr]
    exact ⟨rfl, e, State.hostReadReg_gives (.inl hr) e'⟩
  · rw [State.hostWriteReg_compressor hr]
    exact ⟨rfl, State.hostReadReg_specified (.inl hr)⟩
  · rw [State.hostWriteReg_payloadLen hr]
    exact ⟨rfl, State.hostReadReg_specified (.inl hr)⟩
  · rw [State.hostReadReg_specified (.inl (by decide))]
    obtain rfl | rfl | rfl | rfl : no = 2 ∨ no = 3 ∨ no = 4 ∨ no = 5 := by omega
    all_goals rfl

/-- Settles O55. -/
theorem statusRegisterBits : Obligations.StatusRegisterBits := by
  intro s
  rw [State.hostReadReg_specified (.inr (by decide))]
  have bit := s.getLsbD_statusWord
  refine ⟨rfl, (bit 0).symm ▸ decide_eq_true_iff, bit 1, (bit 2).symm ▸ decide_eq_true_iff, bit 3, bit 4, bit 5, bit 6, bit 7,
    fun k hk => ?_⟩
  obtain ⟨j, rfl⟩ := Nat.exists_eq_add_of_le' hk
  exact bit (j + 8)

/-- Settles O56. -/
theorem registerReads : Obligations.RegisterReads := by
  refine ⟨fun s hr => ?_, fun s no hr => ⟨fun h => ?_, fun h => ?_, fun h h' => ?_⟩,
    fun caps s no v h => State.hostWriteReg_readOnly h v⟩
  · have read : ∀ no, s.hostReadReg no = (s.regValue no, s) := fun no => State.hostReadReg_specified (.inl hr)
    simp only [read, true_and]
    have zext : ∀ {n} (v : BitVec n), n ≤ 32 → (v.setWidth 32).toNat = v.toNat := fun v h => toNat_zeroExtend v h
    refine ⟨zext _ (by decide), rfl, zext _ (by decide), zext _ (by decide), rfl, rfl, zext _ (by decide),
      zext _ (by decide), rfl, rfl, zext _ (by decide), zext _ (by decide), rfl, rfl, rfl, zext _ (by decide),
      toNat_nibbleRegister _ _, zext _ (by decide), fun no h => State.regValue_unlisted (.inr h)⟩
  · exact State.hostReadReg_specified (.inr (by omega))
  · exact State.hostReadReg_gives (.inr (by omega)) (State.regValue_unlisted (.inr h))
  · rw [State.hostReadReg_unspecified hr ⟨h, h'⟩]; rfl

end Sys2Proof.Machine
end

section
/-!
PROOFS. The memory accesses of a run: that every pixel of the tile lies in the frame, and what no step changes. A fetch,
an instruction and the end of a step each leave the inputs of the run alone (`InputsKept`); `Advance`, `Complete` and
fault entry do so because they write sequencer and status registers only (`InputsKept.sequencer`).
-/

namespace Sys2Proof.Machine

/-! ### Pixels lie in the frame (R76) -/

/-- The address of a pixel by its row and column in the frame. -/
theorem State.PlaceOk.pixAddr_eq {s : State} (h : s.PlaceOk) (r c : Nat) :
    s.pixAddr r c = (8 * s.tileY.toNat + r) * s.width + (8 * s.tileX.toNat + c) := by
  rw [State.pixAddr, h.offset]
  ring

theorem State.PlaceOk.pixAddr_lt_frameSize {s : State} (h : s.PlaceOk) {r c : Nat} (hr : r < 8) (hc : c < 8) :
    s.pixAddr r c < s.frameSize := by
  obtain ⟨hW, -, hY, -, -⟩ := h.bounds
  have hX := h.tileX
  calc s.pixAddr r c
      = (8 * s.tileY.toNat + r) * s.width + (8 * s.tileX.toNat + c) := h.pixAddr_eq r c
    _ < (8 * s.tileY.toNat + r) * s.width + s.width := by omega
    _ = s.width * (8 * s.tileY.toNat + r + 1) := by ring
    _ ≤ s.width * s.height := Nat.mul_le_mul_left _ (by omega)

/-- Settles O41: the tile lies in the frame, and a quadrant's pixel is a pixel of the tile. -/
theorem pixelWritesStayInFrame : Obligations.PixelWritesStayInFrame := by
  intro s hs
  have hp := (State.sequencerOk_iff.1 hs).1
  refine ⟨fun r c hr hc => hp.pixAddr_lt_frameSize hr hc, fun q r c hq hr hc => ?_⟩
  rw [s.qpixAddr_eq hq]
  exact hp.pixAddr_lt_frameSize (by omega) (by omega)

/-! ### What no step changes -/

/-- `t` still has the inputs of the run that `s` has: `PL`, the configuration, `COLOR_OFFSET`, the memory that is `PRV` in
`s`, the memory that is `CUR` in `s` outside the tile of `s`, and the records of the log. The memories are named by their
role in `s`, since `t` may have swapped them. -/
structure State.InputsKept (s t : State) : Prop where
  pl : t.pl = s.pl
  cfgWidth : t.cfgWidth = s.cfgWidth
  cfgHeight : t.cfgHeight = s.cfgHeight
  cfgCompressor : t.cfgCompressor = s.cfgCompressor
  payloadLen : t.payloadLen = s.payloadLen
  colorOffset : t.colorOffset = s.colorOffset
  prv : if s.bufsel then t.fb0 = s.fb0 else t.fb1 = s.fb1
  cur : ∀ a, s.OutsideTile a → (if s.bufsel then t.fb1 else t.fb0).frameByte a = s.byteAt .cur a
  emitLog : s.emitLog <+: t.emitLog

/-- An instruction leaves the inputs alone (R60). -/
theorem State.InTile.inputsKept {s t : State} (h : s.InTile t) : s.InputsKept t := by
  have hk := h.kept
  obtain ⟨-, hprv, hcur, -⟩ := h
  refine ⟨hk.pl, hk.cfgWidth, hk.cfgHeight, hk.cfgCompressor, hk.payloadLen, hk.colorOffset, ?_, fun a ha => ?_,
    by simp [hk.emitLog]⟩
  · rw [State.prvMem, State.prvMem, hk.bufsel] at hprv
    split <;> simpa [*] using hprv
  · rw [← hcur a ha, State.byteAt, State.curMem, hk.bufsel]

/-- Only the opcode registers differ between `s` and the state that a fetch leaves, so what keeps the inputs of the one
keeps those of the other. -/
theorem State.InputsKept.of_fetch {s u t : State} {op : BitVec 6} (hf : fetch s = .ok op u) (h : u.InputsKept t) :
    s.InputsKept t := by
  obtain ⟨reg, ptr, cnt, rfl⟩ : ∃ reg ptr cnt, u = { s with opreg := reg, opcPtr := ptr, opcnt := cnt } :=
    ⟨_, _, _, fetch_frame hf⟩
  exact ⟨h.pl, h.cfgWidth, h.cfgHeight, h.cfgCompressor, h.payloadLen, h.colorOffset, h.prv, h.cur, h.emitLog⟩

/-- Writing the tile, status and fault registers, swapping the roles and appending to the log leave the inputs alone. -/
theorem State.InputsKept.sequencer {s t u : State} (h : s.InputsKept t)
    (hu : u = { t with
      tileIdx := u.tileIdx, tileX := u.tileX, tileY := u.tileY, tileOfs := u.tileOfs, bufsel := u.bufsel, run := u.run
      flags := u.flags, fault := u.fault, emitLog := u.emitLog, freeTick := u.freeTick })
    (hlog : t.emitLog <+: u.emitLog) : s.InputsKept u := by
  have hlog := h.emitLog.trans hlog
  rw [hu]
  exact ⟨h.pl, h.cfgWidth, h.cfgHeight, h.cfgCompressor, h.payloadLen, h.colorOffset, h.prv, h.cur, hlog⟩

/-- `Advance` moves the tile registers only (R137). -/
theorem State.InputsKept.advance {s t : State} (h : s.InputsKept t) : s.InputsKept t.advance :=
  h.sequencer (by unfold State.advance; split <;> rfl) (by simp)

/-- `Complete` logs the frame and swaps the roles; neither memory changes (R139). -/
theorem State.InputsKept.complete {s t : State} (h : s.InputsKept t) : s.InputsKept t.complete :=
  h.sequencer rfl (by simp)

theorem State.InputsKept.finishStep {s t : State} (h : s.InputsKept t) : s.InputsKept t.finishStep := by
  rcases t.finishStep_cases with ⟨-, e⟩ | ⟨-, e⟩ <;> rw [e]
  · exact h.advance
  · exact h.advance.complete

/-- An overrun frees the pixels of the tile and nothing else in the memories (R321). -/
theorem State.InTile.inputsKept_overrunInStep {s t : State} (h : s.InTile t) (op : BitVec 6) (e : Overrun) :
    s.InputsKept (t.overrunInStep op e) := by
  obtain ⟨u, hu, -, -, -, -, ht⟩ := t.overrunInStep_spec op e
  rw [ht]
  exact (h.trans hu).inputsKept.sequencer rfl (by simp)

theorem step_inputsKept {s t : State} (h : step s = .next t) : s.InputsKept t := by
  rcases step_cases h with ⟨-, rfl⟩ | ⟨-, -, ⟨e, u, hf, rfl⟩ | ⟨op, u, w, hf, hx, hw⟩⟩
  · exact (State.InTile.refl t).inputsKept
  · rw [fetch_error hf]
    exact (State.InTile.refl s).inputsKept_overrunInStep 0 e
  · have hkept : u.InputsKept w := by
      obtain ⟨v, hv, -, hc | ⟨e, hc⟩⟩ := exec_cases (decode op) u <;> rw [hc] at hx <;> cases hx
      · exact hv.inputsKept
      · exact hv.inputsKept_overrunInStep _ e
    rcases hw with ⟨-, rfl⟩ | ⟨-, rfl⟩
    · exact .of_fetch hf hkept
    · exact .of_fetch hf hkept.finishStep

/-- Settles O44: a step is a fetch, an instruction and the end of the step, and each leaves the inputs alone. -/
theorem stepLeavesInputsAlone : Obligations.StepLeavesInputsAlone := by
  intro s t h
  obtain ⟨hpl, hwidth, hheight, hcompressor, hlen, hoffset, hprv, hcur, hlog⟩ := step_inputsKept h
  exact ⟨hpl, hwidth, hheight, hcompressor, hlen, hoffset, hprv, hcur, hlog⟩

end Sys2Proof.Machine
end

section
/-!
PROOFS. The opcode map and the opcode stream (R100, R103, R109). A stream is read as the one little-endian number that
its bytes spell (`streamValue`); the opcode of tile `i` is then digit `i` of that number to base 64, and packing opcodes
spells the number that has them as its digits.
-/

namespace Sys2Proof

/-! ### The opcode map (R109, R110) -/

@[simp] theorem decode_opcode (i : Instr) : decode i.opcode = i := by cases i <;> rfl

theorem opcode_decode : ∀ op : BitVec 6, (decode op).opcode = op := by decide

/-- Every pair of base and overlay in the map is one that R103 allows. -/
theorem Instr.wellFormed_eq_true (i : Instr) : i.wellFormed = true := by cases i <;> rfl

/-- An opcode alone is the low six bits of one byte (R100). -/
theorem packOpcodes_singleton (op : BitVec 6) : packOpcodes [op] = [op.setWidth 8] := by
  simp only [packOpcodes, littleEndianBytes, BitVec.ofNat_toNat]

theorem decodeBytes_encode (i : Instr) : decodeBytes (encode i) = .ok i := by
  rw [encode, packOpcodes_singleton, decodeBytes, BitVec.setWidth_setWidth_of_le _ (by decide), BitVec.setWidth_eq,
    decode_opcode]

/-- Settles O1: the map read in both directions, and an opcode alone in its byte. -/
theorem decodeInvertsEncode : Obligations.DecodeInvertsEncode :=
  ⟨fun i => ⟨decodeBytes_encode i, decode_opcode i, i.wellFormed_eq_true⟩, opcode_decode⟩

/-! ### The groups of the map (R103) -/

/-- Opcodes 1 to 28: seven groups of four, the place in the group the overlay. -/
theorem decode_group_of_le_28 : ∀ op : BitVec 6, 1 ≤ op.toNat → op.toNat ≤ 28 →
    [Base.zero, .shortMotion8, .motion8, .shortMotion4, .motion4, .singleFill, .fourFill][(op.toNat - 1) / 4]?
        = some (decode op).base ∧
    [none, some Overlay.update4, some .update8, some .update16][(op.toNat - 1) % 4]? = some (decode op).overlay := by
  decide

/-- Opcodes 48 to 63: four groups of four. -/
theorem decode_group_of_ge_48 : ∀ op : BitVec 6, 48 ≤ op.toNat →
    [Base.roMotion8, .rcMotion8, .roMotion4, .rcMotion4][(op.toNat - 48) / 4]? = some (decode op).base ∧
    [none, some Overlay.update4, some .update8, some .update16][op.toNat % 4]? = some (decode op).overlay := by
  decide

/-- The opcodes outside the groups are bases alone. -/
theorem decode_overlay_eq_none : ∀ op : BitVec 6, op.toNat = 0 ∨ (29 ≤ op.toNat ∧ op.toNat ≤ 47) →
    (decode op).overlay = none := by
  decide

/-- Settles O4: the words and the quoted stream are computed; the groups are the three ranges of the map. -/
theorem opcodeWordsDecodeRight : Obligations.OpcodeWordsDecodeRight :=
  ⟨rfl, rfl, rfl, rfl, rfl, rfl, rfl, rfl, by decide, decode_group_of_le_28, decode_group_of_ge_48,
    decode_overlay_eq_none⟩

/-! ### The number that a byte list spells (R61) -/

/-- The little-endian value of a list of bytes. -/
def streamValue : List Byte → Nat
  | [] => 0
  | b :: s => b.toNat + 256 * streamValue s

/-- Bit `n` of the number is bit `n mod 8` of byte `n div 8`; past the end there are zeros. -/
theorem testBit_streamValue (s : List Byte) (n : Nat) :
    (streamValue s).testBit n = (s.getD (n / 8) 0).getLsbD (n % 8) := by
  induction s generalizing n with
  | nil => simp [streamValue]
  | cons b s ih =>
    rw [streamValue, Nat.add_comm, show 256 = 2 ^ 8 from rfl, Nat.testBit_two_pow_mul_add _ b.isLt]
    by_cases hn : n < 8
    · rw [if_pos hn, Nat.div_eq_of_lt hn, Nat.mod_eq_of_lt hn]
      rfl
    · rw [if_neg hn, ih, show n / 8 = (n - 8) / 8 + 1 by omega, show (n - 8) % 8 = n % 8 by omega]
      rfl

theorem streamValue_append (s t : List Byte) :
    streamValue (s ++ t) = streamValue s + 256 ^ s.length * streamValue t := by
  induction s with
  | nil => simp [streamValue]
  | cons b s ih =>
    rw [List.cons_append, streamValue, ih, streamValue, List.length_cons, Nat.pow_succ]
    ring

theorem streamValue_lt (s : List Byte) : streamValue s < 256 ^ s.length := by
  induction s with
  | nil => exact Nat.one_pos
  | cons b s ih =>
    have hb := b.isLt
    rw [streamValue, List.length_cons, Nat.pow_succ]
    omega

@[simp] theorem length_littleEndianBytes (n w : Nat) : (littleEndianBytes n w).length = n := by
  induction n generalizing w with
  | zero => rfl
  | succ n ih => simp [littleEndianBytes, ih]

theorem streamValue_littleEndianBytes {n w : Nat} (h : w < 256 ^ n) : streamValue (littleEndianBytes n w) = w := by
  induction n generalizing w with
  | zero => exact (Nat.lt_one_iff.1 h).symm
  | succ n ih =>
    rw [littleEndianBytes, streamValue, ih (Nat.div_lt_of_lt_mul (by rwa [← Nat.pow_succ'])), BitVec.toNat_ofNat]
    omega

/-! ### The opcode of a tile (R100) -/

/-- Bits of three bytes side by side. -/
theorem getLsbD_threeBytes (a b c : Byte) {n : Nat} (h : n < 24) :
    (c ++ b ++ a : BitVec 24).getLsbD n = ([a, b, c].getD (n / 8) 0).getLsbD (n % 8) := by
  rw [BitVec.getLsbD_append, BitVec.getLsbD_append]
  obtain h0 | h1 | h2 : n / 8 = 0 ∨ n / 8 = 1 ∨ n / 8 = 2 := by omega
  · rw [if_pos (by omega), h0, Nat.mod_eq_of_lt (by omega)]
    rfl
  · rw [if_neg (by omega), if_pos (by omega), h1, show n - 8 = n % 8 by omega]
    rfl
  · rw [if_neg (by omega), if_neg (by omega), h2, show n - 8 - 8 = n % 8 by omega]
    rfl

/-- Settles O3: bit `6*(i mod 4) + k` of the triple is bit `6*i + k` of the stream, since a triple of bytes holds four
opcodes. -/
theorem opcodeBitsInStream : Obligations.OpcodeBitsInStream := by
  intro stream i k hk
  have hn : 6 * (i % 4) + k < 24 := by omega
  have hbyte : (6 * i + k) / 8 = 3 * (i / 4) + (6 * (i % 4) + k) / 8 := by omega
  have hbit : (6 * i + k) % 8 = (6 * (i % 4) + k) % 8 := by omega
  rw [hbyte, hbit, opcodeAt, BitVec.getLsbD_extractLsb', decide_eq_true hk, Bool.true_and, getLsbD_threeBytes _ _ _ hn]
  obtain h | h | h : (6 * (i % 4) + k) / 8 = 0 ∨ (6 * (i % 4) + k) / 8 = 1 ∨ (6 * (i % 4) + k) / 8 = 2 := by omega
  all_goals
    rw [h]
    rfl

/-- The opcode of tile `i` is digit `i`, to base 64, of the stream's value. -/
theorem toNat_opcodeAt (stream : List Byte) (i : Nat) :
    (opcodeAt stream i).toNat = streamValue stream / 2 ^ (6 * i) % 2 ^ 6 := by
  refine Nat.eq_of_testBit_eq fun k => ?_
  rw [Nat.testBit_mod_two_pow, Nat.testBit_div_two_pow, testBit_streamValue, ← BitVec.getLsbD]
  by_cases hk : k < 6
  · rw [opcodeBitsInStream stream i k hk, decide_eq_true hk, Bool.true_and, Nat.add_comm k]
  · rw [BitVec.getLsbD_of_ge _ _ (Nat.le_of_not_lt hk), decide_eq_false hk, Bool.false_and]

/-- The bytes beyond the opcode stream are ignored. -/
theorem opcodeAt_append (stream rest : List Byte) {i : Nat} (h : 6 * i + 6 ≤ 8 * stream.length) :
    opcodeAt (stream ++ rest) i = opcodeAt stream i := by
  have hmod : streamValue (stream ++ rest) % 2 ^ (8 * stream.length) = streamValue stream := by
    rw [streamValue_append, Nat.pow_mul, Nat.add_mul_mod_self_left, Nat.mod_eq_of_lt (streamValue_lt stream)]
  apply BitVec.eq_of_toNat_eq
  rw [toNat_opcodeAt, toNat_opcodeAt, ← hmod, Machine.mod_two_pow_field _ h]

/-! ### Packing opcodes (R100, R63) -/

/-- The number whose digits to base 64 are the given opcodes, the first the lowest. -/
def opcodesValue : List (BitVec 6) → Nat
  | [] => 0
  | op :: ops => op.toNat + 64 * opcodesValue ops

/-- Digit `i` of that number. -/
theorem opcodesValue_digit (ops : List (BitVec 6)) {i : Nat} (h : i < ops.length) :
    opcodesValue ops / 2 ^ (6 * i) % 2 ^ 6 = ops[i].toNat := by
  induction ops generalizing i with
  | nil => cases h
  | cons op ops ih =>
    have hop := op.isLt
    rw [opcodesValue]
    cases i with
    | zero => rw [List.getElem_cons_zero]; omega
    | succ i =>
      rw [List.getElem_cons_succ, ← ih (Nat.lt_of_succ_lt_succ h), Nat.mul_succ, Nat.add_comm (6 * i), Nat.pow_add,
        ← Nat.div_div_eq_div_mul]
      congr 2
      omega

theorem length_packOpcodes (ops : List (BitVec 6)) : (packOpcodes ops).length = opBytes ops.length := by
  induction ops using packOpcodes.induct with
  | case1 a b c d rest ih =>
    rw [packOpcodes, List.length_append, ih, length_littleEndianBytes]
    simp only [List.length_cons, opBytes]
    omega
  | case2 | case3 | case4 | case5 => simp [packOpcodes, opBytes]

/-- Opcodes side by side in a word are digits to base 64. -/
theorem toNat_append_opcode {w : Nat} (v : BitVec w) (op : BitVec 6) : (v ++ op).toNat = op.toNat + 64 * v.toNat := by
  rw [BitVec.toNat_append, ← Nat.shiftLeft_add_eq_or_of_lt op.isLt, Nat.shiftLeft_eq]
  omega

theorem streamValue_packOpcodes (ops : List (BitVec 6)) : streamValue (packOpcodes ops) = opcodesValue ops := by
  induction ops using packOpcodes.induct with
  | case1 a b c d rest ih =>
    rw [packOpcodes, streamValue_append, ih, length_littleEndianBytes, streamValue_littleEndianBytes (BitVec.isLt _)]
    simp only [toNat_append_opcode, opcodesValue]
    omega
  | case2 | case3 | case4 =>
    rw [packOpcodes, streamValue_littleEndianBytes (Nat.lt_trans (BitVec.isLt _) (by decide))]
    simp only [toNat_append_opcode, opcodesValue]
    omega
  | case5 => rfl

/-- The opcode of tile `i` in a packed stream, whatever follows it. -/
theorem opcodeAt_packOpcodes (ops : List (BitVec 6)) (rest : List Byte) {i : Nat} (h : i < ops.length) :
    opcodeAt (packOpcodes ops ++ rest) i = ops[i] := by
  rw [opcodeAt_append _ _ (by rw [length_packOpcodes, opBytes]; omega)]
  exact BitVec.eq_of_toNat_eq (by rw [toNat_opcodeAt, streamValue_packOpcodes, opcodesValue_digit ops h])

theorem length_encodeStream (is : List Instr) : (encodeStream is).length = opBytes is.length := by
  rw [encodeStream, length_packOpcodes, List.length_map]

theorem decodeStream_encodeStream (is : List Instr) (rest : List Byte) :
    decodeStream is.length (encodeStream is ++ rest) = is := by
  refine List.ext_getElem (by simp [decodeStream]) fun i h _ => ?_
  have hi : i < (is.map Instr.opcode).length := by simpa [decodeStream] using h
  simp only [decodeStream, encodeStream, List.getElem_map, List.getElem_range, opcodeAt_packOpcodes _ _ hi,
    decode_opcode]

/-- Settles O2: the packed stream spells the number whose digits are the opcodes, and the decoder reads its digits. -/
theorem opcodeStreamRoundTrip : Obligations.OpcodeStreamRoundTrip :=
  fun is rest => ⟨length_encodeStream is, decodeStream_encodeStream is rest⟩

end Sys2Proof
end

section
/-!
PROOFS. The layout of an assembled frame (R112): five parts one after the other, and where in the payload each stands.
-/

namespace Sys2Proof

theorem le_roundup4 (n : Nat) : n ≤ roundup4 n := by
  unfold roundup4; omega

/-- The aligned stream starts at or after the end of the opcode stream (R64). -/
theorem opBytes_le_alnStart (w tiles : Nat) : 4 + opBytes tiles ≤ alnStart w tiles := by
  have h := le_roundup4 (opBytes tiles)
  unfold alnStart
  split <;> omega

/-- What stands from the head of the second of two parts on. -/
theorem getD_append_length_add (s t : List Byte) {n : Nat} (h : s.length = n) (k : Nat) :
    (s ++ t).getD (n + k) 0 = t.getD k 0 := by
  rw [List.getD_append_right _ _ _ _ (by omega), show n + k - s.length = k by omega]

namespace FrameProgram

variable (p : FrameProgram)

/-- The instructions of the tiles, in raster order. -/
def instrs : List Instr := p.tiles.map TileLine.instr

/-- `ALN_START` of the program. -/
def start : Nat := alnStart p.width p.tiles.length

/-- All `A:` bytes. -/
def aligned : List Byte := p.tiles.flatMap TileLine.aligned

/-- All `U:` bytes. -/
def unaligned : List Byte := p.tiles.flatMap TileLine.unaligned

/-- The zeros between the opcode stream and the aligned stream. -/
def padding : List Byte := List.replicate (p.start - 4 - opBytes p.tiles.length) 0

/-- The head field: `color_offset`. -/
def head : List Byte := littleEndianBytes 4 (p.start + p.aligned.length)

theorem length_encodeStream_instrs : (encodeStream p.instrs).length = opBytes p.tiles.length := by
  rw [length_encodeStream, instrs, List.length_map]

/-- The five parts of an assembled frame. -/
theorem assemble_eq : p.assemble = p.head ++ (encodeStream p.instrs ++ (p.padding ++ (p.aligned ++ p.unaligned))) := by
  rw [padding, ← length_encodeStream_instrs]
  simp only [assemble, List.append_assoc]
  rfl

theorem opBytes_le_start : 4 + opBytes p.tiles.length ≤ p.start := opBytes_le_alnStart _ _

theorem length_head : p.head.length = 4 := length_littleEndianBytes _ _

theorem length_padding : p.padding.length = p.start - 4 - opBytes p.tiles.length := List.length_replicate

/-- The head field, the opcode stream and the padding fill the payload up to `ALN_START`. -/
theorem length_front : (p.head ++ (encodeStream p.instrs ++ p.padding)).length = p.start := by
  have h := p.opBytes_le_start
  rw [List.length_append, List.length_append, length_head, length_encodeStream_instrs, length_padding]
  omega

theorem assemble_eq_front :
    p.assemble = (p.head ++ (encodeStream p.instrs ++ p.padding)) ++ (p.aligned ++ p.unaligned) := by
  simp only [assemble_eq, List.append_assoc]

theorem length_assemble : p.assemble.length = p.start + p.aligned.length + p.unaligned.length := by
  rw [assemble_eq_front, List.length_append, length_front, List.length_append, Nat.add_assoc]

/-- The head field holds the offset of the unaligned stream (R62). -/
theorem assemble_head (h : p.assemble.length < 2 ^ 32) :
    (p.assemble.getD 0 0).toNat + 2 ^ 8 * (p.assemble.getD 1 0).toNat + 2 ^ 16 * (p.assemble.getD 2 0).toNat
      + 2 ^ 24 * (p.assemble.getD 3 0).toNat = p.start + p.aligned.length := by
  have hlt : p.start + p.aligned.length < 256 ^ 4 := by rw [length_assemble] at h; omega
  have hval : streamValue p.head = p.start + p.aligned.length := streamValue_littleEndianBytes hlt
  obtain ⟨a, b, c, d, hhead⟩ : ∃ a b c d, p.head = [a, b, c, d] := ⟨_, _, _, _, rfl⟩
  rw [← hval, assemble_eq, hhead]
  simp only [streamValue, List.cons_append, List.getD_cons_zero, List.getD_cons_succ]
  omega

/-- The opcode stream stands at offset 4 (R63). -/
theorem decodeStream_assemble : decodeStream p.tiles.length (p.assemble.drop 4) = p.tiles.map TileLine.instr := by
  have hn : p.tiles.length = p.instrs.length := (List.length_map _).symm
  rw [assemble_eq, ← p.length_head, List.drop_left, hn]
  exact decodeStream_encodeStream p.instrs _

/-- Between the opcode stream and `ALN_START` stand zeros (R64). -/
theorem assemble_padding {k : Nat} (h1 : 4 + opBytes p.tiles.length ≤ k) (h2 : k < p.start) :
    p.assemble.getD k 0 = 0 := by
  obtain ⟨j, rfl⟩ := Nat.exists_eq_add_of_le h1
  have hj : j < p.padding.length := by rw [length_padding]; omega
  rw [assemble_eq, Nat.add_assoc, getD_append_length_add _ _ p.length_head,
    getD_append_length_add _ _ p.length_encodeStream_instrs, List.getD_append _ _ _ _ hj]
  exact List.getD_replicate _ (by rwa [← length_padding])

/-- From `ALN_START` on stand the operand streams, the aligned one first (R64, R65). -/
theorem assemble_operands (k : Nat) : p.assemble.getD (p.start + k) 0 = (p.aligned ++ p.unaligned).getD k 0 := by
  rw [assemble_eq_front, getD_append_length_add _ _ p.length_front]

end FrameProgram

/-- Settles O5: the five parts of the payload one after the other, each at the offset where it starts. -/
theorem assembledPayloadLayout : Obligations.AssembledPayloadLayout := by
  intro p _ hlen
  refine ⟨p.length_assemble, p.assemble_head hlen, p.decodeStream_assemble, fun k => p.assemble_padding,
    fun k hk => ?_, fun k _ => ?_⟩
  · exact (p.assemble_operands k).trans (List.getD_append _ _ _ _ hk)
  · exact (congrArg (p.assemble.getD · 0) (Nat.add_assoc _ _ _)).trans
      ((p.assemble_operands _).trans (getD_append_length_add _ _ rfl k))

end Sys2Proof
end

section
/-!
PROOFS. The values of the operand fields (R105 to R107, R69).
-/

namespace Sys2Proof.Machine

/-- A field of `n + 1` bits as a signed number: itself below `2^n`, itself minus `2^(n+1)` from there on (R105). -/
theorem toInt_eq_ite {n : Nat} (v : BitVec (n + 1)) :
    v.toInt = if v.toNat < 2 ^ n then (v.toNat : Int) else v.toNat - 2 ^ (n + 1) := by
  rw [BitVec.toInt_eq_toNat_cond, Nat.pow_succ']
  simp only [Nat.mul_lt_mul_left (show 0 < 2 by decide)]
  push_cast
  rw [pow_succ']

theorem toNat_lowNibble (b : Byte) : (lowNibble b).toNat = b.toNat % 16 := by
  simp [lowNibble, BitVec.extractLsb'_toNat]

theorem toNat_highNibble (b : Byte) : (highNibble b).toNat = b.toNat / 16 := by
  have h := b.isLt
  rw [highNibble, BitVec.extractLsb'_toNat, Nat.shiftRight_eq_div_pow]
  omega

/-- `SMVec` by the two nibbles (R106). -/
theorem smVec_eq (w : Nat) (b : Byte) :
    smVec w b = (if b.toNat % 16 < 8 then ((b.toNat % 16 : Nat) : Int) else (b.toNat % 16 : Nat) - 16)
      + (if b.toNat / 16 < 8 then ((b.toNat / 16 : Nat) : Int) else (b.toNat / 16 : Nat) - 16) * w := by
  rw [smVec, toInt_eq_ite, toInt_eq_ite, toNat_lowNibble, toNat_highNibble]
  rfl

/-- The XY offset is a signed 16-bit number (R69). -/
theorem xyOffset_bounds (w : Nat) (dx dy : Byte) : -32768 ≤ xyOffset w dx dy ∧ xyOffset w dx dy ≤ 32767 :=
  ⟨BitVec.le_toInt _, Int.le_of_lt_add_one (BitVec.toInt_lt (x := BitVec.ofInt 16 _))⟩

/-- The XY offset is the unreduced sum modulo 2^16 (R69). -/
theorem xyOffset_congr (w : Nat) (dx dy : Byte) :
    (xyOffset w dx dy - (dx.toInt + dy.toInt * (w / 2 : Nat))) % 2 ^ 16 = 0 := by
  rw [xyOffset, BitVec.toInt_ofInt]
  exact Int.emod_eq_emod_iff_emod_sub_eq_zero.1 Int.bmod_emod

/-- A bank entry: the low nibble of the bank byte above the nibble, with no carry (R107). -/
theorem toNat_bankPixel_bankBase (b : Byte) (n : BitVec 4) :
    (bankPixel (bankBase b) n).toNat = 16 * (b.toNat % 16) + n.toNat := by
  have hn := n.isLt
  rw [bankPixel, bankBase, BitVec.toNat_add, BitVec.toNat_shiftLeft, Nat.shiftLeft_eq, BitVec.toNat_setWidth]
  omega

/-- Settles O6: short vectors by their nibbles, XY offsets by the reduction modulo 2^16, bank entries with no carry. -/
theorem operandFieldValues : Obligations.OperandFieldValues := by
  refine ⟨smVec_eq, fun w dx dy => ?_, toNat_bankPixel_bankBase⟩
  obtain ⟨hlow, hhigh⟩ := xyOffset_bounds w dx dy
  have h := xyOffset_congr w dx dy
  rw [toInt_eq_ite dx, toInt_eq_ite dy] at h
  exact ⟨hlow, hhigh, h⟩

end Sys2Proof.Machine
end

section
/-!
PROOFS. The fetch in a run (R133): the opcode that a fetch gives is that of the tile whose turn it is.
-/

namespace Sys2Proof.Machine

/-- A fetch gives the opcode of tile `n`, from `OPREG` or from the refill (R100, R133). -/
theorem fetch_opcode {s u : State} {op : BitVec 6} {n : Nat} (h : s.OpcodesFrom n) (hn : n < s.tiles)
    (hf : fetch s = .ok op u) : op.toNat = s.opcodeTriple n / 2 ^ (6 * (n % 4)) % 64 := by
  obtain ⟨hc, hp, hr⟩ := h
  rcases fetch_cases s with ⟨h0, e⟩ | ⟨h0, v, hv, -, e⟩ | ⟨-, -, e⟩ <;> rw [e] at hf <;> cases hf
  · have h0 : s.opcnt.toNat ≠ 0 := fun h => h0 (BitVec.eq_of_toNat_eq h)
    have hfield := hr n (Nat.le_refl n) hn rfl (by omega)
    rwa [Nat.sub_self, Nat.mul_zero, Nat.pow_zero, Nat.div_one] at hfield
  · have h0 : s.opcnt.toNat = 0 := by rw [h0]; rfl
    have hgroup : n % 4 = 0 := by omega
    have hp : s.opcPtr.toNat = 4 + 3 * (n / 4) := by omega
    have hrefill := s.refill_holds_opcode hn rfl
    simp only [hgroup, Nat.mul_zero, Nat.pow_zero, Nat.div_one] at hrefill ⊢
    rw [hv, hp, BitVec.toNat_setWidth, BitVec.toNat_ofNat, Nat.mod_mod_of_dvd _ (by decide), hrefill]

/-- A fetch does not overrun when the payload holds the whole opcode stream (R63, R133). -/
theorem fetch_ok {s : State} {n : Nat} (h : s.OpcodesFrom n) (hn : n < s.tiles)
    (hlen : 4 + s.opBytes ≤ s.payloadLen.toNat) : ∃ op u, fetch s = .ok op u := by
  rcases fetch_cases s with ⟨-, e⟩ | ⟨-, v, -, -, e⟩ | ⟨h0, hover, -⟩
  · exact ⟨_, _, e⟩
  · exact ⟨_, _, e⟩
  · have h0 : s.opcnt.toNat = 0 := by rw [h0]; rfl
    have hb : s.opBytes = (6 * s.tiles + 7) / 8 := rfl
    have hc := h.opcnt
    have hp := h.opcPtr
    omega

/-- Settles O38: the opcode registers of a run stand at the tile being built, and one fetch later at the next. -/
theorem fetchGivesTileOpcode : Obligations.FetchGivesTileOpcode := by
  intro s hs hlen
  obtain ⟨hplace, hfrom⟩ := State.sequencerOk_iff.1 hs
  obtain ⟨op, t, hf⟩ := fetch_ok hfrom hplace.tileIdx hlen
  obtain ⟨hcnt, hptr, -⟩ := fetch_opcodesFrom hfrom hplace.tileIdx hf
  refine ⟨op, t, hf, fetch_opcode hfrom hplace.tileIdx hf, fetch_frame hf, ?_, ?_⟩ <;> omega

end Sys2Proof.Machine
end

section
/-!
PROOFS. The frame sequencer at work (R134 to R139): what one step of a run is, where it leaves the log, the roles of the
buffers and the status, and that a run ends. `step_busy_cases` says once how the step of a run can end: in the overrun of
its fetch or its instruction, or with its tile finished.
-/

namespace Sys2Proof.Machine

/-! ### The parts of a step -/

/-- Settles O37: a step is the fetch, `exec` of what was fetched, and the end of the tile. -/
theorem stepRunsDecodedInstruction : Obligations.StepRunsDecodedInstruction := by
  rintro s t op _ hr hlt hf rfl -
  cases hx : exec (decode op) t <;> simp only [step, hr, if_pos hlt, hf, hx]

theorem step_of_fetch_error {s u : State} {e : Overrun} (hr : s.run = .busy) (hlt : s.tileIdx.toNat < s.tiles)
    (hf : fetch s = .error e u) : step s = .next (u.overrunInStep 0 e) := by
  unfold step
  simp only [hr, if_pos hlt, hf]

theorem step_of_fetch_ok {s u : State} {op : BitVec 6} (hr : s.run = .busy) (hlt : s.tileIdx.toNat < s.tiles)
    (hf : fetch s = .ok op u) {w : State} (hx : exec (decode op) u = .next w) :
    step s = .next (if w.run = .busy then w.finishStep else w) := by
  rw [stepRunsDecodedInstruction s u op _ hr hlt hf rfl (Instr.wellFormed_eq_true _), hx]

/-- A step of a run with a tile left stops nowhere: no instruction faults or is refused. -/
theorem step_busy_next {s : State} (hr : s.run = .busy) (hlt : s.tileIdx.toNat < s.tiles) : ∃ t, step s = .next t := by
  cases hf : fetch s with
  | error e u => exact ⟨_, step_of_fetch_error hr hlt hf⟩
  | ok op u =>
    obtain ⟨v, -, -, hx | ⟨e, hx⟩⟩ := exec_cases (decode op) u
    · exact ⟨_, step_of_fetch_ok hr hlt hf hx⟩
    · exact ⟨_, step_of_fetch_ok hr hlt hf hx⟩

/-! ### How the step of a run can end -/

/-- `u` is `s` with its opcode fetched and its instruction at work: the opcode registers may have moved, and otherwise
nothing differs but what an instruction may change. -/
def State.AtWork (s u : State) : Prop :=
  ∃ reg ptr cnt, { s with opreg := reg, opcPtr := ptr, opcnt := cnt }.InTile u

theorem State.AtWork.refl (s : State) : s.AtWork s := ⟨s.opreg, s.opcPtr, s.opcnt, .refl s⟩

theorem State.AtWork.of_fetch {s u v : State} {op : BitVec 6} (hf : fetch s = .ok op u) (h : u.InTile v) : s.AtWork v := by
  refine ⟨u.opreg, u.opcPtr, u.opcnt, ?_⟩
  rw [← fetch_frame hf]
  exact h

/-- The step of a run ends in an overrun or with its tile finished. -/
theorem step_busy_cases {s t : State} (hr : s.run = .busy) (h : step s = .next t) :
    s.tileIdx.toNat < s.tiles ∧ ∃ u, s.AtWork u ∧ ((∃ op e, t = u.overrunInStep op e) ∨ t = u.finishStep) := by
  rcases step_cases h with ⟨hn, -⟩ | ⟨-, hlt, ⟨e, u, hf, rfl⟩ | ⟨op, u, w, hf, hx, hw⟩⟩
  · exact absurd hr hn
  · rw [fetch_error hf]
    exact ⟨hlt, s, .refl s, .inl ⟨0, e, rfl⟩⟩
  · refine ⟨hlt, ?_⟩
    obtain ⟨v, hv, -, hc | ⟨e, hc⟩⟩ := exec_cases (decode op) u <;> rw [hc] at hx <;> cases hx
    · have hb : w.run = .busy := by rw [hv.kept.run, fetch_frame hf, ← hr]
      rcases hw with ⟨hn, -⟩ | ⟨-, rfl⟩
      · exact absurd hb hn
      · exact ⟨_, .of_fetch hf hv, .inr rfl⟩
    · rcases hw with ⟨-, rfl⟩ | ⟨hb, -⟩
      · exact ⟨v, .of_fetch hf hv, .inl ⟨_, e, rfl⟩⟩
      · rw [State.overrunInStep_run] at hb; cases hb

theorem State.AtWork.run {s u : State} (h : s.AtWork u) : u.run = s.run := by
  obtain ⟨reg, ptr, cnt, hu⟩ := h
  exact hu.kept.run

/-- `Advance` after a tile at work counts that tile; no run is long enough for `TILE_IDX` to wrap (R25). -/
theorem State.AtWork.advance_tileIdx {s u : State} (h : s.AtWork u) (hlt : s.tileIdx.toNat < s.tiles) :
    u.advance.tileIdx.toNat = s.tileIdx.toNat + 1 ∧ u.advance.tiles = s.tiles := by
  obtain ⟨reg, ptr, cnt, hu⟩ := h
  have hle := s.tiles_le
  have h1 : (1 : Ptr).toNat = 1 := rfl
  refine ⟨?_, by rw [State.advance_tiles, hu.tiles]; rfl⟩
  rw [State.advance_tileIdx, hu.kept.tileIdx, BitVec.toNat_add_of_lt (show s.tileIdx.toNat + _ < _ by omega)]
  rfl

/-! ### The end of a run (R135, R372) -/

/-- After a step the run is over, or one tile fewer is left. -/
theorem step_busy_progress {s t : State} (hr : s.run = .busy) (h : step s = .next t) (hb : t.run = .busy) :
    t.tileIdx.toNat = s.tileIdx.toNat + 1 ∧ t.tiles = s.tiles ∧ t.tileIdx.toNat < t.tiles := by
  obtain ⟨hlt, u, hu, ⟨op, e, rfl⟩ | rfl⟩ := step_busy_cases hr h
  · rw [State.overrunInStep_run] at hb; cases hb
  · obtain ⟨hidx, htiles⟩ := hu.advance_tileIdx hlt
    rcases u.finishStep_cases with ⟨hne, e⟩ | ⟨-, e⟩ <;> rw [e] at hb ⊢
    · exact ⟨hidx, htiles, by omega⟩
    · cases hb

theorem core_run_succ {s u : State} (h : step s = .next u) (n : Nat) :
    Sys2Proof.core.run (n + 1) s = Sys2Proof.core.run n u := by
  have h : Sys2Proof.core.step s = .next u := h
  simp only [Host.Core.run, h]

/-- Settles O48, by induction on the number of tiles left. -/
theorem runEndsWithinTiles : Obligations.RunEndsWithinTiles := by
  intro s hr hlt
  obtain ⟨k, hk⟩ : ∃ k, s.tiles - s.tileIdx.toNat = k := ⟨_, rfl⟩
  rw [hk]
  induction k generalizing s with
  | zero => omega
  | succ k ih =>
    obtain ⟨u, hu⟩ := step_busy_next hr hlt
    by_cases hb : u.run = .busy
    · obtain ⟨hidx, htiles, hlt'⟩ := step_busy_progress hr hu hb
      obtain ⟨n, t, hn, ht, hend⟩ := ih u hb hlt' (by omega)
      exact ⟨n + 1, t, by omega, by rw [core_run_succ hu]; exact ht, hend⟩
    · exact ⟨1, u, by omega, core_run_succ hu 0, hb⟩

/-! ### The end of a frame (R139, R140) -/

/-- The memory that was `CUR` is `PRV` after the roles are swapped. -/
theorem State.complete_byteAt_prv (s : State) (a : Nat) : s.complete.byteAt .prv a = s.byteAt .cur a := by
  show (if !s.bufsel then s.fb0 else s.fb1).frameByte a = (if s.bufsel then s.fb1 else s.fb0).frameByte a
  cases s.bufsel <;> rfl

/-- The overrun of a tile at work leaves the log, the roles and `DONE` alone. -/
theorem State.AtWork.overrun_keeps {s u : State} (h : s.AtWork u) (op : BitVec 6) (e : Overrun) :
    (u.overrunInStep op e).emitLog = s.emitLog ∧ (u.overrunInStep op e).bufsel = s.bufsel ∧
      (u.overrunInStep op e).flags.done = s.flags.done := by
  obtain ⟨reg, ptr, cnt, hu⟩ := h
  obtain ⟨v, hv, -, -, -, -, hv'⟩ := u.overrunInStep_spec op e
  rw [hv']
  exact ⟨(hu.trans hv).kept.emitLog, (hu.trans hv).kept.bufsel, hu.kept.done⟩

/-- The next tile of a frame leaves them alone too. -/
theorem State.AtWork.advance_keeps {s u : State} (h : s.AtWork u) :
    u.advance.emitLog = s.emitLog ∧ u.advance.bufsel = s.bufsel ∧ u.advance.flags.done = s.flags.done := by
  obtain ⟨reg, ptr, cnt, hu⟩ := h
  simp only [State.advance_emitLog, State.advance_bufsel, State.advance_flags]
  exact ⟨hu.kept.emitLog, hu.kept.bufsel, hu.kept.done⟩

/-- Completing the frame logs the bytes of the buffer that was `CUR`, swaps the roles and sets `DONE`. -/
theorem State.AtWork.complete_logs {s u : State} (h : s.AtWork u) :
    let t := u.advance.complete
    t.emitLog = s.emitLog ++ [{ width := s.width, height := s.height,
                                bytes := (List.range s.frameSize).map (t.byteAt .prv) }] ∧
    t.bufsel = !s.bufsel ∧ t.flags = { s.flags with done := true, refOob := t.flags.refOob } ∧ t.fault = s.fault := by
  obtain ⟨reg, ptr, cnt, hu⟩ := h
  have hw : u.width = s.width := hu.width
  have hh : u.height = s.height := by rw [State.height, hu.kept.cfgHeight]; rfl
  have hbytes : u.advance.complete.byteAt .prv = u.advance.byteAt .cur := funext u.advance.complete_byteAt_prv
  have hf : u.advance.curBytes u.advance.frameSize = (List.range s.frameSize).map (u.advance.byteAt .cur) := by
    rw [State.curBytes, State.advance_frameSize, hu.frameSize]; rfl
  dsimp only
  rw [hbytes]
  simp only [State.complete_emitLog, State.complete_bufsel, State.complete_flags, State.complete_fault, hf,
    State.advance_width, State.advance_height, State.advance_emitLog, State.advance_bufsel, State.advance_flags,
    State.advance_fault, hw, hh, hu.kept.emitLog, hu.kept.bufsel, hu.kept.fault]
  refine ⟨trivial, trivial, ?_, trivial⟩
  rw [hu.1]

/-- Settles O43: an overrun halts the run; a finished tile that is not the last goes on; the last completes the frame. -/
theorem completionLogsAndSwaps : Obligations.CompletionLogsAndSwaps := by
  intro s t hr h
  obtain ⟨hlt, u, hu, ⟨op, e, rfl⟩ | rfl⟩ := step_busy_cases hr h
  · exact ⟨fun hi => (nomatch hi), fun _ => hu.overrun_keeps op e, fun _ hn => absurd rfl hn⟩
  · obtain ⟨hidx, htiles⟩ := hu.advance_tileIdx hlt
    rcases u.finishStep_cases with ⟨hne, e⟩ | ⟨heq, e⟩ <;> rw [e]
    · have hb : u.advance.run = .busy := by rw [State.advance_run, hu.run, hr]
      exact ⟨fun hi => absurd (hb.symm.trans hi) (by decide), fun _ => hu.advance_keeps, fun hl => absurd hl (by omega)⟩
    · exact ⟨fun _ => ⟨by omega, hu.complete_logs⟩, fun hn => absurd rfl hn, fun _ _ => rfl⟩

/-! ### The overrun of a refill (R133, R321, R323) -/

/-- Pixels written to `CUR` change the frame buffers only. -/
theorem State.foldPixels_frame (s : State) (place : Nat → Nat) (v : Nat → Byte) (l : List Nat) :
    ∃ fb0 fb1, l.foldl (fun t k => t.setByte .cur (place k) (v k)) s = { s with fb0 := fb0, fb1 := fb1 } := by
  induction l generalizing s with
  | nil => exact ⟨s.fb0, s.fb1, rfl⟩
  | cons k l ih =>
    obtain ⟨fb0, fb1, e⟩ := ih (s.setByte .cur (place k) (v k))
    exact ⟨fb0, fb1, e⟩

/-- Freeing the pixels of a tile changes the frame buffers and the model's counter only. -/
theorem State.freeTile_frame (s : State) :
    s.freeTile = { s with fb0 := s.freeTile.fb0, fb1 := s.freeTile.fb1, freeTick := s.freeTick + 64 } := by
  obtain ⟨fb0, fb1, e⟩ := s.foldPixels_frame (fun k => s.pixAddr (k / 8) (k % 8))
    (fun k => Config.faultPixel (s.freeTick + k)) (List.range 64)
  unfold State.freeTile
  rw [e]

/-- An overrun taken inside a step writes the frame buffers, the status and the fault record only (R323). -/
theorem State.overrunInStep_frame (s : State) (op : BitVec 6) (e : Overrun) :
    s.overrunInStep op e = { s with
      fb0 := s.freeTile.fb0, fb1 := s.freeTile.fb1, run := .halted, flags := { s.flags with errOverrun := true }
      fault := { kind := 1, tile := s.tileIdx, opcode := op, stream := e.stream.code, addr := BitVec.ofNat 32 e.addr }
      freeTick := s.freeTick + 64 } := by
  have h := s.freeTile_frame
  unfold State.overrunInStep
  generalize s.freeTile = u at h ⊢
  rw [h]
  rfl

/-- Settles O39: the state in which the refill overran is the one before the step, and the fault is taken there. -/
theorem opcodeRefillOverrun : Obligations.OpcodeRefillOverrun := by
  refine ⟨fun s hr hlt h0 hover => ?_, fun s h0 => ?_⟩
  · rcases fetch_cases s with ⟨hn, -⟩ | ⟨-, v, -, hfit, -⟩ | ⟨-, -, hf⟩
    · exact absurd h0 hn
    · omega
    · refine ⟨_, step_of_fetch_error hr hlt hf, ?_, ?_⟩
      · rw [State.overrunInStep_frame, BitVec.ofNat_toNat, BitVec.setWidth_eq]
        rfl
      · obtain ⟨u, ⟨-, hprv, hcur, -⟩, -, -, -, -, e⟩ := s.overrunInStep_spec 0 { stream := .opcode, addr := s.opcPtr.toNat }
        rw [e]
        exact ⟨hprv, hcur⟩
  · rcases fetch_cases s with ⟨-, hf⟩ | ⟨hz, -⟩ | ⟨hz, -⟩
    · exact hf
    · exact absurd hz h0
    · exact absurd hz h0

end Sys2Proof.Machine
end

section
/-!
PROOFS. The tile registers and the start of a run: `Advance` follows the raster order (R137), and START with a usable
configuration begins a run at tile 0 or halts on its head field (R132).
-/

namespace Sys2Proof.Machine

/-! ### Advance (R137) -/

/-- `Advance` moves the tile registers only. -/
theorem State.advance_frame (s : State) :
    s.advance = { s with tileIdx := s.advance.tileIdx, tileX := s.advance.tileX, tileY := s.advance.tileY
                         tileOfs := s.advance.tileOfs } := by
  unfold State.advance
  split <;> rfl

/-- The last tile is at the right end of the bottom row. -/
theorem State.PlaceOk.last_tile {s : State} (h : s.PlaceOk) (hlast : s.tileIdx.toNat + 1 = s.tiles) :
    s.tileX.toNat + 1 = s.tilesPerRow ∧ s.tileY.toNat + 1 = s.height / 8 := by
  obtain ⟨-, -, hY, -, -⟩ := h.bounds
  have hX := h.tileX
  have hidx := h.index
  have hT : s.tiles = s.tilesPerRow * (s.height / 8) := rfl
  obtain ⟨d, hd⟩ := Nat.exists_eq_add_of_lt hY
  have hrows : s.tiles = s.tileY.toNat * s.tilesPerRow + s.tilesPerRow + d * s.tilesPerRow := by
    rw [hT, hd]
    ring
  have hbelow : d * s.tilesPerRow = 0 := by omega
  have hd0 : d = 0 := (Nat.mul_eq_zero.1 hbelow).resolve_right (by omega)
  omega

/-- The tile registers agree with each other after `Advance`, also past the last tile (R26). -/
theorem State.PlaceOk.advance_agrees {s : State} (h : s.PlaceOk) :
    s.advance.tileOfs.toNat = s.advance.tileX.toNat * 8 + s.advance.tileY.toNat * 8 * s.width ∧
      s.advance.tileIdx.toNat = s.advance.tileY.toNat * s.tilesPerRow + s.advance.tileX.toNat := by
  have hW := h.bounds.1
  have hidx := h.index
  have hofs := h.offset
  rw [h.advance_tileIdx]
  by_cases hend : s.tileX.toNat + 1 = s.tilesPerRow
  · obtain ⟨ax, ay, ao⟩ := h.advance_endOfRow hend
    have ax : s.advance.tileX.toNat = 0 := by rw [ax]; rfl
    rw [ao, ax, ay, hofs, Nat.add_mul, Nat.add_mul, Nat.add_mul]
    omega
  · obtain ⟨ax, ay, ao⟩ := h.advance_inRow hend
    rw [ao, ax, ay]
    omega

/-- Settles O42: at the end of a row `Advance` goes to the start of the next, elsewhere one tile to the right. -/
theorem advanceFollowsRasterOrder : Obligations.AdvanceFollowsRasterOrder := by
  intro s hs t
  have hp := (State.sequencerOk_iff.1 hs).1
  obtain ⟨hofs, hidx⟩ := hp.advance_agrees
  refine ⟨s.advance_frame, hp.advance_tileIdx, ?_, hofs, hidx, fun hall => ?_⟩
  · split
    · next hend => exact hp.advance_endOfRow hend
    · next hin => exact hp.advance_inRow hin
  · obtain ⟨hend, hbottom⟩ := hp.last_tile (hp.advance_tileIdx ▸ hall)
    obtain ⟨ax, ay, -⟩ := hp.advance_endOfRow hend
    obtain ⟨-, -, -, hh8⟩ := dimsWellFormed_iff.1 hp.dims
    refine ⟨?_, ax, ay.trans hbottom⟩
    calc s.advance.tileOfs.toNat
        = s.advance.tileX.toNat * 8 + s.advance.tileY.toNat * 8 * s.width := hofs
      _ = s.height / 8 * 8 * s.width := by rw [ax, ay, hbottom]; simp
      _ = s.width * s.height := by rw [Nat.div_mul_cancel (Nat.dvd_of_mod_eq_zero hh8), Nat.mul_comm]

/-! ### START (R131, R132) -/

/-- A configuration that is usable by R131. -/
theorem State.configBad_eq_false {caps : Config.Caps} {s : State} (hw : s.width ≠ 0) (hh : s.height ≠ 0)
    (hw8 : s.width % 8 = 0) (hh8 : s.height % 8 = 0) (hfb : s.width * s.height ≤ caps.fbCap)
    (hpl : s.payloadLen.toNat ≤ caps.plCap) : s.configBad caps = false := by
  have hdims := dimsWellFormed_iff.2 ⟨hw, hh, hw8, hh8⟩
  have hfb : ¬ s.frameSize > caps.fbCap := Nat.not_lt.2 hfb
  simp [State.configBad, hdims, hfb, hpl]

/-- The head field is the little-endian word at `PL[0]` (R61, R62). -/
theorem State.memRead_pl_four (s : State) :
    s.memRead .pl 0 4 = (s.plByte 0).toNat + 2 ^ 8 * (s.plByte 1).toNat + 2 ^ 16 * (s.plByte 2).toNat
      + 2 ^ 24 * (s.plByte 3).toNat := by
  simp only [State.memRead, State.byteAt, Nat.reduceAdd]
  omega

/-- Settles O52: START takes the configuration, and the head field fits in the payload or does not. -/
theorem startInitialisesRun : Obligations.StartInitialisesRun := by
  intro caps s v hr h0 h1 hw hh hw8 hh8 hfb hpl flags begun opBytes start head
  have hgood : s.configBad caps = false := State.configBad_eq_false hw hh hw8 hh8 hfb hpl
  have hhead : s.memRead .pl 0 4 = head := s.memRead_pl_four
  rw [State.hostWriteReg_ctrl hr, State.writeCtrl_start h1 h0]
  rcases s.start_cases caps with ⟨hbad, -⟩ | ⟨-, hl, e⟩ | ⟨-, hl, e⟩
  · rw [hgood] at hbad; cases hbad
  · exact ⟨fun h => absurd hl (by omega), fun _ => e⟩
  · refine ⟨fun _ => ?_, fun h => absurd hl (by omega)⟩
    rw [e, hhead]
    rfl

end Sys2Proof.Machine
end

section
/-!
PROOFS. The previous frame and the opcodes of a key frame (R141): opcodes 0 and 21 to 47 never copy. Two states that
differ in the memory in the previous role only are related by `SameButPrv`. The operations other than the copies keep
that relation, so the pairing of two runs goes through for every base that does not copy; the pairing of all
instructions (`KeptByCopies.instrBody`) does not serve here, since it asks for runs that see one previous frame.
-/

namespace Sys2Proof

/-- Is the base primitive one of the nine of 41_motion.md, which copy from the previous frame (R161 to R169)? -/
def Base.copies : Base → Bool
  | .zero | .shortMotion8 | .motion8 | .shortMotion4 | .motion4 | .roMotion8 | .rcMotion8 | .roMotion4 | .rcMotion4 => true
  | _ => false

theorem decode_copies_eq_false : ∀ op : BitVec 6, op = 0 ∨ (21 ≤ op.toNat ∧ op.toNat ≤ 47) →
    (decode op).base.copies = false := by decide

/-- The instructions of a key frame do not copy (R103, R141). -/
theorem Instr.copies_eq_false {i : Instr} (h : i.opcode = 0 ∨ (21 ≤ i.opcode.toNat ∧ i.opcode.toNat ≤ 47)) :
    i.base.copies = false := by
  rw [← decode_opcode i]
  exact decode_copies_eq_false _ h

end Sys2Proof

namespace Sys2Proof.Machine

/-! ### Instructions that do not copy -/

section Bodies

variable {R : State → State → Prop}

/-- Two runs of one base primitive that does not copy, in states that need not agree on the previous frame. -/
theorem Kept.baseBody (hk : Kept R) {b : Base} (hb : b.copies = false) :
    Alike R Locals.Any Locals.Any (baseBody b) (baseBody b) := by
  cases b with
  | zero | shortMotion8 | motion8 | shortMotion4 | motion4 | roMotion8 | rcMotion8 | roMotion4 | rcMotion4 => cases hb
  | raw => exact .loop fun r hr => .loop fun c hc => hk.a8.bind fun v => hk.pix hr hc v
  | singleFill => exact hk.u8.bind fun v => .loop fun r hr => .loop fun c hc => hk.pix hr hc v
  | fourFill => exact .loop fun q hq => hk.a8.bind fun v => .loop fun r hr => .loop fun c hc => hk.qpix hq hr hc v
  | oneBit => exact (Alike.list hk.u8).bind fun _ => .loop fun r hr => hk.a8.bind fun _ => hk.packedRow _ _ _ hr
  | twoBit => exact (Alike.list hk.a8).bind fun _ => .loop fun r hr => hk.a16.bind fun _ => hk.packedRow _ _ _ hr
  | threeBit => exact (Alike.list hk.u8).bind fun _ => .loop fun r hr => hk.a24.bind fun _ => hk.packedRow _ _ _ hr
  | fourBit => exact (Alike.list hk.u8).bind fun _ => .loop fun r hr => hk.a32.bind fun _ => hk.packedRow _ _ _ hr
  | oneBitSplit =>
    exact .loop fun q hq => hk.a16.bind fun _ => (Alike.list hk.a8).bind fun _ => hk.packedQuad _ _ _ hq (by omega)
  | twoBitSplit =>
    exact .loop fun q hq => hk.a32.bind fun _ => (Alike.list hk.a8).bind fun _ => hk.packedQuad _ _ _ hq (by omega)
  | threeBitSplit =>
    exact .loop fun q hq => (Alike.list hk.u8).bind fun _ => .loop fun h hh => hk.a24.bind fun _ =>
      hk.packedQuad _ _ _ hq (by omega)
  | cross =>
    exact (Alike.list hk.a8).bind fun _ => hk.a32.bind fun _ => .loop fun q hq => .loop fun d hd =>
      hk.qpix hq (by omega) (by omega) _
  | prime =>
    exact hk.u8.bind fun bg => .loop fun r hr => hk.a8.bind fun m => .loop fun c hc => by
      split
      · exact hk.u8.bind fun v => hk.pix hr hc v
      · exact hk.pix hr hc bg
  | oneBank => exact hk.oneBank
  | twoBanks => exact hk.u8.bind fun b => .loop fun r hr => hk.a40.bind fun v => .loop fun c hc => hk.pix hr hc _
  | blockH => exact hk.runMask posH_inTile
  | blockV => exact hk.runMask posV_inTile
  | blockD1 | blockD2 => exact hk.runMask (posTable_inTile _)
  | bank1H => exact hk.bank1 posH_inTile
  | bank1V => exact hk.bank1 posV_inTile
  | bank1D1 | bank1D2 => exact hk.bank1 (posTable_inTile _)

/-- Two runs of one instruction that does not copy. -/
theorem Kept.instrBody (hk : Kept R) {i : Instr} (hi : i.base.copies = false) :
    Alike R Locals.Any Locals.Any (instrBody i) (instrBody i) := by
  unfold Machine.instrBody
  cases i.overlay with
  | none => exact hk.baseBody hi
  | some o => exact (hk.baseBody hi).bind fun _ => hk.overlayBody o

end Bodies

/-! ### States that differ in the previous frame only -/

/-- The state with `m` in the previous role. -/
def State.withPrv (s : State) (m : Memory) : State :=
  { s with fb0 := if s.bufsel then m else s.fb0, fb1 := if s.bufsel then s.fb1 else m }

theorem State.withPrv_eq_ite (s : State) (m : Memory) :
    s.withPrv m = if s.bufsel then { s with fb0 := m } else { s with fb1 := m } := by
  rcases h : s.bufsel <;> simp [State.withPrv, h]

/-- The two states agree on everything but the memory in the previous role. -/
def State.SameButPrv (s s' : State) : Prop := ∃ m, s' = s.withPrv m

/-- An update that does not look at the previous frame keeps the relation. -/
theorem State.SameButPrv.map {s s' : State} (h : s.SameButPrv s') (f : State → State)
    (hf : ∀ m, f (s.withPrv m) = (f s).withPrv m) : (f s).SameButPrv (f s') := by
  obtain ⟨m, rfl⟩ := h
  exact ⟨m, hf m⟩

theorem State.setByte_cur_withPrv (s : State) (m : Memory) (a : Nat) (v : Byte) :
    (s.withPrv m).setByte .cur a v = (s.setByte .cur a v).withPrv m := by
  rcases h : s.bufsel <;> simp [State.withPrv, State.setByte, h]

theorem State.sameButPrv_kept : Kept State.SameButPrv where
  width := by rintro s _ ⟨m, rfl⟩; rfl
  tileOfs := by rintro s _ ⟨m, rfl⟩; rfl
  alnPtr := by rintro s _ ⟨m, rfl⟩; rfl
  unaPtr := by rintro s _ ⟨m, rfl⟩; rfl
  payloadLen := by rintro s _ ⟨m, rfl⟩; rfl
  plByte := by rintro s _ ⟨m, rfl⟩ a; rfl
  setPixel h r c _ _ v := h.map (fun s => s.setByte .cur (s.pixAddr r c) v) fun m => State.setByte_cur_withPrv _ m _ v
  setPointers h a u := h.map (fun s => { s with alnPtr := a, unaPtr := u }) fun _ => rfl
  mapLocals h g := h.map (fun s => s.mapLocals g) fun _ => rfl

/-- Pixels written at given places do not look at the previous frame. -/
theorem State.foldPixels_withPrv (s : State) (m : Memory) (place : Nat → Nat) (v : Nat → Byte) (l : List Nat) :
    l.foldl (fun t k => t.setByte .cur (place k) (v k)) (s.withPrv m)
      = (l.foldl (fun t k => t.setByte .cur (place k) (v k)) s).withPrv m := by
  induction l generalizing s with
  | nil => rfl
  | cons k l ih => rw [List.foldl_cons, List.foldl_cons, State.setByte_cur_withPrv, ih]

theorem State.freeTile_withPrv (s : State) (m : Memory) : (s.withPrv m).freeTile = s.freeTile.withPrv m := by
  have hplace : ∀ r c, (s.withPrv m).pixAddr r c = s.pixAddr r c := fun _ _ => rfl
  have htick : (s.withPrv m).freeTick = s.freeTick := rfl
  unfold State.freeTile
  simp only [hplace, htick]
  rw [s.foldPixels_withPrv m (fun k => s.pixAddr (k / 8) (k % 8)) (fun k => Config.faultPixel (s.freeTick + k))]
  generalize List.foldl _ s _ = u
  rfl

/-- Taking an overrun (R321, R323) does not look at it either. -/
theorem State.overrunInStep_withPrv (s : State) (m : Memory) (op : BitVec 6) (e : Overrun) :
    (s.withPrv m).overrunInStep op e = (s.overrunInStep op e).withPrv m := by
  unfold State.overrunInStep
  rw [State.freeTile_withPrv]
  generalize s.freeTile = u
  rfl

/-- An instruction that does not copy takes related states to related states. -/
theorem exec_sameButPrv {s s' t : State} (h : s.SameButPrv s') {i : Instr} (hi : i.base.copies = false)
    (hx : exec i s = .next t) : ∃ t', exec i s' = .next t' ∧ t.SameButPrv t' := by
  rw [exec_eq_runTile] at hx
  simp only [exec_eq_runTile]
  have hc := (State.sameButPrv_kept.instrBody hi).came s s' h trivial
  unfold runTile at hx ⊢
  generalize instrBody i s = x, instrBody i s' = x' at hc hx
  cases hc with
  | ok _ hR _ => cases hx; exact ⟨_, rfl, hR⟩
  | error e hR =>
    cases hx
    exact ⟨_, rfl, hR.map (fun t => t.overrunInStep i.opcode e) fun m => State.overrunInStep_withPrv _ m _ e⟩

/-- No instruction changes the previous frame or swaps the roles (R60). -/
theorem exec_prv {i : Instr} {s t : State} (hx : exec i s = .next t) : t.prvMem = s.prvMem ∧ t.bufsel = s.bufsel := by
  obtain ⟨u, hu, -, hc | ⟨e, hc⟩⟩ := exec_cases i s <;> rw [hc] at hx <;> cases hx
  · exact ⟨hu.2.1, hu.kept.bufsel⟩
  · obtain ⟨v, hv, -, -, -, -, e⟩ := u.overrunInStep_spec i.opcode e
    rw [e]
    exact ⟨(hu.trans hv).2.1, (hu.trans hv).kept.bufsel⟩

/-- Settles O59: what the states differ in is the memory in the previous role, which no instruction writes and which
these do not read. -/
theorem keyFrameOpcodesIgnorePrevious : Obligations.KeyFrameOpcodesIgnorePrevious := by
  intro i hi s s' t h hx
  have hR : s.SameButPrv s' := by
    by_cases hb : s.bufsel
    · exact ⟨s'.fb0, by rw [State.withPrv_eq_ite, if_pos hb]; rwa [if_pos hb] at h⟩
    · exact ⟨s'.fb1, by rw [State.withPrv_eq_ite, if_neg hb]; rwa [if_neg hb] at h⟩
  obtain ⟨t', hx', m, rfl⟩ := exec_sameButPrv hR (Instr.copies_eq_false hi) hx
  obtain ⟨hprv, hsel⟩ := exec_prv hx
  refine ⟨_, hx', (exec_prv hx').1, hprv, ?_⟩
  rw [State.withPrv_eq_ite, hsel]
  split <;> rfl

end Sys2Proof.Machine
end

section
/-!
PROOFS. From what the body of an instruction draws to both clauses of the statement about its `exec`: the tile that is
done when the records fit, and the overrun when one does not. No read of an instruction is wider than
`Instr.widestAligned` and `Instr.widestUnaligned` say (`narrow_instrBody`), so `Draws.answers` needs to be told what the
body draws, and nothing else.
-/

namespace Sys2Proof.Machine

/-! ### How wide the reads of an instruction are -/

theorem narrow_runMask (pos : Traversal) {wa wu : Nat} (ha : 1 ≤ wa) (hu : 1 ≤ wu) : Narrow (runMask pos) wa wu :=
  (narrow_modify _ _ _).bind fun _ => narrow_maskLoop pos ha (narrow_u8 wa hu)

theorem narrow_bank1 (pos : Traversal) {wa wu : Nat} (ha : 1 ≤ wa) (hu : 1 ≤ wu) : Narrow (bank1 pos) wa wu :=
  (narrow_u8 wa hu).bind fun _ => (narrow_modify _ _ _).bind fun _ => (narrow_modify _ _ _).bind fun _ =>
    narrow_maskLoop pos ha ((narrow_nextNibble wa hu).bind fun _ => (narrow_get _ _).bind fun _ => .pure _ _ _)

theorem narrow_copyRelative8 (o : Int) (wa wu : Nat) : Narrow (copyRelative8 o) wa wu :=
  (narrow_get _ _).bind fun _ => narrow_copy8 _ _ _

theorem narrow_copyRelative4 (q : Nat) (o : Int) (wa wu : Nat) : Narrow (copyRelative4 q o) wa wu :=
  (narrow_get _ _).bind fun _ => narrow_copy4 _ _ _ _

/-- The reads of a base primitive are as wide as `Base.widestAligned` and `Base.widestUnaligned` say. -/
theorem narrow_baseBody (b : Base) : Narrow (baseBody b) b.widestAligned b.widestUnaligned := by
  cases b with
  | raw => exact .loop fun _ => .loop fun _ => (narrow_a8 _ (by decide)).bind fun _ => narrow_pix _ _ _ _ _
  | zero => exact (narrow_get _ _).bind fun _ => narrow_copy8 _ _ _
  | shortMotion8 =>
    exact (narrow_u8 _ (by decide)).bind fun _ => (narrow_get _ _).bind fun _ => narrow_copyRelative8 _ _ _
  | motion8 => exact (narrow_u16 _ (by decide)).bind fun _ => narrow_copy8 _ _ _
  | shortMotion4 =>
    exact .loop fun _ => (narrow_a8 _ (by decide)).bind fun _ => (narrow_get _ _).bind fun _ =>
      narrow_copyRelative4 _ _ _ _
  | motion4 => exact .loop fun _ => (narrow_a16 _ (by decide)).bind fun _ => narrow_copy4 _ _ _ _
  | singleFill =>
    exact (narrow_u8 _ (by decide)).bind fun _ => .loop fun _ => .loop fun _ => narrow_pix _ _ _ _ _
  | fourFill =>
    exact .loop fun _ => (narrow_a8 _ (by decide)).bind fun _ => .loop fun _ => .loop fun _ =>
      narrow_qpix _ _ _ _ _ _
  | oneBit =>
    exact (Narrow.list (narrow_u8 _ (by decide))).bind fun _ => .loop fun _ =>
      (narrow_a8 _ (by decide)).bind fun _ => narrow_packedRow _ _ _ _ _ _
  | twoBit =>
    exact (Narrow.list (narrow_a8 _ (by decide))).bind fun _ => .loop fun _ =>
      (narrow_a16 _ (by decide)).bind fun _ => narrow_packedRow _ _ _ _ _ _
  | threeBit =>
    exact (Narrow.list (narrow_u8 _ (by decide))).bind fun _ => .loop fun _ =>
      (narrow_a24 _ (by decide)).bind fun _ => narrow_packedRow _ _ _ _ _ _
  | fourBit =>
    exact (Narrow.list (narrow_u8 _ (by decide))).bind fun _ => .loop fun _ =>
      (narrow_a32 _ (by decide)).bind fun _ => narrow_packedRow _ _ _ _ _ _
  | oneBitSplit =>
    exact .loop fun _ => (narrow_a16 _ (by decide)).bind fun _ => (Narrow.list (narrow_a8 _ (by decide))).bind fun _ =>
      narrow_packedQuad _ _ _ _ _ _ _ _
  | twoBitSplit =>
    exact .loop fun _ => (narrow_a32 _ (by decide)).bind fun _ => (Narrow.list (narrow_a8 _ (by decide))).bind fun _ =>
      narrow_packedQuad _ _ _ _ _ _ _ _
  | threeBitSplit =>
    exact .loop fun _ => (Narrow.list (narrow_u8 _ (by decide))).bind fun _ => .loop fun _ =>
      (narrow_a24 _ (by decide)).bind fun _ => narrow_packedQuad _ _ _ _ _ _ _ _
  | cross =>
    exact (Narrow.list (narrow_a8 _ (by decide))).bind fun _ => (narrow_a32 _ (by decide)).bind fun _ =>
      .loop fun _ => .loop fun _ => narrow_qpix _ _ _ _ _ _
  | prime =>
    exact (narrow_u8 _ (by decide)).bind fun _ => .loop fun _ => (narrow_a8 _ (by decide)).bind fun _ =>
      .loop fun _ => .ite ((narrow_u8 _ (by decide)).bind fun _ => narrow_pix _ _ _ _ _) (narrow_pix _ _ _ _ _)
  | oneBank =>
    have hpix : ∀ (r c : Nat) (n : BitVec 4), Narrow (do pix r c (bankPixel (← get).bank n)) 1 1 := fun _ _ _ =>
      (narrow_get _ _).bind fun _ => narrow_pix _ _ _ _ _
    exact (narrow_u8 _ (by decide)).bind fun _ => (narrow_modify _ _ _).bind fun _ => .loop fun _ => .loop fun _ =>
      (narrow_a8 _ (by decide)).bind fun _ => (narrow_get _ _).bind fun _ => (narrow_pix _ _ _ _ _).bind fun _ =>
        hpix _ _ _
  | twoBanks =>
    exact (narrow_u8 _ (by decide)).bind fun _ => .loop fun _ => (narrow_a40 _ (by decide)).bind fun _ =>
      .loop fun _ => narrow_pix _ _ _ _ _
  | blockH | blockV | blockD1 | blockD2 => exact narrow_runMask _ (by decide) (by decide)
  | bank1H | bank1V | bank1D1 | bank1D2 => exact narrow_bank1 _ (by decide) (by decide)
  | roMotion8 => exact (narrow_u16s _ (by decide)).bind fun _ => narrow_copyRelative8 _ _ _
  | rcMotion8 => exact (narrow_uxy _ (by decide)).bind fun _ => narrow_copyRelative8 _ _ _
  | roMotion4 => exact .loop fun _ => (narrow_a16s _ (by decide)).bind fun _ => narrow_copyRelative4 _ _ _ _
  | rcMotion4 => exact .loop fun _ => (narrow_axy _ (by decide)).bind fun _ => narrow_copyRelative4 _ _ _ _

/-- An overlay reads single bytes of the aligned stream. -/
theorem narrow_overlayBody (o : Overlay) : Narrow (overlayBody o) 1 o.widestUnaligned := by
  cases o with
  | update4 => exact narrow_update4 (by decide) (by decide)
  | update8 => exact narrow_update8 (by decide) (by decide)
  | update16 => exact narrow_update16 (by decide) (by decide)

theorem narrow_instrBody (i : Instr) : Narrow (instrBody i) i.widestAligned i.widestUnaligned := by
  have hbase : Narrow (baseBody i.base) i.widestAligned i.widestUnaligned :=
    (narrow_baseBody i.base).mono (Nat.le_max_left ..) (Nat.le_max_left ..)
  unfold instrBody
  cases ho : i.overlay with
  | none => exact hbase
  | some o =>
    refine hbase.bind fun _ => (narrow_overlayBody o).mono ?_ ?_
    · simp [Instr.widestAligned, ho]
    · simp [Instr.widestUnaligned, ho]

/-! ### Both clauses of a statement about `exec` -/

/-- An instruction whose body draws the whole tile completes when its records fit, and is overrun when one does not. -/
theorem Draws.answers {i : Instr} {s : State} {px : Nat → Nat → Byte} {oob : Prop}
    (h : Draws (instrBody i) s i.alignedSize (s.unalignedNeed i) (fun r c => some (px r c)) oob) :
    (s.Readable i → ∃ t, exec i s = .next t ∧ s.TileDone t i.alignedSize (s.unalignedNeed i) px oob ∧ s.SameLocals t) ∧
      (¬ s.Readable i → ∃ t, exec i s = .next t ∧ s.Overran t i) := by
  simp only [exec_eq_runTile]
  refine ⟨fun ⟨ha, hu⟩ => h.result ha hu, fun hf => ?_⟩
  obtain ⟨e, t, -, ht, ho⟩ := Runs.overran h rfl rfl (narrow_instrBody i) hf
  exact ⟨_, ht, ho⟩

end Sys2Proof.Machine
end

section
/-!
PROOFS. The copies from the previous frame (R160 to R169). Each of these instructions reads a vector or an index and
copies the block that it names: one block for the tile (`Copies8`), or one for each quadrant (`Copies4`). `Reads` says
what an operand reader gives; `State.Copies8.draws` and `draws_quadrants` join the two.
-/

namespace Sys2Proof.Machine

/-! ### Operand readers -/

/-- `f` reads `A` aligned and `U` unaligned bytes and gives `v`; it changes nothing but the stream pointers. -/
abbrev Reads {α : Type} (f : Exec α) (s : State) (A U : Nat) (v : α) : Prop :=
  Runs f s A U fun w t => w = v ∧ t = { s with alnPtr := t.alnPtr, unaPtr := t.unaPtr }

section Readers

variable {α β : Type} {f : Exec α} {g : α → Exec β} {s : State} {A U A' U' : Nat} {v : α} {w : β}

theorem Reads.map (k : α → β) (h : Reads f s A U v) : Reads (f >>= fun x => pure (k x)) s A U (k v) :=
  Runs.map k h fun _ _ ⟨hv, ht⟩ => ⟨by rw [hv], ht⟩

theorem Reads.bind (hf : Reads f s A U v)
    (hg : ∀ t, s.InTile t → t.alnPtr = s.alnPtr + BitVec.ofNat 32 A → t.unaPtr = s.unaPtr + BitVec.ofNat 32 U →
      s.Fits s.alnPtr A → s.Fits s.unaPtr U → Reads (g v) t A' U' w) :
    Reads (f >>= g) s (A + A') (U + U') w := by
  refine Runs.bind hf fun x t ht ha hu fa fu ⟨hx, e⟩ => ?_
  subst hx
  exact (hg t ht ha hu fa fu).weaken fun y u _ ⟨hy, hu⟩ => ⟨hy, by rw [hu, e]⟩

/-- A value that depends on the state by the width of the frame only. -/
theorem reads_ofWidth (s : State) (k : Nat → α) : Reads (do return k (← get).width) s 0 0 (k s.width) :=
  (runs_get s).map _ fun _ _ ⟨hv, ht⟩ => ⟨by rw [hv], by rw [ht]⟩

end Readers

/-- `U16s()` (R68). -/
theorem reads_u16s (s : State) : Reads u16s s 0 2 (BitVec.ofNat 16 (s.unalignedWord 0 2)).toInt :=
  Reads.map BitVec.toInt (reads_u16 s)

/-- `A16s()` (R67). -/
theorem reads_a16s (s : State) : Reads a16s s 2 0 (BitVec.ofNat 16 (s.alignedWord 0 2)).toInt :=
  Reads.map BitVec.toInt (reads_a16 s)

/-- `UXY()` (R69). -/
theorem reads_uxy (s : State) : Reads uxy s 0 2 (xyOffset s.width (s.unalignedByte 0) (s.unalignedByte 1)) := by
  refine Reads.bind (A' := 0) (U' := 1) (reads_u8 s) fun t ht _ hu _ fu => ?_
  refine Reads.bind (A' := 0) (U' := 0) (reads_u8 t) fun u hu' _ _ _ _ => ?_
  rw [State.unalignedByte_add ht hu fu, ← (ht.trans hu').width]
  exact reads_ofWidth u fun w => xyOffset w _ _

/-- `AXY()` (R69). -/
theorem reads_axy (s : State) : Reads axy s 2 0 (xyOffset s.width (s.alignedByte 0) (s.alignedByte 1)) := by
  refine Reads.bind (A' := 1) (U' := 0) (reads_a8 s) fun t ht ha _ fa _ => ?_
  refine Reads.bind (A' := 0) (U' := 0) (reads_a8 t) fun u hu' _ _ _ _ => ?_
  rw [State.alignedByte_add ht ha fa, ← (ht.trans hu').width]
  exact reads_ofWidth u fun w => xyOffset w _ _

/-- An index of 16 bits is the number its two bytes spell (R61). -/
theorem State.toNat_unalignedWord_two (s : State) (k : Nat) :
    (BitVec.ofNat 16 (s.unalignedWord k 2)).toNat = s.unalignedWord k 2 :=
  BitVec.toNat_ofNat _ 16 ▸ Nat.mod_eq_of_lt (s.memRead_lt .pl _ 2)

/-- The same of the aligned record. -/
theorem State.toNat_alignedWord_two (s : State) (k : Nat) :
    (BitVec.ofNat 16 (s.alignedWord k 2)).toNat = s.alignedWord k 2 :=
  BitVec.toNat_ofNat _ 16 ▸ Nat.mod_eq_of_lt (s.memRead_lt .pl _ 2)

/-! ### Sources -/

/-- A pixel's own address is its source when the block at `TILE_OFS` is copied (R161). -/
theorem State.pixAddr_eq_source8x8 (s : State) (r c : Nat) :
    (s.pixAddr r c : Int) = s.source8x8 s.tileOfs.toNat r c := by
  rw [State.source8x8, State.pixAddr, Nat.add_assoc, Int.natCast_add]

/-- `TILE_OFS + BIAS8 + o` with the bias written out (R160). -/
theorem State.source8_eq (s : State) (o : Int) : s.source8 o = s.tileOfs.toNat + 4 + 4 * s.width + o := by
  unfold State.source8 bias8
  ring

/-- `TILE_OFS + QUAD_OFS[q]` is the top-left of quadrant `q` (R73). -/
theorem State.quadrantOrigin_eq (s : State) {q : Nat} (hq : q < 4) :
    s.quadrantOrigin q = s.tileOfs.toNat + s.quadOfs q := by
  have h := s.qpixAddr_eq hq 0 0
  simp only [State.qpixAddr, State.pixAddr, Nat.add_zero, Nat.zero_mul] at h
  unfold State.quadrantOrigin
  omega

/-- `TILE_OFS + QUAD_OFS[q] + BIAS4 + o` with the bias written out (R160). -/
theorem State.source4_eq (s : State) {q : Nat} (hq : q < 4) (o : Int) :
    s.source4 q o = s.quadrantOrigin q + 2 + 2 * s.width + o := by
  rw [s.quadrantOrigin_eq hq, State.source4, bias4]
  ring

theorem State.InTile.source8 {s t : State} (h : s.InTile t) (o : Int) : t.source8 o = s.source8 o := by
  simp only [State.source8, h.kept.tileOfs, h.width]

theorem State.InTile.source4 {s t : State} (h : s.InTile t) (q : Nat) (o : Int) : t.source4 q o = s.source4 q o := by
  have hq : t.quadOfs q = s.quadOfs q := by unfold State.quadOfs; rw [h.width]
  simp only [State.source4, h.kept.tileOfs, h.width, hq]

theorem State.InTile.inFrame {s t : State} (h : s.InTile t) (a : Int) : t.InFrame a ↔ s.InFrame a := by
  rw [State.InFrame, h.frameSize]

/-! ### One block for the tile -/

/-- Run anywhere in the tile of `s`, `f` draws the tile with the 8×8 block at `src` of the previous frame and reads no
operand (R75). -/
def State.Copies8 (s : State) (f : Exec Unit) (src : Int) : Prop :=
  ∀ t, s.InTile t → Draws f t 0 0 (fun r c => some (s.prevByte (s.source8x8 src r c)))
    (s.SourceOutside (s.source8x8 src))

/-- Reading the state first. -/
theorem State.Copies8.get {s : State} {g : State → Exec Unit} {src : Int}
    (h : ∀ t, s.InTile t → s.Copies8 (g t) src) : s.Copies8 (get >>= g) src :=
  fun t ht => ⟨(h t ht t ht).came⟩

theorem State.copies8_copy8 {s : State} (hw : 8 ≤ s.width) (src : Int) : s.Copies8 (copy8 src) src := by
  intro t ht
  have hsrc : ∀ r c, t.source8x8 src r c = s.source8x8 src r c := fun r c => by
    rw [State.source8x8, State.source8x8, ht.width]
  refine (draws_copy8 (ht.width ▸ hw) src).congr (fun r c _ _ => ?_) ?_
  · rw [ht.prevByte, hsrc]
  · simp only [State.SourceOutside, ht.inFrame, hsrc]

theorem State.copies8_copyRelative8 {s : State} (hw : 8 ≤ s.width) (o : Int) :
    s.Copies8 (copyRelative8 o) (s.source8 o) :=
  .get fun _ ht => ht.source8 o ▸ State.copies8_copy8 hw _

/-- `f` draws the tile with the 8×8 block at `src` of the previous frame (R75). -/
abbrev DrawsBlock (f : Exec Unit) (s : State) (A U : Nat) (src : Int) : Prop :=
  Draws f s A U (fun r c => some (s.prevByte (s.source8x8 src r c))) (s.SourceOutside (s.source8x8 src))

/-- An operand is read, and the block that it names is copied. -/
theorem State.Copies8.draws {α : Type} {f : Exec α} {g : α → Exec Unit} {s : State} {A U : Nat} {v : α} {src : Int}
    (hg : s.Copies8 (g v) src) (hf : Reads f s A U v) :
    DrawsBlock (f >>= g) s A U src :=
  Draws.read (A' := 0) (U' := 0) hf fun _ t hv ht _ _ _ _ => hv ▸ hg t ht

/-! ### One block for each quadrant -/

/-- Run anywhere in the tile of `s`, `f` draws quadrant `q` with the 4×4 block at `src` of the previous frame and reads
no operand (R75). -/
def State.Copies4 (s : State) (q : Nat) (f : Exec Unit) (src : Int) : Prop :=
  ∀ t, s.InTile t → Draws f t 0 0
    (fun r c => if quadrantOf r c = q then some (s.prevByte (src + (r % 4 * s.width + c % 4 : Nat))) else none)
    (∃ r c, r < 4 ∧ c < 4 ∧ ¬ s.InFrame (src + (r * s.width + c : Nat)))

/-- Reading the state first. -/
theorem State.Copies4.get {s : State} {q : Nat} {g : State → Exec Unit} {src : Int}
    (h : ∀ t, s.InTile t → s.Copies4 q (g t) src) : s.Copies4 q (get >>= g) src :=
  fun t ht => ⟨(h t ht t ht).came⟩

theorem State.copies4_copy4 {s : State} (hw : 8 ≤ s.width) {q : Nat} (hq : q < 4) (src : Int) :
    s.Copies4 q (copy4 q src) src := by
  intro t ht
  refine (draws_copy4 (ht.width ▸ hw) hq src).congr (fun r c _ _ => ?_) ?_
  · rw [ht.prevByte, ht.width]
  · simp only [ht.inFrame, ht.width]

theorem State.copies4_copyRelative4 {s : State} (hw : 8 ≤ s.width) {q : Nat} (hq : q < 4) (o : Int) :
    s.Copies4 q (copyRelative4 q o) (s.source4 q o) :=
  .get fun _ ht => ht.source4 q o ▸ State.copies4_copy4 hw hq _

/-- Some quadrant's block reaches outside the frame exactly when some pixel of the tile has its source outside. -/
theorem State.sourceOutside_source4x4 (s : State) (src : Nat → Int) :
    s.SourceOutside (s.source4x4 src) ↔
      ∃ q, q < 4 ∧ ∃ r c, r < 4 ∧ c < 4 ∧ ¬ s.InFrame (src q + (r * s.width + c : Nat)) := by
  constructor
  · rintro ⟨r, c, hr, hc, h⟩
    exact ⟨quadrantOf r c, by unfold quadrantOf; omega, r % 4, c % 4, by omega, by omega, h⟩
  · rintro ⟨q, hq, r, c, hr, hc, h⟩
    obtain ⟨hr8, hc8, hquad, hrow, hcol⟩ := (quadrant_place hq hr hc).1 ⟨rfl, rfl⟩
    refine ⟨_, _, hr8, hc8, ?_⟩
    rw [State.source4x4, hquad, hrow, hcol]
    exact h

/-- `f` draws each quadrant `q` with the 4×4 block at `src q` of the previous frame (R75). -/
abbrev DrawsQuadrants (f : Exec Unit) (s : State) (A U : Nat) (src : Nat → Int) : Prop :=
  Draws f s A U (fun r c => some (s.prevByte (s.source4x4 src r c))) (s.SourceOutside (s.source4x4 src))

/-- For each quadrant an operand of `n` aligned bytes is read, and the block that it names is copied. -/
theorem draws_quadrants {α : Type} {f : Exec α} {g : Nat → α → Exec Unit} {s : State} (n : Nat) (v : Nat → α)
    (src : Nat → Int) (hg : ∀ q, q < 4 → s.Copies4 q (g q (v q)) (src q))
    (hf : ∀ q t, s.InTile t → t.alnPtr = s.alnPtr + BitVec.ofNat 32 (n * q) → s.Fits s.alnPtr (n * q) →
      Reads f t n 0 (v q)) :
    DrawsQuadrants (forUpTo 4 fun q => f >>= g q) s (n * 4) 0 src := by
  refine (Draws.loop (n := 4) (fun q => n * q) (fun _ => 0)
    (fun q r c => if quadrantOf r c = q then some (s.prevByte (src q + (r % 4 * s.width + c % 4 : Nat))) else none)
    (fun q => ∃ r c, r < 4 ∧ c < 4 ∧ ¬ s.InFrame (src q + (r * s.width + c : Nat))) (Nat.mul_zero n) rfl
    (fun q => Nat.mul_le_mul_left n (Nat.le_succ q)) (fun _ => Nat.le_refl 0) fun q t hq ht ha _ fa _ => ?_).congr
    (fun r c hr hc => ?_) (s.sourceOutside_source4x4 src)
  · rw [Nat.mul_succ, Nat.add_sub_cancel_left]
    exact Draws.read (A' := 0) (U' := 0) (hf q t ht ha fa) fun _ u hv hu _ _ _ _ => hv ▸ hg q hq u (ht.trans hu)
  · refine (layers_last (i := quadrantOf r c) (by unfold quadrantOf; omega) (if_pos rfl) fun j hj _ => ?_).symm
    exact if_neg (Nat.ne_of_lt hj)

/-! ### What each instruction draws -/

section Bodies

variable {s : State} (hw : 8 ≤ s.width)
include hw

theorem draws_zero : Draws baseZero s 0 0 (fun r c => some (s.prevByte (s.pixAddr r c)))
    (s.SourceOutside fun r c => s.pixAddr r c) := by
  have h : s.Copies8 baseZero s.tileOfs.toNat := .get fun t ht => ht.kept.tileOfs ▸ State.copies8_copy8 hw _
  simp only [s.pixAddr_eq_source8x8]
  exact h s (.refl s)

theorem draws_shortMotion8 :
    DrawsBlock baseShortMotion8 s 0 1 (s.tileOfs.toNat + 4 + 4 * s.width + smVec s.width (s.unalignedByte 0)) := by
  rw [← State.source8_eq]
  refine State.Copies8.draws (.get fun t ht => ?_) (reads_u8 s)
  rw [ht.width]
  exact State.copies8_copyRelative8 hw _

theorem draws_motion8 : DrawsBlock baseMotion8 s 0 2 (s.unalignedWord 0 2 : Nat) := by
  rw [← State.toNat_unalignedWord_two]
  exact State.Copies8.draws (State.copies8_copy8 hw _) (reads_u16 s)

theorem draws_roMotion8 :
    DrawsBlock baseRoMotion8 s 0 2
      (s.tileOfs.toNat + 4 + 4 * s.width + (BitVec.ofNat 16 (s.unalignedWord 0 2)).toInt) := by
  rw [← State.source8_eq]
  exact State.Copies8.draws (State.copies8_copyRelative8 hw _) (reads_u16s s)

theorem draws_rcMotion8 :
    DrawsBlock baseRcMotion8 s 0 2
      (s.tileOfs.toNat + 4 + 4 * s.width + xyOffset s.width (s.unalignedByte 0) (s.unalignedByte 1)) := by
  rw [← State.source8_eq]
  exact State.Copies8.draws (State.copies8_copyRelative8 hw _) (reads_uxy s)

theorem draws_shortMotion4 :
    DrawsQuadrants baseShortMotion4 s 4 0 fun q =>
      s.quadrantOrigin q + 2 + 2 * s.width + smVec s.width (s.alignedByte q) := by
  refine draws_quadrants 1 s.alignedByte _ (fun q hq => .get fun t ht => ?_) fun q t ht ha fa => ?_
  · rw [← s.source4_eq hq, ht.width]
    exact State.copies4_copyRelative4 hw hq _
  · have h := reads_a8 t
    rwa [State.alignedByte_add ht ha fa, Nat.one_mul] at h

theorem draws_motion4 : DrawsQuadrants baseMotion4 s 8 0 fun q => (s.alignedWord (2 * q) 2 : Nat) := by
  refine draws_quadrants 2 (fun q => BitVec.ofNat 16 (s.alignedWord (2 * q) 2)) _ (fun q hq => ?_)
    fun q t ht ha fa => ?_
  · rw [State.toNat_alignedWord_two]
    exact State.copies4_copy4 hw hq _
  · have h := reads_a16 t
    rwa [State.alignedWord_add ht ha fa] at h

theorem draws_roMotion4 :
    DrawsQuadrants baseRoMotion4 s 8 0 fun q =>
      s.quadrantOrigin q + 2 + 2 * s.width + (BitVec.ofNat 16 (s.alignedWord (2 * q) 2)).toInt := by
  refine draws_quadrants 2 (fun q => (BitVec.ofNat 16 (s.alignedWord (2 * q) 2)).toInt) _ (fun q hq => ?_)
    fun q t ht ha fa => ?_
  · rw [← s.source4_eq hq]
    exact State.copies4_copyRelative4 hw hq _
  · have h := reads_a16s t
    rwa [State.alignedWord_add ht ha fa] at h

theorem draws_rcMotion4 :
    DrawsQuadrants baseRcMotion4 s 8 0 fun q =>
      s.quadrantOrigin q + 2 + 2 * s.width + xyOffset s.width (s.alignedByte (2 * q)) (s.alignedByte (2 * q + 1)) := by
  refine draws_quadrants 2 (fun q => xyOffset s.width (s.alignedByte (2 * q)) (s.alignedByte (2 * q + 1))) _
    (fun q hq => ?_) fun q t ht ha fa => ?_
  · rw [← s.source4_eq hq]
    exact State.copies4_copyRelative4 hw hq _
  · have h := reads_axy t
    rwa [State.alignedByte_add ht ha fa, State.alignedByte_add ht ha fa, ht.width] at h

end Bodies

/-! ### The statements -/

/-- In a run the tile of the previous frame at the tile's own place lies in the frame (R76). -/
theorem State.SequencerOk.pixAddr_inside {s : State} (h : s.SequencerOk) :
    ¬ s.SourceOutside fun r c => s.pixAddr r c := by
  rintro ⟨r, c, hr, hc, hout⟩
  have hlt := (State.sequencerOk_iff.1 h).1.pixAddr_lt_frameSize hr hc
  exact hout ⟨Int.natCast_nonneg _, Int.ofNat_lt.2 hlt⟩

/-- Settles O7: no operand is read, so nothing can overrun. -/
theorem zeroResult : Obligations.ZeroResult := by
  refine ⟨rfl, fun s hw => ⟨?_, State.SequencerOk.pixAddr_inside⟩⟩
  have h : Draws (instrBody .zero) s 0 0 _ _ := draws_zero hw
  exact h.answers.1 ⟨.inl rfl, .inl rfl⟩

/-- Settles O8: one unaligned byte, read as a short vector. -/
theorem shortMotion8Result : Obligations.ShortMotion8Result :=
  ⟨rfl, fun _ hw => Draws.answers (i := .shortMotion8) (draws_shortMotion8 hw)⟩

/-- Settles O9: one unaligned index. -/
theorem motion8Result : Obligations.Motion8Result :=
  ⟨rfl, fun _ hw => Draws.answers (i := .motion8) (draws_motion8 hw)⟩

/-- Settles O10: one signed unaligned offset. -/
theorem roMotion8Result : Obligations.ROMotion8Result :=
  ⟨rfl, fun _ hw => Draws.answers (i := .roMotion8) (draws_roMotion8 hw)⟩

/-- Settles O11: one unaligned XY offset. -/
theorem rcMotion8Result : Obligations.RCMotion8Result :=
  ⟨rfl, fun _ hw => Draws.answers (i := .rcMotion8) (draws_rcMotion8 hw)⟩

/-- Settles O12: one aligned byte for each quadrant, read as a short vector. -/
theorem shortMotion4Result : Obligations.ShortMotion4Result :=
  ⟨rfl, fun _ hw => Draws.answers (i := .shortMotion4) (draws_shortMotion4 hw)⟩

/-- Settles O13: one aligned index for each quadrant. -/
theorem motion4Result : Obligations.Motion4Result :=
  ⟨rfl, fun _ hw => Draws.answers (i := .motion4) (draws_motion4 hw)⟩

/-- Settles O14: one signed aligned offset for each quadrant. -/
theorem roMotion4Result : Obligations.ROMotion4Result :=
  ⟨rfl, fun _ hw => Draws.answers (i := .roMotion4) (draws_roMotion4 hw)⟩

/-- Settles O15: one aligned XY offset for each quadrant. -/
theorem rcMotion4Result : Obligations.RCMotion4Result :=
  ⟨rfl, fun _ hw => Draws.answers (i := .rcMotion4) (draws_rcMotion4 hw)⟩

end Sys2Proof.Machine
end

section
/-!
PROOFS. The raw tile and the flat fills (R190 to R192). `Raw` reads a byte before each pixel; a fill reads a byte and
paints the tile, or one quadrant of it, with that byte alone (`draws_fillTile`, `draws_fillQuadrant`).
-/

namespace Sys2Proof

/-- In a stream of zero bytes every opcode is 0 (R190): the bytes past its end count as 0 too. -/
theorem opcodeAt_replicate_zero (n i : Nat) : opcodeAt (List.replicate n 0#8) i = 0#6 := by
  have hbyte (k : Nat) : (List.replicate n 0#8).getD k 0 = 0#8 :=
    List.getD_eq_getElem?_getD.trans (List.getElem?_getD_replicate_default_eq 0#8 n k)
  refine BitVec.eq_of_getLsbD_eq fun k hk => ?_
  rw [opcodeBitsInStream _ i k hk, hbyte, BitVec.getLsbD_zero, BitVec.getLsbD_zero]

end Sys2Proof

namespace Sys2Proof.Machine

/-! ### Blocks of one colour -/

section Blocks

variable {s : State} (hw : 8 ≤ s.width)
include hw

/-- The whole tile in one colour. -/
theorem draws_fillTile (k : Byte) :
    Draws (forUpTo 8 fun r => forUpTo 8 fun c => pix r c k) s 0 0 (fun _ _ => some k) False := by
  refine (Draws.grid 0 0 (fun _ _ => k) (fun _ _ => False) fun r c t hr hc ht => ?_).congr
    (fun r c hr hc => ?_) (by simp)
  · rw [Nat.zero_add, Nat.zero_add]
    exact draws_pix (ht.width ▸ hw) hr hc k
  · exact (if_pos (by omega)).symm

/-- One quadrant in one colour. -/
theorem draws_fillQuadrant {q : Nat} (hq : q < 4) (k : Byte) :
    Draws (forUpTo 4 fun r => forUpTo 4 fun c => qpix q r c k) s 0 0
      (fun r c => if quadrantOf r c = q then some k else none) False := by
  refine (Draws.grid (4 * (q / 2)) (4 * (q % 2)) (fun _ _ => k) (fun _ _ => False) fun r c t hr hc ht =>
    draws_qpix (ht.width ▸ hw) hq hr hc k).congr (fun r c hr hc => if_congr ?_ rfl rfl) (by simp)
  unfold quadrantOf
  omega

/-! ### What each instruction draws -/

/-- One row of the raw tile, its eight bytes read from the aligned stream. -/
theorem draws_rawRow {r0 : Nat} (hr : r0 < 8) :
    Draws (forUpTo 8 fun c => do pix r0 c (← a8)) s 8 0
      (fun r c => if r = r0 ∧ c < 8 then some (s.alignedByte c) else none) False := by
  refine (Draws.loop (n := 8) (fun c => c) (fun _ => 0) (fun c => dot r0 c (s.alignedByte c)) (fun _ => False) rfl rfl
    Nat.le_succ (fun _ => Nat.le_refl 0) fun c t hc ht ha _ fa _ => ?_).congr
    (fun r c _ _ => (layers_dots r c).symm) (by simp)
  rw [Nat.add_sub_cancel_left]
  refine Draws.read (A' := 0) (U' := 0) (reads_a8 t) fun v u hv hu _ _ _ _ => ?_
  rw [hv, State.alignedByte_add ht ha fa]
  exact draws_pix ((ht.trans hu).width ▸ hw) hr hc _

theorem draws_raw : Draws baseRaw s 64 0 (fun r c => some (s.alignedByte (8 * r + c))) False := by
  refine (Draws.loop (n := 8) (fun r => 8 * r) (fun _ => 0)
    (fun r0 r c => if r = r0 ∧ c < 8 then some (s.alignedByte (8 * r0 + c)) else none) (fun _ => False) rfl rfl
    (fun r => Nat.mul_le_mul_left 8 (Nat.le_succ r)) (fun _ => Nat.le_refl 0) fun r t hr ht ha _ fa _ => ?_).congr
    (fun r c hr hc => ?_) (by simp)
  · simp only [← State.alignedByte_add ht ha fa, Nat.mul_succ, Nat.add_sub_cancel_left]
    exact draws_rawRow (ht.width ▸ hw) hr
  · exact (layers_last hr (if_pos ⟨rfl, hc⟩) fun j hj _ => if_neg fun h => Nat.ne_of_lt hj h.1).symm

theorem draws_singleFill : Draws baseSingleFill s 0 1 (fun _ _ => some (s.unalignedByte 0)) False :=
  Draws.read (A' := 0) (U' := 0) (reads_u8 s) fun _ _ hv ht _ _ _ _ => hv ▸ draws_fillTile (ht.width ▸ hw) _

theorem draws_fourFill : Draws baseFourFill s 4 0 (fun r c => some (s.alignedByte (quadrantOf r c))) False := by
  refine (Draws.loop (n := 4) (fun q => q) (fun _ => 0)
    (fun q r c => if quadrantOf r c = q then some (s.alignedByte q) else none) (fun _ => False) rfl rfl
    Nat.le_succ (fun _ => Nat.le_refl 0) fun q t hq ht ha _ fa _ => ?_).congr (fun r c hr hc => ?_) (by simp)
  · rw [Nat.add_sub_cancel_left]
    refine Draws.read (A' := 0) (U' := 0) (reads_a8 t) fun v u hv hu _ _ _ _ => ?_
    rw [hv, State.alignedByte_add ht ha fa]
    exact draws_fillQuadrant ((ht.trans hu).width ▸ hw) hq _
  · have hq : quadrantOf r c < 4 := by unfold quadrantOf; omega
    exact (layers_last hq (if_pos rfl) fun j hj _ => if_neg (Nat.ne_of_lt hj)).symm

end Blocks

/-! ### The statements -/

/-- Settles O16: each row of eight aligned bytes is one row of the tile. -/
theorem rawResult : Obligations.RawResult := by
  refine ⟨rfl, fun s hw => ?_⟩
  obtain ⟨hdone, hover⟩ := Draws.answers (i := .raw) (draws_raw hw)
  exact ⟨hdone, hover, fun n i => by rw [opcodeAt_replicate_zero]; rfl⟩

/-- Settles O17: one unaligned byte for the whole tile. -/
theorem singleFillResult : Obligations.SingleFillResult :=
  ⟨rfl, fun _ hw => Draws.answers (i := .singleFill) (draws_singleFill hw)⟩

/-- Settles O18: one aligned byte for each quadrant. -/
theorem fourFillResult : Obligations.FourFillResult :=
  ⟨rfl, fun _ hw => Draws.answers (i := .fourFill) (draws_fourFill hw)⟩

end Sys2Proof.Machine
end

section
/-!
PROOFS. The bit-packed tiles and the split 4×4 tiles (R200 to R207). The rounds of such an instruction draw the rows or
the quadrants of the tile, each pixel in one of them (`draws_parts`); a round reads a packed word and takes from it one
field for each pixel (`draws_packedRow`, `draws_packedQuad`). `State.Advanced` says which operands have been read, so
that a record is always named by its offset from where the instruction started.
-/

namespace Sys2Proof.Machine

/-! ### Fields of a packed word (R108, R200) -/

theorem fieldOf_lt (v n j : Nat) : fieldOf v n j < 2 ^ n := Nat.mod_lt _ (Nat.two_pow_pos n)

/-- `Idx(v, n, j)` is field `j` of the number `v`. -/
theorem toNat_idx {w : Nat} (v : BitVec w) (n j : Nat) : (idx v n j).toNat = fieldOf v.toNat n j := by
  rw [idx, BitVec.extractLsb'_toNat, Nat.shiftRight_eq_div_pow, fieldOf]

/-- A field of one bit is that bit. -/
theorem fieldOf_toNat_one {w : Nat} (v : BitVec w) (j : Nat) :
    fieldOf v.toNat 1 j = if v.getLsbD j then 1 else 0 := by
  rw [fieldOf, Nat.one_mul, Nat.pow_one, ← Nat.toNat_testBit, BitVec.testBit_toNat]
  cases v.getLsbD j <;> rfl

/-- A word of `n` bytes keeps the number that they spell (R61). -/
theorem State.toNat_alignedWord (s : State) (k n : Nat) :
    (BitVec.ofNat (8 * n) (s.alignedWord k n)).toNat = s.alignedWord k n := by
  rw [BitVec.toNat_ofNat, Nat.pow_mul]
  exact Nat.mod_eq_of_lt (s.memRead_lt .pl _ n)

theorem State.alignedWord_one (s : State) (k : Nat) : s.alignedWord k 1 = (s.alignedByte k).toNat :=
  s.memRead_one .pl _

/-! ### Operands already read -/

/-- `t` is a state inside the tile of `s`, reached by reading `A` aligned and `U` unaligned bytes of the payload. -/
structure State.Advanced (s t : State) (A U : Nat) : Prop where
  inTile : s.InTile t
  alnPtr : t.alnPtr = s.alnPtr + BitVec.ofNat 32 A
  unaPtr : t.unaPtr = s.unaPtr + BitVec.ofNat 32 U
  alnFits : s.Fits s.alnPtr A
  unaFits : s.Fits s.unaPtr U

section Advanced

variable {s t u : State} {A U A' U' : Nat}

theorem State.Advanced.trans (h : s.Advanced t A U) (g : t.Advanced u A' U') :
    s.Advanced u (A + A') (U + U') where
  inTile := h.inTile.trans g.inTile
  alnPtr := by rw [g.alnPtr, h.alnPtr, BitVec.add_assoc, ← BitVec.ofNat_add]
  unaPtr := by rw [g.unaPtr, h.unaPtr, BitVec.add_assoc, ← BitVec.ofNat_add]
  alnFits := by rw [State.fits_add h.alnFits, ← h.inTile.fits, ← h.alnPtr]; exact g.alnFits
  unaFits := by rw [State.fits_add h.unaFits, ← h.inTile.fits, ← h.unaPtr]; exact g.unaFits

theorem State.Advanced.width (h : s.Advanced t A U) : t.width = s.width := h.inTile.width

theorem State.Advanced.alignedByte (h : s.Advanced t A U) (k : Nat) : t.alignedByte k = s.alignedByte (A + k) :=
  State.alignedByte_add h.inTile h.alnPtr h.alnFits k

theorem State.Advanced.unalignedByte (h : s.Advanced t A U) (k : Nat) :
    t.unalignedByte k = s.unalignedByte (U + k) :=
  State.unalignedByte_add h.inTile h.unaPtr h.unaFits k

theorem State.Advanced.alignedWord (h : s.Advanced t A U) (k n : Nat) :
    t.alignedWord k n = s.alignedWord (A + k) n :=
  State.alignedWord_add h.inTile h.alnPtr h.alnFits k n

/-- `Draws.read` in terms of `State.Advanced`. -/
theorem Draws.afterReading {α : Type} {f : Exec α} {g : α → Exec Unit} {P : α → Prop} {px : Nat → Nat → Option Byte}
    {oob : Prop} (hf : Runs f s A U fun v t => P v ∧ t = { s with alnPtr := t.alnPtr, unaPtr := t.unaPtr })
    (hg : ∀ v t, P v → s.Advanced t A U → Draws (g v) t A' U' px oob) :
    Draws (f >>= g) s (A + A') (U + U') px oob :=
  Draws.read hf fun v t hv ht ha hu fa fu => hg v t hv ⟨ht, ha, hu, fa, fu⟩

/-- A tile drawn part by part: round `i` of the loop draws the pixels of part `i`, and every pixel lies in one part. -/
theorem draws_parts {n : Nat} {g : Nat → Exec Unit} (part : Nat → Nat → Nat) (px : Nat → Nat → Option Byte)
    (hpart : ∀ r c, r < 8 → c < 8 → part r c < n)
    (hg : ∀ i t, i < n → s.Advanced t (A * i) (U * i) →
      Draws (g i) t A U (fun r c => if part r c = i then px r c else none) False) :
    Draws (forUpTo n g) s (A * n) (U * n) px False := by
  refine (Draws.loop (n := n) (A * ·) (U * ·) (fun i r c => if part r c = i then px r c else none) (fun _ => False)
    (Nat.mul_zero A) (Nat.mul_zero U) (fun i => Nat.mul_le_mul_left A i.le_succ)
    (fun i => Nat.mul_le_mul_left U i.le_succ) fun i t hi ht ha hu fa fu => ?_).congr (fun r c hr hc => ?_) (by simp)
  · rw [Nat.mul_succ, Nat.mul_succ, Nat.add_sub_cancel_left, Nat.add_sub_cancel_left]
    exact hg i t hi ⟨ht, ha, hu, fa, fu⟩
  · cases hpx : px r c with
    | none => exact (layers_none fun i _ => by rw [hpx, ite_self]).symm
    | some v => exact (layers_last (hpart r c hr hc) (by rw [if_pos rfl, hpx]) fun j hj _ => if_neg hj.ne).symm

end Advanced

/-! ### Readers of packed words and of colours -/

/-- `f` reads the next `N` aligned bytes as one little-endian number and changes nothing but the stream pointers. -/
abbrev ReadsWord {w : Nat} (f : Exec (BitVec w)) (N : Nat) : Prop :=
  ∀ s : State, Runs f s N 0 fun v t => v.toNat = s.alignedWord 0 N
    ∧ t = { s with alnPtr := t.alnPtr, unaPtr := t.unaPtr }

theorem readsWord_a8 : ReadsWord a8 1 := fun s =>
  (reads_a8 s).weaken fun _ _ _ ⟨hv, ht⟩ => ⟨by rw [hv, s.alignedWord_one], ht⟩

theorem readsWord_a16 : ReadsWord a16 2 := fun s =>
  (reads_a16 s).weaken fun _ _ _ ⟨hv, ht⟩ => ⟨hv ▸ s.toNat_alignedWord 0 2, ht⟩

theorem readsWord_a24 : ReadsWord a24 3 := fun s =>
  (reads_a24 s).weaken fun _ _ _ ⟨hv, ht⟩ => ⟨hv ▸ s.toNat_alignedWord 0 3, ht⟩

theorem readsWord_a32 : ReadsWord a32 4 := fun s =>
  (reads_a32 s).weaken fun _ _ _ ⟨hv, ht⟩ => ⟨hv ▸ s.toNat_alignedWord 0 4, ht⟩

/-- The list `k` holds the colours `col 0`, …, `col (2^n - 1)`, which a field of `n` bits can name. -/
abbrev HoldsColours (k : List Byte) (n : Nat) (col : Nat → Byte) : Prop := ∀ i, i < 2 ^ n → colour k i = col i

/-- `f` reads the colours `col`, of `A` aligned and `U` unaligned bytes, and changes nothing but the stream pointers. -/
abbrev ReadsColours (f : Exec (List Byte)) (s : State) (A U n : Nat) (col : Nat → Byte) : Prop :=
  Runs f s A U fun k t => HoldsColours k n col ∧ t = { s with alnPtr := t.alnPtr, unaPtr := t.unaPtr }

theorem readsColours_a8 (n : Nat) (s : State) : ReadsColours (readList (2 ^ n) a8) s (2 ^ n) 0 n s.alignedByte :=
  (reads_list_a8 (2 ^ n) s).weaken fun _ _ _ ⟨⟨_, hk⟩, ht⟩ => ⟨hk, ht⟩

theorem readsColours_u8 (n : Nat) (s : State) : ReadsColours (readList (2 ^ n) u8) s 0 (2 ^ n) n s.unalignedByte :=
  (reads_list_u8 (2 ^ n) s).weaken fun _ _ _ ⟨⟨_, hk⟩, ht⟩ => ⟨hk, ht⟩

section Packed

variable {s : State} (hw : 8 ≤ s.width) {w N n : Nat} {f : Exec (BitVec w)} {k : List Byte} {col : Nat → Byte}

/-! ### One row, and a run of pixels of one quadrant -/

include hw

/-- Row `r0` takes its colours from the fields of `v`, in order. -/
theorem draws_packedRow (hk : HoldsColours k n col) (v : BitVec w) {r0 : Nat} (hr : r0 < 8) :
    Draws (packedRow k n v r0) s 0 0
      (fun r c => if r = r0 ∧ c < 8 then some (col (fieldOf v.toNat n c)) else none) False := by
  refine (Draws.loop (n := 8) (fun _ => 0) (fun _ => 0) (fun c => dot r0 c (col (fieldOf v.toNat n c))) (fun _ => False)
    rfl rfl (fun _ => Nat.le_refl 0) (fun _ => Nat.le_refl 0) fun c t hc ht _ _ _ _ => ?_).congr
    (fun r c _ _ => (layers_dots (val := fun c => col (fieldOf v.toNat n c)) r c).symm) (by simp)
  rw [toNat_idx, hk _ (fieldOf_lt ..)]
  exact draws_pix (ht.width ▸ hw) hr hc _

/-- The `count` pixels of quadrant `q` from index `d0` on take their colours from the fields of `v`, in order. -/
theorem draws_packedQuad (hk : HoldsColours k n col) (v : BitVec w) {q d0 count : Nat} (hq : q < 4)
    (hd : d0 + count ≤ 16) :
    Draws (packedQuad k n v q d0 count) s 0 0
      (fun r c => if quadrantOf r c = q ∧ d0 ≤ quadrantIndex r c ∧ quadrantIndex r c < d0 + count
        then some (col (fieldOf v.toNat n (quadrantIndex r c - d0))) else none) False := by
  have place (j r c : Nat) (hj : j < count) (hr : r < 8) (hc : c < 8) :
      (r = 4 * (q / 2) + (d0 + j) / 4 ∧ c = 4 * (q % 2) + (d0 + j) % 4) ↔
        quadrantOf r c = q ∧ quadrantIndex r c = d0 + j := by
    rw [quadrant_place hq (by omega) (by omega)]
    unfold quadrantIndex
    omega
  refine (Draws.loop (n := count) (fun _ => 0) (fun _ => 0)
    (fun j => dot (4 * (q / 2) + (d0 + j) / 4) (4 * (q % 2) + (d0 + j) % 4) (col (fieldOf v.toNat n j)))
    (fun _ => False) rfl rfl (fun _ => Nat.le_refl 0) (fun _ => Nat.le_refl 0) fun j t hj ht _ _ _ _ => ?_).congr
    (fun r c hr hc => ?_) (by simp)
  · rw [toNat_idx, hk _ (fieldOf_lt ..)]
    exact draws_qpix (ht.width ▸ hw) hq (by omega) (by omega) _
  · split
    · next h =>
      obtain ⟨hquad, hlo, hhi⟩ := h
      refine (layers_last (i := quadrantIndex r c - d0) (by omega) (if_pos ?_) fun j hj hjn => if_neg ?_).symm
      · exact (place _ r c (by omega) hr hc).2 ⟨hquad, by omega⟩
      · rw [place j r c hjn hr hc]
        omega
    · next h =>
      refine (layers_none fun j hj => if_neg ?_).symm
      rw [place j r c hj hr hc]
      omega

/-! ### The tile, row by row and quadrant by quadrant -/

/-- For each row a word of `N` bytes is read, and its fields are the colours of the row. -/
theorem draws_packedRows (hf : ReadsWord f N) (hk : HoldsColours k n col) :
    Draws (forUpTo 8 fun r => do let v ← f; packedRow k n v r) s (N * 8) 0
      (fun r c => some (col (fieldOf (s.alignedWord (N * r) N) n c))) False := by
  refine (draws_parts (U := 0) (fun r _ => r) (fun r c => some (col (fieldOf (s.alignedWord (N * r) N) n c)))
    (fun _ _ hr _ => hr) fun r0 t hr ht => ?_)
  refine Draws.afterReading (A' := 0) (U' := 0) (hf t) fun v u hv hu => ?_
  refine (draws_packedRow ((ht.trans hu).width ▸ hw) hk v hr).congr (fun r c _ hc => ?_) Iff.rfl
  rw [hv, ht.alignedWord]
  exact if_ctx_congr (by simp [hc]) (fun ⟨h, _⟩ => by rw [h, Nat.add_zero]) fun _ => rfl

/-- The colours are read before the rows. -/
theorem draws_packedTile {A U : Nat} {colours : Exec (List Byte)} (hk : ReadsColours colours s A U n col)
    (hf : ReadsWord f N) :
    Draws (do let k ← colours; forUpTo 8 fun r => do let v ← f; packedRow k n v r) s (A + N * 8) U
      (fun r c => some (col (fieldOf (s.alignedWord (A + N * r) N) n c))) False := by
  refine Draws.afterReading (U' := 0) hk fun k t hk ht => ?_
  simp only [← ht.alignedWord]
  exact draws_packedRows (ht.width ▸ hw) hf hk

/-- The same with the colours in the unaligned stream. -/
theorem draws_packedTile_unaligned (hf : ReadsWord f N) (n : Nat) :
    Draws (do let k ← readList (2 ^ n) u8; forUpTo 8 fun r => do let v ← f; packedRow k n v r) s (N * 8) (2 ^ n)
      (fun r c => some (s.unalignedByte (fieldOf (s.alignedWord (N * r) N) n c))) False := by
  simpa only [Nat.zero_add] using draws_packedTile hw (readsColours_u8 n s) hf

/-- For each quadrant a word and its colours are read from the aligned stream. -/
theorem draws_packedSplit (hf : ReadsWord f N) (n : Nat) :
    Draws (forUpTo 4 fun q => do let v ← f; let k ← readList (2 ^ n) a8; packedQuad k n v q 0 16) s
      ((N + 2 ^ n) * 4) 0
      (fun r c => some (s.alignedByte ((N + 2 ^ n) * quadrantOf r c + N +
        fieldOf (s.alignedWord ((N + 2 ^ n) * quadrantOf r c) N) n (quadrantIndex r c)))) False := by
  refine draws_parts (U := 0) quadrantOf _ (fun r c hr hc => by unfold quadrantOf; omega) fun q t hq ht => ?_
  refine Draws.afterReading (A' := 2 ^ n) (U' := 0) (hf t) fun v u hv hu => ?_
  refine Draws.afterReading (A' := 0) (U' := 0) (readsColours_a8 n u) fun k u' hk hu' => ?_
  have hsu := ht.trans hu
  refine (draws_packedQuad ((hsu.trans hu').width ▸ hw) hk v hq (by decide)).congr (fun r c _ _ => ?_) Iff.rfl
  rw [hv, ht.alignedWord, hsu.alignedByte]
  have hindex : quadrantIndex r c < 16 := by unfold quadrantIndex; omega
  exact if_ctx_congr (by simp [hindex]) (fun ⟨h, _⟩ => by rw [h]; rfl) fun _ => rfl

/-! ### What each instruction draws -/

theorem draws_oneBit : Draws baseOneBit s 8 2
    (fun r c => some (s.unalignedByte (if (s.alignedByte r).getLsbD c then 1 else 0))) False := by
  have h := draws_packedTile_unaligned hw readsWord_a8 1
  simp only [Nat.one_mul, s.alignedWord_one, fieldOf_toNat_one] at h
  exact h

theorem draws_twoBit : Draws baseTwoBit s 20 0
    (fun r c => some (s.alignedByte (fieldOf (s.alignedWord (4 + 2 * r) 2) 2 c))) False :=
  draws_packedTile hw (readsColours_a8 2 s) readsWord_a16

theorem draws_threeBit : Draws baseThreeBit s 24 8
    (fun r c => some (s.unalignedByte (fieldOf (s.alignedWord (3 * r) 3) 3 c))) False :=
  draws_packedTile_unaligned hw readsWord_a24 3

theorem draws_fourBit : Draws baseFourBit s 32 16
    (fun r c => some (s.unalignedByte (fieldOf (s.alignedWord (4 * r) 4) 4 c))) False :=
  draws_packedTile_unaligned hw readsWord_a32 4

theorem draws_oneBitSplit : Draws baseOneBitSplit s 16 0
    (fun r c => some (s.alignedByte (4 * quadrantOf r c + 2 +
      fieldOf (s.alignedWord (4 * quadrantOf r c) 2) 1 (quadrantIndex r c)))) False :=
  draws_packedSplit hw readsWord_a16 1

theorem draws_twoBitSplit : Draws baseTwoBitSplit s 32 0
    (fun r c => some (s.alignedByte (8 * quadrantOf r c + 4 +
      fieldOf (s.alignedWord (8 * quadrantOf r c) 4) 2 (quadrantIndex r c)))) False :=
  draws_packedSplit hw readsWord_a32 2

/-- Both halves of quadrant `q`, each from a word of three bytes (R207). -/
theorem draws_threeBitHalves (hk : HoldsColours k 3 col) {q : Nat} (hq : q < 4) :
    Draws (forUpTo 2 fun h => do let v ← a24; packedQuad k 3 v q (8 * h) 8) s 6 0
      (fun r c => if quadrantOf r c = q
        then some (col (fieldOf (s.alignedWord (3 * (quadrantIndex r c / 8)) 3) 3 (quadrantIndex r c % 8)))
        else none) False := by
  have hindex (r c : Nat) : quadrantIndex r c < 16 := by unfold quadrantIndex; omega
  refine draws_parts (n := 2) (A := 3) (U := 0) (fun r c => quadrantIndex r c / 8) _
    (fun r c _ _ => Nat.div_lt_of_lt_mul (hindex r c)) fun h t hh ht => ?_
  refine Draws.afterReading (A' := 0) (U' := 0) (readsWord_a24 t) fun v u hv hu => ?_
  refine (draws_packedQuad ((ht.trans hu).width ▸ hw) hk v hq (by omega)).congr (fun r c _ _ => ?_) Iff.rfl
  rw [hv, ht.alignedWord, ← ite_and]
  refine if_ctx_congr (by omega) (fun ⟨_, hlo, hhi⟩ => ?_) fun _ => rfl
  rw [show quadrantIndex r c / 8 = h by omega, show quadrantIndex r c % 8 = quadrantIndex r c - 8 * h by omega]
  rfl

theorem draws_threeBitSplit : Draws baseThreeBitSplit s 24 32
    (fun r c => some (s.unalignedByte (8 * quadrantOf r c +
      fieldOf (s.alignedWord (6 * quadrantOf r c + 3 * (quadrantIndex r c / 8)) 3) 3 (quadrantIndex r c % 8))))
    False := by
  refine draws_parts (n := 4) (A := 6) (U := 8) quadrantOf _ (fun r c hr hc => by unfold quadrantOf; omega)
    fun q t hq ht => ?_
  refine Draws.afterReading (A' := 6) (U' := 0) (readsColours_u8 3 t) fun k u hk hu => ?_
  have hsu := ht.trans hu
  refine (draws_threeBitHalves (hsu.width ▸ hw) hk hq).congr (fun r c _ _ => ?_) Iff.rfl
  rw [hsu.alignedWord, ht.unalignedByte]
  exact if_ctx_congr Iff.rfl (fun h => by rw [h]; rfl) fun _ => rfl

end Packed

/-! ### The statements -/

/-- Settles O19: the mask byte of a row is a word of one-bit fields. -/
theorem oneBitResult : Obligations.OneBitResult :=
  ⟨rfl, fun _ hw => Draws.answers (i := .oneBit) (draws_oneBit hw)⟩

/-- Settles O20: the colours stand before the rows in the aligned stream. -/
theorem twoBitResult : Obligations.TwoBitResult :=
  ⟨rfl, fun _ hw => Draws.answers (i := .twoBit) (draws_twoBit hw)⟩

/-- Settles O21: one aligned word of three bytes for each row. -/
theorem threeBitResult : Obligations.ThreeBitResult :=
  ⟨rfl, fun _ hw => Draws.answers (i := .threeBit) (draws_threeBit hw)⟩

/-- Settles O22: one aligned word of four bytes for each row. -/
theorem fourBitResult : Obligations.FourBitResult :=
  ⟨rfl, fun _ hw => Draws.answers (i := .fourBit) (draws_fourBit hw)⟩

/-- Settles O23: one mask and two colours for each quadrant. -/
theorem oneBitSplitResult : Obligations.OneBitSplitResult :=
  ⟨rfl, fun _ hw => Draws.answers (i := .oneBitSplit) (draws_oneBitSplit hw)⟩

/-- Settles O24: one packet and four colours for each quadrant. -/
theorem twoBitSplitResult : Obligations.TwoBitSplitResult :=
  ⟨rfl, fun _ hw => Draws.answers (i := .twoBitSplit) (draws_twoBitSplit hw)⟩

/-- Settles O25: one word for each half of a quadrant, and eight colours for both. -/
theorem threeBitSplitResult : Obligations.ThreeBitSplitResult :=
  ⟨rfl, fun _ hw => Draws.answers (i := .threeBitSplit) (draws_threeBitSplit hw)⟩

end Sys2Proof.Machine
end

section
/-!
PROOFS. The set bits of the eight mask bytes (R104, R108), counted bit by bit and byte by byte; and both clauses of a
statement about an instruction that leaves the primitive-local registers changed (`Runs.answers`).
-/

namespace Sys2Proof.Machine

/-! ### Set bits -/

theorem bitsBefore_succ (m : Nat → Byte) (n : Nat) :
    bitsBefore m (n + 1) = bitsBefore m n + if (m (n / 8)).getLsbD (n % 8) then 1 else 0 := by
  rw [bitsBefore, List.range_succ, List.filter_append, List.length_append, List.filter_singleton]
  cases (m (n / 8)).getLsbD (n % 8) <;> rfl

theorem bitsBefore_mono (m : Nat → Byte) : Monotone (bitsBefore m) :=
  monotone_nat_of_le_succ fun n => bitsBefore_succ m n ▸ Nat.le_add_right ..

/-- The bits of byte `i` come after those of the bytes before it. -/
theorem bitsBefore_byte (m : Nat → Byte) (i : Nat) {k : Nat} (hk : k ≤ 8) :
    bitsBefore m (8 * i + k) = bitsBefore m (8 * i) + bitsBefore (fun _ => m i) k := by
  induction k with
  | zero => rfl
  | succ k ih =>
    have hbyte : (8 * i + k) / 8 = i := by omega
    have hbit : (8 * i + k) % 8 = k % 8 := by omega
    rw [← Nat.add_assoc, bitsBefore_succ, bitsBefore_succ, ih (by omega), hbyte, hbit, Nat.add_assoc]

theorem bitsBefore_eq_popcount (b : Byte) : bitsBefore (fun _ => b) 8 = popcount b := rfl

/-- `pc` of R104 counts the bits of all eight mask bytes. -/
theorem maskOnes_eq_bitsBefore (m : Nat → Byte) : maskOnes m = bitsBefore m 64 := by
  have hsum (n : Nat) : ((List.range n).map fun i => popcount (m i)).sum = bitsBefore m (8 * n) := by
    induction n with
    | zero => rfl
    | succ n ih =>
      rw [List.range_succ, List.map_append, List.sum_append, ih, Nat.mul_succ, bitsBefore_byte m n (Nat.le_refl 8),
        bitsBefore_eq_popcount, List.map_singleton, List.sum_singleton]
  exact hsum 8

/-- The mask bytes of an instruction that begins with them. -/
theorem State.mask_eq_alignedByte (s : State) {i : Instr} (h : i.maskOffset = 0) : s.mask i = s.alignedByte := by
  funext k
  rw [State.mask, h, Nat.add_zero, State.alignedByte]

/-! ### Statements about an instruction that changes registers -/

/-- What was painted on `u` was painted on `s`, when `u` has the pixels of `s`. -/
theorem State.Painted.of_same {s u w : State} {px : Nat → Nat → Option Byte} (h : u.Painted w px) (hu : s.InTile u)
    (hsame : ∀ a, u.byteAt .cur a = s.byteAt .cur a) : s.Painted w px :=
  (((State.Painted.none s).mono hsame).trans h hu).congr fun _ _ _ _ => (Option.or_none ..).symm

/-- `Draws.answers` for an instruction that leaves its registers as `L` says. -/
theorem Runs.answers {i : Instr} {s : State} {px : Nat → Nat → Byte} {oob : Prop} {L : State → Prop}
    (h : Runs (instrBody i) s i.alignedSize (s.unalignedNeed i) fun _ t =>
      s.Painted t (fun r c => some (px r c)) ∧ L t ∧ (t.flags.refOob = true ↔ s.flags.refOob = true ∨ oob)) :
    (s.Readable i → ∃ t, exec i s = .next t ∧ s.TileDone t i.alignedSize (s.unalignedNeed i) px oob ∧ L t) ∧
      (¬ s.Readable i → ∃ t, exec i s = .next t ∧ s.Overran t i) := by
  simp only [exec_eq_runTile]
  refine ⟨fun ⟨ha, hu⟩ => ?_, fun hf => ?_⟩
  · obtain ⟨t, ht, hin, pa, pu, hp, hl, ho⟩ := Runs.completes (i := i) h ha hu
    exact ⟨t, ht, ⟨hin, pa ▸ State.toNat_advance ha, pu ▸ State.toNat_advance hu, hp, ho⟩, hl⟩
  · obtain ⟨e, t, -, ht, ho⟩ := Runs.overran h rfl rfl (narrow_instrBody i) hf
    exact ⟨_, ht, ho⟩

end Sys2Proof.Machine
end

section
/-!
PROOFS. The Cross, Prime and palette-bank tiles (R220 to R227). Each pixel is written once, with a value that its row or
its quadrant has read (`draws_rowOf`, `draws_quadrantOf`). `Prime` moves `UNA_PTR` by the set bits of its masks, so its
rows are followed with `bitsBefore`. `OneBank` reads its bank back from `BANK` for every pixel: it runs as a computation
that is handed the bank does (`baseOneBank_eq`).
-/

namespace Sys2Proof.Machine

/-! ### Values of the pixels -/

/-- Byte `q` of an aligned word (R61). -/
theorem State.fieldOf_alignedWord (s : State) (k : Nat) {q n : Nat} (hq : q < n) :
    fieldOf (s.alignedWord k n) 8 q = (s.alignedByte (k + q)).toNat := by
  obtain ⟨d, rfl⟩ := Nat.exists_eq_add_of_lt hq
  have hlow := s.memRead_lt .pl (s.alnPtr.toNat + k) q
  have hsplit := s.memRead_add .pl (s.alnPtr.toNat + k) q (d + 1)
  rw [fieldOf, Nat.pow_mul, State.alignedWord, Nat.add_assoc, hsplit, Nat.add_mul_div_left _ _ (by positivity),
    Nat.div_eq_of_lt hlow, Nat.zero_add]
  have hbyte := s.memRead_mod .pl (s.alnPtr.toNat + k + q) (m := 1) (n := d + 1) (by omega)
  rw [Nat.pow_one] at hbyte
  rw [State.alignedByte, ← Nat.add_assoc]
  exact hbyte.trans (s.memRead_one .pl _)

/-- The low nibble comes first (R105). -/
theorem lowNibble_eq (f : Nat → Byte) (k : Nat) : lowNibble (f k) = BitVec.ofNat 4 (nibbleOf f (2 * k)) := by
  apply BitVec.eq_of_toNat_eq
  rw [toNat_lowNibble, BitVec.toNat_ofNat, nibbleOf, Nat.mul_div_cancel_left k (by decide), Nat.mul_mod_right]
  omega

theorem highNibble_eq (f : Nat → Byte) (k : Nat) : highNibble (f k) = BitVec.ofNat 4 (nibbleOf f (2 * k + 1)) := by
  have hlt := (f k).isLt
  apply BitVec.eq_of_toNat_eq
  rw [toNat_highNibble, BitVec.toNat_ofNat, nibbleOf, show (2 * k + 1) / 2 = k by omega,
    show (2 * k + 1) % 2 = 1 by omega]
  omega

/-- The bank that the low nibble of the bank byte names (R107). -/
theorem bankPixel_bankBase (b : Byte) (n : BitVec 4) : bankPixel (bankBase b) n = bankEntry b n.toNat := by
  have hn := n.isLt
  apply BitVec.eq_of_toNat_eq
  rw [toNat_bankPixel_bankBase, bankEntry, BitVec.toNat_ofNat]
  omega

theorem bankPixel_bankBase_ofNat (b : Byte) (n : Nat) : bankPixel (bankBase b) (BitVec.ofNat 4 n) = bankEntry b n := by
  rw [bankPixel_bankBase, BitVec.toNat_ofNat, bankEntry, bankEntry, Nat.mod_mod]

theorem bankBase_eq (b : Byte) : bankBase b = bankEntry b 0 := by
  apply BitVec.eq_of_toNat_eq
  rw [bankBase, bankEntry, BitVec.toNat_shiftLeft, BitVec.toNat_ofNat, Nat.shiftLeft_eq]
  omega

/-- The bank that the high nibble of the bank byte names (R227). -/
theorem toNat_bankPixel_high (b : Byte) (n : BitVec 4) :
    (bankPixel (b &&& 0xF0#8) n).toNat = 16 * (b.toNat / 16) + n.toNat := by
  have hn := n.isLt
  have hb := b.isLt
  have hmask : (b &&& 0xF0#8).toNat = 16 * (b.toNat / 16) := by
    have hclear : b &&& 0xF0#8 = b >>> 4 <<< 4 := by
      ext i hi
      interval_cases i <;> simp
    rw [hclear, BitVec.toNat_shiftLeft, BitVec.toNat_ushiftRight, Nat.shiftLeft_eq, Nat.shiftRight_eq_div_pow]
    omega
  rw [bankPixel, BitVec.toNat_add, hmask, BitVec.toNat_setWidth]
  omega

/-- Bit 4 of the field selects the bank (R227). -/
theorem twoBanksPixel_eq (b : Byte) (f : BitVec 5) :
    twoBanksPixel b f = if f.toNat < 16 then bankEntry b f.toNat
      else BitVec.ofNat 8 (16 * (b.toNat / 16) + f.toNat % 16) := by
  have hlow : (f.extractLsb' 0 4).toNat = f.toNat % 16 := by simp [BitVec.extractLsb'_toNat]
  have hsel : f.getLsbD 4 = decide (16 ≤ f.toNat) := BitVec.getLsbD_last f
  rw [twoBanksPixel, hsel]
  by_cases h : f.toNat < 16
  · rw [if_pos h, if_neg (by simpa using h), bankPixel_bankBase, hlow, Nat.mod_eq_of_lt h]
  · rw [if_neg h, if_pos (by simpa using h)]
    apply BitVec.eq_of_toNat_eq
    rw [toNat_bankPixel_high, hlow, BitVec.toNat_ofNat]
    have hb := b.isLt
    omega

section Bodies

variable {s : State} (hw : 8 ≤ s.width)

include hw

/-! ### One row, and one quadrant -/

/-- Row `r0`, each pixel with its own value. -/
theorem draws_rowOf {r0 : Nat} (hr : r0 < 8) (val : Nat → Byte) :
    Draws (forUpTo 8 fun c => pix r0 c (val c)) s 0 0
      (fun r c => if r = r0 then some (val c) else none) False := by
  refine (Draws.loop (n := 8) (fun _ => 0) (fun _ => 0) (fun c => dot r0 c (val c)) (fun _ => False) rfl rfl
    (fun _ => Nat.le_refl 0) (fun _ => Nat.le_refl 0) fun c t hc ht _ _ _ _ =>
      draws_pix (ht.width ▸ hw) hr hc _).congr (fun r c _ hc => ?_) (by simp)
  rw [layers_dots]
  simp only [hc, and_true]

/-- Quadrant `q`, each pixel with the value of its linear index (R73). -/
theorem draws_quadrantOf {q : Nat} (hq : q < 4) (val : Nat → Byte) :
    Draws (forUpTo 16 fun d => qpix q (d / 4) (d % 4) (val d)) s 0 0
      (fun r c => if quadrantOf r c = q then some (val (quadrantIndex r c)) else none) False := by
  have place (d r c : Nat) (hd : d < 16) (hr : r < 8) (hc : c < 8) :
      (r = 4 * (q / 2) + d / 4 ∧ c = 4 * (q % 2) + d % 4) ↔ quadrantOf r c = q ∧ quadrantIndex r c = d := by
    rw [quadrant_place hq (by omega) (by omega)]
    unfold quadrantIndex
    omega
  refine (Draws.loop (n := 16) (fun _ => 0) (fun _ => 0)
    (fun d => dot (4 * (q / 2) + d / 4) (4 * (q % 2) + d % 4) (val d)) (fun _ => False) rfl rfl
    (fun _ => Nat.le_refl 0) (fun _ => Nat.le_refl 0) fun d t hd ht _ _ _ _ =>
      draws_qpix (ht.width ▸ hw) hq (by omega) (by omega) _).congr (fun r c hr hc => ?_) (by simp)
  have hindex : quadrantIndex r c < 16 := by unfold quadrantIndex; omega
  split
  · next h =>
    refine (layers_last hindex (if_pos ((place _ r c hindex hr hc).2 ⟨h, rfl⟩)) fun d hd hlt => if_neg ?_).symm
    rw [place d r c hlt hr hc]
    omega
  · next h =>
    refine (layers_none fun d hlt => if_neg ?_).symm
    rw [place d r c hlt hr hc]
    exact fun hin => h hin.1

/-! ### Cross and TwoBanks -/

/-- `Cross`, for whatever its pattern is (R221). -/
theorem draws_crossWith (sel : Fin 16 → Byte → Fin 4) :
    Draws (crossWith sel) s 20 0 (fun r c => some (s.alignedByte (4 * quadrantOf r c +
      (sel (Fin.ofNat 16 (quadrantIndex r c)) (s.alignedByte (16 + quadrantOf r c))).val))) False := by
  refine Draws.afterReading (A' := 4) (U' := 0) (readsColours_a8 4 s) fun k t hk ht => ?_
  refine Draws.afterReading (A' := 0) (U' := 0) (readsWord_a32 t) fun v u hv hu => ?_
  have hsu := ht.trans hu
  have hquadrant (q : Nat) (hq : q < 4) : v.extractLsb' (8 * q) 8 = s.alignedByte (16 + q) := by
    apply BitVec.eq_of_toNat_eq
    rw [← s.fieldOf_alignedWord 16 hq, ← ht.alignedWord 0 4, ← hv]
    exact toNat_idx v 8 q
  refine draws_parts (A := 0) (U := 0) quadrantOf _ (fun r c hr hc => by unfold quadrantOf; omega) fun q w hq hw' => ?_
  refine (draws_quadrantOf ((hsu.trans hw').width ▸ hw) hq _).congr (fun r c _ _ => ?_) Iff.rfl
  refine if_ctx_congr Iff.rfl (fun h => ?_) fun _ => rfl
  rw [h, hquadrant q hq, hk _ (by omega)]

/-- `TwoBanks`: the fields of a row's word select a bank and a colour in it (R227). -/
theorem draws_twoBanks : Draws baseTwoBanks s 40 1 (fun r c =>
    let f := fieldOf (s.alignedWord (5 * r) 5) 5 c
    let b := s.unalignedByte 0
    some (if f < 16 then bankEntry b f else BitVec.ofNat 8 (16 * (b.toNat / 16) + f % 16))) False := by
  refine Draws.afterReading (A := 0) (A' := 40) (U' := 0) (reads_u8 s) fun b t hb ht => ?_
  refine draws_parts (n := 8) (A := 5) (U := 0) (fun r _ => r) _ (fun _ _ hr _ => hr) fun r0 u hr hu => ?_
  refine Draws.afterReading (A' := 0) (U' := 0) (reads_a40 u) fun v w hv hw' => ?_
  have hsu := ht.trans hu
  refine (draws_rowOf ((hsu.trans hw').width ▸ hw) hr _).congr (fun r c _ _ => ?_) Iff.rfl
  refine if_ctx_congr Iff.rfl (fun h => ?_) fun _ => rfl
  rw [twoBanksPixel_eq, toNat_idx, hv, u.toNat_alignedWord 0 5, hsu.alignedWord, hb, h, Nat.zero_add, Nat.add_zero]

/-! ### Prime -/

/-- One row of `Prime`: a colour is read for each set bit of the row's mask byte. -/
theorem draws_primeRow (bg m : Byte) {r0 : Nat} (hr : r0 < 8) :
    Draws (forUpTo 8 fun c => do if m.getLsbD c then pix r0 c (← u8) else pix r0 c bg) s 0 (bitsBefore (fun _ => m) 8)
      (fun r c => if r = r0
        then some (if m.getLsbD c then s.unalignedByte (bitsBefore (fun _ => m) c) else bg) else none) False := by
  refine (Draws.loop (n := 8) (fun _ => 0) (bitsBefore fun _ => m)
    (fun c => dot r0 c (if m.getLsbD c then s.unalignedByte (bitsBefore (fun _ => m) c) else bg)) (fun _ => False) rfl
    rfl (fun _ => Nat.le_refl 0) (fun c => bitsBefore_mono _ c.le_succ) fun c t hc ht ha hu fa fu => ?_).congr
    (fun r c _ hc => ?_) (by simp)
  · rw [bitsBefore_succ, Nat.mod_eq_of_lt hc, Nat.add_sub_cancel_left]
    split
    · refine Draws.read (A' := 0) (U' := 0) (reads_u8 t) fun v u hv hu' _ _ _ _ => ?_
      rw [hv, State.unalignedByte_add ht hu fu]
      exact draws_pix ((ht.trans hu').width ▸ hw) hr hc _
    · exact draws_pix (ht.width ▸ hw) hr hc _
  · rw [layers_dots (val := fun c => if m.getLsbD c then s.unalignedByte (bitsBefore (fun _ => m) c) else bg)]
    simp only [hc, and_true]

/-- The rows of `Prime`: row `r` finds its colours after those of the rows before it. -/
theorem draws_primeRows (bg : Byte) :
    Draws (forUpTo 8 fun r => do
        let m ← a8
        forUpTo 8 fun c => do if m.getLsbD c then pix r c (← u8) else pix r c bg) s 8 (bitsBefore s.alignedByte 64)
      (fun r c => some (if (s.alignedByte r).getLsbD c
        then s.unalignedByte (bitsBefore s.alignedByte (8 * r + c)) else bg)) False := by
  refine (Draws.loop (n := 8) (fun r => r) (fun r => bitsBefore s.alignedByte (8 * r))
    (fun r0 r c => if r = r0 then some (if (s.alignedByte r0).getLsbD c
      then s.unalignedByte (bitsBefore s.alignedByte (8 * r0 + c)) else bg) else none) (fun _ => False) rfl rfl
    Nat.le_succ (fun r => bitsBefore_mono _ (by omega)) fun r0 t hr ht ha hu fa fu => ?_).congr
    (fun r c hr _ => (layers_last hr (if_pos rfl) fun j hj _ => if_neg hj.ne).symm) (by simp)
  have hst : s.Advanced t r0 (bitsBefore s.alignedByte (8 * r0)) := ⟨ht, ha, hu, fa, fu⟩
  rw [Nat.mul_succ, bitsBefore_byte _ r0 (Nat.le_refl 8), Nat.add_sub_cancel_left, Nat.add_sub_cancel_left,
    ← Nat.zero_add (bitsBefore _ 8)]
  refine Draws.afterReading (A' := 0) (reads_a8 t) fun m u hm hu' => ?_
  have hsu := hst.trans hu'
  rw [hst.alignedByte, Nat.add_zero] at hm
  subst hm
  refine (draws_primeRow (hsu.width ▸ hw) bg _ hr).congr (fun r c _ hc => ?_) Iff.rfl
  rw [hsu.unalignedByte, Nat.add_zero, bitsBefore_byte _ r0 hc.le]

theorem draws_prime : Draws basePrime s 8 (1 + bitsBefore s.alignedByte 64) (fun r c =>
    some (if (s.alignedByte r).getLsbD c then s.unalignedByte (1 + bitsBefore s.alignedByte (8 * r + c))
      else s.unalignedByte 0)) False := by
  refine Draws.afterReading (A := 0) (A' := 8) (reads_u8 s) fun bg t hbg ht => ?_
  have hmask : t.alignedByte = s.alignedByte := funext fun k => by rw [ht.alignedByte, Nat.zero_add]
  simp only [← hmask, ← hbg, ← ht.unalignedByte]
  exact draws_primeRows (ht.width ▸ hw) bg

end Bodies

/-! ### OneBank -/

/-- The rows of `OneBank`, handed the colour of each nibble. -/
def nibbleRows (col : BitVec 4 → Byte) : Exec Unit :=
  forUpTo 8 fun r => forUpTo 4 fun j => do
    let p ← a8
    pix r (2 * j) (col (lowNibble p))
    pix r (2 * j + 1) (col (highNibble p))

/-- `BANK` holds `k` in the first of two runs. -/
def Locals.BankIs (k : Byte) (l _ : Locals) : Prop := l.bank = k

/-- Two computations that run alike from every state are one. -/
theorem Alike.eq {α : Type} {Q : Locals → Locals → Prop} {f f' : Exec α}
    (h : ∀ s : State, Alike s.Reached Locals.Any Q f f') : f = f' := by
  funext s
  have hc := (h s).came s s ⟨rfl, .refl s, id⟩ trivial
  generalize f s = x, f' s = x' at hc
  cases hc with
  | ok v hR _ => rw [hR.same]
  | error e hR => rw [hR.same]

/-- No round of `OneBank` changes `BANK`, so each reads back what was written to it. -/
theorem baseOneBank_eq : baseOneBank = (do
    let b ← u8
    modify fun s => { s with bank := bankBase b }
    nibbleRows (bankPixel (bankBase b))) := by
  refine Alike.eq (Q := Locals.Any) fun s => ?_
  have hk := s.reached_keptByCopies.toKept
  refine hk.u8.bind fun b => Alike.bind (P' := Locals.BankIs (bankBase b))
    (hk.modifyLocals (fun l => { l with bank := bankBase b }) fun _ _ _ => rfl) fun _ => ?_
  refine Alike.mono (.loop fun r hr => .loop fun j hj => hk.a8.bind fun p => ?_) (fun _ _ h => h) fun _ _ _ => trivial
  have hpix (c : Nat) (hc : c < 8) (n : BitVec 4) : Alike s.Reached (Locals.BankIs (bankBase b))
      (Locals.BankIs (bankBase b)) (do pix r c (bankPixel (← get).bank n)) (pix r c (bankPixel (bankBase b) n)) :=
    Alike.get (g' := fun _ => pix r c (bankPixel (bankBase b) n)) fun t _ _ (ht : t.bank = bankBase b) =>
      ht ▸ hk.pix hr hc _
  have h := (hpix (2 * j) (by omega) (lowNibble p)).bind fun _ => hpix (2 * j + 1) (by omega) (highNibble p)
  simpa only [bind_assoc] using h

section OneBank

variable {s : State} (hw : 8 ≤ s.width)
include hw

/-- The two pixels of byte `j` of a row. -/
theorem draws_nibblePair (col : BitVec 4 → Byte) {r0 j : Nat} (hr : r0 < 8) (hj : j < 4) :
    Draws (do let p ← a8; pix r0 (2 * j) (col (lowNibble p)); pix r0 (2 * j + 1) (col (highNibble p))) s 1 0
      (fun r c => if c / 2 = j then if r = r0 then some (col (BitVec.ofNat 4 (nibbleOf s.alignedByte (c % 2))))
        else none else none) False := by
  refine Draws.afterReading (A' := 0) (U' := 0) (reads_a8 s) fun p t hp ht => ?_
  refine (Draws.seq (A' := 0) (U' := 0) (draws_pix (ht.width ▸ hw) hr (by omega) _) fun u hu _ _ _ _ =>
    draws_pix ((ht.inTile.trans hu).width ▸ hw) hr (by omega) _).congr (fun r c _ _ => ?_) (by simp)
  rw [hp, lowNibble_eq s.alignedByte 0, highNibble_eq s.alignedByte 0, ← ite_and]
  unfold paintOver dot
  rcases Nat.mod_two_eq_zero_or_one c with h | h
  · rw [h, if_neg (show ¬ (r = r0 ∧ c = 2 * j + 1) by omega), Option.none_or]
    exact if_congr (by omega) rfl rfl
  · rw [h, if_neg (show ¬ (r = r0 ∧ c = 2 * j) by omega), Option.or_none]
    exact if_congr (by omega) rfl rfl

theorem draws_nibbleRows (col : BitVec 4 → Byte) : Draws (nibbleRows col) s 32 0
    (fun r c => some (col (BitVec.ofNat 4 (nibbleOf s.alignedByte (8 * r + c))))) False := by
  refine draws_parts (n := 8) (A := 4) (U := 0) (fun r _ => r) _ (fun _ _ hr _ => hr) fun r0 t hr ht => ?_
  refine draws_parts (n := 4) (A := 1) (U := 0) (fun _ c => c / 2) _ (fun r c _ hc => by omega) fun j u hj hu => ?_
  have hsu := ht.trans hu
  refine (draws_nibblePair (hsu.width ▸ hw) col hr hj).congr (fun r c _ hc => ?_) Iff.rfl
  refine if_ctx_congr Iff.rfl (fun hcol => if_ctx_congr Iff.rfl (fun hrow => ?_) fun _ => rfl) fun _ => rfl
  rw [nibbleOf, nibbleOf, hsu.alignedByte, show (8 * r + c) / 2 = 4 * r0 + 1 * j + c % 2 / 2 by omega,
    show (8 * r + c) % 2 = c % 2 % 2 by omega]

/-- `OneBank` leaves the bank base in `BANK` (R226). -/
theorem runs_oneBank : Runs baseOneBank s 32 1 fun _ t =>
    s.Painted t (fun r c => some (bankEntry (s.unalignedByte 0) (nibbleOf s.alignedByte (8 * r + c)))) ∧
      (t.bank = bankEntry (s.unalignedByte 0) 0 ∧ t.lastColor = s.lastColor ∧ t.nibFlag = s.nibFlag ∧
        t.nibByte = s.nibByte) ∧
      (t.flags.refOob = true ↔ s.flags.refOob = true ∨ False) := by
  rw [baseOneBank_eq]
  refine Runs.bind (A' := 32) (U' := 0) (reads_u8 s) fun b t ht ha hu fa fu ⟨hb, et⟩ => ?_
  refine Runs.bind (A' := 32) (U' := 0) (runs_modify t _ (.setLocals t _ _ (bankBase b) _) id rfl rfl)
    fun _ u htu hau huu fau fuu eu => ?_
  have hsu : s.Advanced u 0 1 := State.Advanced.trans ⟨ht, ha, hu, fa, fu⟩ ⟨htu, hau, huu, fau, fuu⟩
  refine Runs.weaken (draws_nibbleRows (hsu.width ▸ hw) _) fun _ w _ ⟨hp, hl, ho⟩ => ⟨?_, ?_, ?_⟩
  · refine (hp.of_same hsu.inTile fun a => by rw [eu, et]; rfl).congr fun r c _ _ => ?_
    have hal : u.alignedByte = s.alignedByte := funext fun k => by rw [hsu.alignedByte, Nat.zero_add]
    rw [bankPixel_bankBase_ofNat, hb, hal]
  · obtain ⟨hlast, hflag, hbyte, hbank⟩ := hl
    rw [hlast, hflag, hbyte, hbank, eu, et, ← bankBase_eq, hb]
    exact ⟨rfl, rfl, rfl, rfl⟩
  · rw [ho, eu, et]

end OneBank

/-! ### The statements -/

/-- Settles O26: sixteen colours, then one word of four bytes, a byte of it for each quadrant. -/
theorem crossResult : Obligations.CrossResult :=
  ⟨rfl, fun _ hw => Draws.answers (i := .cross) (draws_crossWith hw Config.crossSel)⟩

/-- Settles O27: the colours are counted by the set mask bits. -/
theorem primeResult : Obligations.PrimeResult := by
  refine ⟨rfl, fun s hw => ?_⟩
  have hneed : s.unalignedNeed .prime = 1 + bitsBefore s.alignedByte 64 := by
    rw [← maskOnes_eq_bitsBefore, ← s.mask_eq_alignedByte (i := .prime) rfl]
    rfl
  rw [← hneed]
  exact Draws.answers (i := .prime) (hneed ▸ draws_prime hw)

/-- Settles O28: the bank is read first, then a byte for each two pixels. -/
theorem oneBankResult : Obligations.OneBankResult :=
  ⟨rfl, fun _ hw => Runs.answers (i := .oneBank) (runs_oneBank hw)⟩

/-- Settles O29: one aligned word of five bytes for each row. -/
theorem twoBanksResult : Obligations.TwoBanksResult :=
  ⟨rfl, fun _ hw => Draws.answers (i := .twoBanks) (draws_twoBanks hw)⟩

end Sys2Proof.Machine
end

section
/-!
PROOFS. The mask loop of the block decodes (R240, R241, R247). A computation that hands out colours is described by the
registers that it leaves after `n` of them (`Supplies`), a traversal by the tile offsets that it visits
(`Traversal.Visits`). The loop then leaves the registers of as many colours as there are set mask bits, and the paint of
the visits one over the other (`runs_maskLoop`); of that paint the last visit of a pixel counts (`visits_lastWrite`).
-/

namespace Sys2Proof.Machine

/-- `Runs.bind` in terms of `State.Advanced`. -/
theorem Runs.andThen {α β : Type} {f : Exec α} {g : α → Exec β} {s : State} {A U A' U' : Nat} {Q : α → State → Prop}
    {R : β → State → Prop} (hf : Runs f s A U Q)
    (hg : ∀ v t, s.Advanced t A U → Q v t → Runs (g v) t A' U' R) : Runs (f >>= g) s (A + A') (U + U') R :=
  Runs.bind hf fun v t ht ha hu fa fu hq => hg v t ⟨ht, ha, hu, fa, fu⟩ hq

/-! ### Pixels and registers together -/

/-- `u` is `t` with other stream pointers and the primitive-local registers `l`. -/
def State.Sets (t u : State) (l : Locals) : Prop :=
  u = ({ t with alnPtr := u.alnPtr, unaPtr := u.unaPtr } : State).mapLocals fun _ => l

theorem State.Sets.of_read {t u : State} (h : u = { t with alnPtr := u.alnPtr, unaPtr := u.unaPtr }) :
    t.Sets u t.locals := h

theorem State.Sets.locals {t u : State} {l : Locals} (h : t.Sets u l) : u.locals = l := by
  rw [h, State.locals_mapLocals]

theorem State.Sets.trans {t u w : State} {l l' : Locals} (h : t.Sets u l) (g : u.Sets w l') : t.Sets w l' := by
  rw [State.Sets, g, h]; rfl

/-- The tile of `t` is that of `s` painted with `px`, the primitive-local registers of `t` are `l`, and `REF_OOB` is as
it was. -/
structure State.Filled (s t : State) (px : Nat → Nat → Option Byte) (l : Locals) : Prop where
  painted : s.Painted t px
  locals : t.locals = l
  refOob : t.flags.refOob = s.flags.refOob

theorem State.Filled.nothing (s : State) : s.Filled s (fun _ _ => none) s.locals := ⟨.none s, rfl, rfl⟩

theorem State.Filled.sets {s t u : State} {px : Nat → Nat → Option Byte} {l l' : Locals} (h : s.Filled t px l)
    (hu : t.Sets u l') : s.Filled u px l' where
  painted := h.painted.mono fun a => by rw [hu]; rfl
  locals := hu.locals
  refOob := by rw [hu]; exact h.refOob

/-- An update of the primitive-local registers. -/
theorem runs_mapLocals (t : State) (g : Locals → Locals) :
    Runs (modify fun s => s.mapLocals g) t 0 0 fun _ u => t.Sets u (g t.locals) :=
  (runs_modify t _ (.mapLocals t g) id rfl rfl).weaken fun _ _ _ e => by rw [e]; rfl

/-- `LAST_COLOR <- v`. -/
theorem runs_setLastColor (t : State) (v : Byte) :
    Runs (setLastColor v) t 0 0 fun _ u => t.Sets u { t.locals with lastColor := v } :=
  runs_mapLocals t fun l => { l with lastColor := v }

/-- One pixel in `LAST_COLOR`. -/
theorem runs_pixLastColor {s t : State} {px : Nat → Nat → Option Byte} {l : Locals} (h : s.Filled t px l)
    (hw : 8 ≤ s.width) (ht : s.InTile t) {r c : Nat} (hr : r < 8) (hc : c < 8) :
    Runs (do pix r c (← get).lastColor) t 0 0 fun _ u => s.Filled u (paintOver (dot r c l.lastColor) px) l := by
  refine Runs.andThen (A' := 0) (U' := 0) (runs_get t) fun v u _ ⟨hv, hu⟩ => ?_
  subst u v
  rw [show t.lastColor = l.lastColor from congrArg Locals.lastColor h.locals]
  refine (draws_pix (ht.width ▸ hw) hr hc l.lastColor).weaken fun _ w _ ⟨hp, ⟨hlast, hflag, hbyte, hbank⟩, ho⟩ => ?_
  refine ⟨h.painted.trans hp ht, ?_, ?_⟩
  · rw [← h.locals, State.locals, State.locals, hlast, hflag, hbyte, hbank]
  · rw [← h.refOob, Bool.eq_iff_iff, ho, or_false]

/-! ### Traversals (R241) -/

/-- Mask bit number `8*i + j` is bit `j` of byte `i` (R241). -/
theorem byte_bit_of_index (i : Nat) {j : Nat} (hj : j < 8) : (8 * i + j) / 8 = i ∧ (8 * i + j) % 8 = j := by omega

/-- `pos` visits the pixels at the tile offsets `place 0`, …, `place 63`. -/
def Traversal.Visits (pos : Traversal) (place : Nat → Nat) : Prop :=
  ∀ i j, i < 8 → j < 8 → place (8 * i + j) < 64 ∧ pos i j = (place (8 * i + j) / 8, place (8 * i + j) % 8)

theorem posH_visits : Traversal.Visits posH fun k => k := fun i j hi hj => by
  obtain ⟨hbyte, hbit⟩ := byte_bit_of_index i hj
  exact ⟨by dsimp only; omega, by rw [hbyte, hbit, posH]⟩

theorem posV_visits : Traversal.Visits posV fun k => 8 * (k % 8) + k / 8 := fun i j hi hj => by
  obtain ⟨hbyte, hbit⟩ := byte_bit_of_index i hj
  obtain ⟨hrow, hcol⟩ := byte_bit_of_index j hi
  dsimp only
  rw [hbyte, hbit, hrow, hcol, posV]
  exact ⟨by omega, rfl⟩

theorem posTable_visits (table : Fin 64 → Fin 64) :
    Traversal.Visits (posTable table) fun k => (table (Fin.ofNat 64 k)).val := fun i j _ _ =>
  ⟨(table (Fin.ofNat 64 (8 * i + j))).isLt, rfl⟩

/-- The paint of the first `n` visits, visit `k` in colour `col k`. -/
def visits (place : Nat → Nat) (col : Nat → Byte) : Nat → Nat → Nat → Option Byte :=
  layers fun k => dot (place k / 8) (place k % 8) (col k)

/-- The last visit of a pixel counts, and a pixel that is not visited is as it was (R79). -/
theorem visits_lastWrite (n : Nat) (place : Nat → Nat) (col : Nat → Byte) (old : Byte) {r c : Nat} (hc : c < 8) :
    LastWrite n place col old r c ((visits place col n r c).getD old) := by
  have hdot (k : Nat) : (r = place k / 8 ∧ c = place k % 8) ↔ place k = 8 * r + c := by omega
  refine ⟨fun k hk hplace hlast => ?_, fun hnone => ?_⟩
  · rw [visits, layers_last hk (if_pos ((hdot k).2 hplace)) fun j hj hn => if_neg fun h =>
      hlast j hj hn ((hdot j).1 h), Option.getD_some]
  · rw [visits, layers_none fun k hk => if_neg fun h => hnone k hk ((hdot k).1 h), Option.getD_none]

/-- The last visit of the pixel at row `r`, column `c` is number `index r c`. -/
def LastVisit (place : Nat → Nat) (index : Nat → Nat → Nat) : Prop :=
  ∀ r c, r < 8 → c < 8 → index r c < 64 ∧ place (index r c) = 8 * r + c
    ∧ ∀ k, index r c < k → k < 64 → place k ≠ 8 * r + c

/-- Along rows each pixel is visited once. -/
theorem posH_lastVisit : LastVisit (fun k => k) fun r c => 8 * r + c := fun _ _ _ _ =>
  ⟨by dsimp only; omega, rfl, fun _ hk _ => hk.ne'⟩

/-- Along columns each pixel is visited once. -/
theorem posV_lastVisit : LastVisit (fun k => 8 * (k % 8) + k / 8) fun r c => 8 * c + r := fun r c hr hc => by
  obtain ⟨hbyte, hbit⟩ := byte_bit_of_index c hr
  dsimp only
  exact ⟨by omega, by rw [hbyte, hbit], fun k _ _ => by omega⟩

/-! ### The loop -/

/-- `next` hands out colours in the run of an instruction from `s`: when `n` of them have been stored in `LAST_COLOR`,
the primitive-local registers are `regs n` and `U n` unaligned bytes have been read. -/
structure Supplies (next : Exec Byte) (s : State) (U : Nat → Nat) (regs : Nat → Locals) : Prop where
  mono : Monotone U
  take : ∀ n A t, s.Advanced t A (U n) → t.locals = regs n →
    Runs (next >>= setLastColor) t 0 (U (n + 1) - U n) fun _ u => t.Sets u (regs (n + 1))

/-- `t` is reached from `s` by the first `k` visits: the registers are those of as many colours as there are set bits
among the first `k` mask bits, and each visit has painted the colour that `LAST_COLOR` held. -/
abbrev State.Visited (s t : State) (place : Nat → Nat) (regs : Nat → Locals) (k : Nat) : Prop :=
  s.Filled t (visits place (fun j => (regs (bitsBefore s.alignedByte (j + 1))).lastColor) k)
    (regs (bitsBefore s.alignedByte k))

/-- `State.Advanced.trans` when the unaligned bytes are counted from the start. -/
theorem State.Advanced.trans_sub {s t u : State} {A A' U U' : Nat} (h : s.Advanced t A U)
    (g : t.Advanced u A' (U' - U)) (hle : U ≤ U') : s.Advanced u (A + A') U' := by
  have htrans := h.trans g
  rwa [Nat.add_sub_cancel' hle] at htrans

section MaskLoop

variable {s : State} {pos : Traversal} {place : Nat → Nat} {next : Exec Byte} {U : Nat → Nat} {regs : Nat → Locals}
  (hw : 8 ≤ s.width) (hpos : pos.Visits place) (hnext : Supplies next s U regs)

include hw hpos hnext

/-- The visit of bit `j` of mask byte `i`. -/
theorem runs_visit {t : State} {A i j : Nat} (hi : i < 8) (hj : j < 8)
    (ht : s.Advanced t A (U (bitsBefore s.alignedByte (8 * i + j)))) (h : s.Visited t place regs (8 * i + j)) :
    Runs (do
        if (s.alignedByte i).getLsbD j then setLastColor (← next)
        pix (pos i j).1 (pos i j).2 (← get).lastColor) t 0
      (U (bitsBefore s.alignedByte (8 * i + j + 1)) - U (bitsBefore s.alignedByte (8 * i + j)))
      fun _ u => s.Visited u place regs (8 * i + j + 1) := by
  obtain ⟨hplace, hij⟩ := hpos i j hi hj
  have hcount : bitsBefore s.alignedByte (8 * i + j + 1)
      = bitsBefore s.alignedByte (8 * i + j) + if (s.alignedByte i).getLsbD j then 1 else 0 := by
    rw [bitsBefore_succ, (byte_bit_of_index i hj).1, (byte_bit_of_index i hj).2]
  have hpix {u : State} (hu : s.InTile u)
      (hfill : s.Filled u (visits place (fun j => (regs (bitsBefore s.alignedByte (j + 1))).lastColor) (8 * i + j))
        (regs (bitsBefore s.alignedByte (8 * i + j + 1)))) :
      Runs (do pix (pos i j).1 (pos i j).2 (← get).lastColor) u 0 0
        fun _ w => s.Visited w place regs (8 * i + j + 1) := by
    rw [hij]
    exact runs_pixLastColor hfill hw hu (by omega) (by omega)
  dsimp only
  split
  · next hbit =>
    rw [if_pos hbit] at hcount
    have htake := Runs.andThen (A' := 0) (U' := 0) (hnext.take _ _ t ht h.locals) fun _ u hu hset =>
      hpix (ht.inTile.trans hu.inTile) (hcount ▸ h.sets hset)
    rw [hcount]
    rwa [bind_assoc] at htake
  · next hbit =>
    simp only [if_neg hbit, Nat.add_zero] at hcount
    rw [hcount, Nat.sub_self]
    rw [hcount] at hpix
    exact hpix ht.inTile h

/-- The eight visits of mask byte `i`. -/
theorem runs_maskByte {t : State} {A i : Nat} (hi : i < 8)
    (ht : s.Advanced t A (U (bitsBefore s.alignedByte (8 * i)))) (h : s.Visited t place regs (8 * i)) :
    Runs (forUpTo 8 fun j => do
        if (s.alignedByte i).getLsbD j then setLastColor (← next)
        pix (pos i j).1 (pos i j).2 (← get).lastColor) t 0
      (U (bitsBefore s.alignedByte (8 * i + 8)) - U (bitsBefore s.alignedByte (8 * i)))
      fun _ u => s.Visited u place regs (8 * i + 8) := by
  have hmono : Monotone fun k => U (bitsBefore s.alignedByte k) := hnext.mono.comp (bitsBefore_mono _)
  refine Runs.loop (n := 8) (fun _ => 0)
    (fun j => U (bitsBefore s.alignedByte (8 * i + j)) - U (bitsBefore s.alignedByte (8 * i)))
    (fun j u => s.Visited u place regs (8 * i + j)) rfl (Nat.sub_self _) (fun _ => Nat.le_refl 0)
    (fun j => Nat.sub_le_sub_right (hmono (Nat.le_succ (8 * i + j))) _) h fun j u hj hu ha hu' fa fu hvis => ?_
  have hstart := hmono (Nat.le_add_right (8 * i) j)
  rw [Nat.sub_sub_sub_cancel_right hstart]
  exact runs_visit hw hpos hnext hi hj (ht.trans_sub ⟨hu, ha, hu', fa, fu⟩ hstart) hvis

/-- The whole loop: 64 visits. -/
theorem runs_maskLoop {t : State} {N : Nat} (hN : U 0 + N = U (bitsBefore s.alignedByte 64)) (ht : s.Advanced t 0 (U 0))
    (h : s.Filled t (fun _ _ => none) (regs 0)) :
    Runs (maskLoop pos next) t 8 N fun _ u => s.Visited u place regs 64 := by
  have hmono : Monotone fun k => U (bitsBefore s.alignedByte k) := hnext.mono.comp (bitsBefore_mono _)
  obtain rfl : N = U (bitsBefore s.alignedByte (8 * 8)) - U 0 := by rw [← hN, Nat.add_sub_cancel_left]
  refine Runs.loop (n := 8) (fun i => i) (fun i => U (bitsBefore s.alignedByte (8 * i)) - U 0)
    (fun i u => s.Visited u place regs (8 * i)) rfl (Nat.sub_self _) Nat.le_succ
    (fun i => Nat.sub_le_sub_right (hmono (by omega)) _) h fun i u hi hu ha hu' fa fu hvis => ?_
  have hstart : U 0 ≤ U (bitsBefore s.alignedByte (8 * i)) := hnext.mono (Nat.zero_le _)
  have hsu := ht.trans_sub ⟨hu, ha, hu', fa, fu⟩ hstart
  rw [Nat.add_sub_cancel_left, Nat.sub_sub_sub_cancel_right hstart, ← Nat.zero_add (_ - _)]
  refine Runs.andThen (A' := 0) (reads_a8 u) fun m w hw' ⟨hm, hset⟩ => ?_
  rw [hsu.alignedByte, Nat.zero_add, Nat.add_zero] at hm
  subst hm
  exact runs_maskByte hw hpos hnext hi (hsu.trans hw') (hvis.sets (hvis.locals ▸ State.Sets.of_read hset))

end MaskLoop

/-! ### From the loop to the statements about `exec` -/

/-- `t` is what completing a fill along the tile offsets `place` leaves, the visits in the colours `col 0`, …, `col 63`,
with `A` and `U` bytes read and the primitive-local registers `l`. -/
structure State.FillDone (s t : State) (A U : Nat) (place : Nat → Nat) (col : Nat → Byte) (l : Locals) : Prop where
  tile : ∃ px, s.TileDone t A U px False ∧ ∀ r c, r < 8 → c < 8 →
    LastWrite 64 place col (s.byteAt .cur (s.pixAddr r c)) r c (px r c)
  locals : t.locals = l

section FillDone

variable {s t : State} {A U : Nat} {place : Nat → Nat} {col : Nat → Byte} {l : Locals}

/-- The registers, in the order in which the statements about `RunMask` list them. -/
theorem State.FillDone.registers (h : s.FillDone t A U place col l) :
    t.lastColor = l.lastColor ∧ t.nibFlag = l.nibFlag ∧ t.nibByte = l.nibByte ∧ t.bank = l.bank :=
  h.locals ▸ ⟨rfl, rfl, rfl, rfl⟩

/-- The registers, in the order in which the statements about `Bank1` list them. -/
theorem State.FillDone.bankRegisters (h : s.FillDone t A U place col l) :
    t.bank = l.bank ∧ t.lastColor = l.lastColor ∧ t.nibFlag = l.nibFlag ∧ t.nibByte = l.nibByte :=
  h.locals ▸ ⟨rfl, rfl, rfl, rfl⟩

/-- When every pixel is visited, the pixels have the colours of their last visits. -/
theorem State.FillDone.pixels {index : Nat → Nat → Nat} (h : s.FillDone t A U place col l)
    (hindex : LastVisit place index) : s.TileDone t A U (fun r c => col (index r c)) False := by
  obtain ⟨⟨px, hdone, hpx⟩, -⟩ := h
  refine { hdone with pixels := fun r c hr hc => ?_ }
  obtain ⟨hlt, hplace, hlast⟩ := hindex r c hr hc
  rw [hdone.pixels r c hr hc, (hpx r c hr hc).1 _ hlt hplace hlast]

end FillDone

/-- `U` of R104 for an instruction whose record begins with its masks. -/
theorem State.unalignedNeed_eq (s : State) {i : Instr} (h : i.maskOffset = 0) :
    s.unalignedNeed i = i.unalignedSize (bitsBefore s.alignedByte 64) := by
  rw [State.unalignedNeed, s.mask_eq_alignedByte h, maskOnes_eq_bitsBefore]

/-- `Runs.answers` for an instruction that fills the tile along a traversal, with what its statement says of the state
that it leaves. -/
theorem Runs.fillAnswers {i : Instr} {s : State} {A U : Nat} {place : Nat → Nat} {col : Nat → Byte} {l : Locals}
    {P : State → Prop} (h : Runs (instrBody i) s A U fun _ t => s.Filled t (visits place col 64) l)
    (hA : i.alignedSize = A) (hm : i.maskOffset = 0) (hU : i.unalignedSize (bitsBefore s.alignedByte 64) = U)
    (hP : ∀ t, s.FillDone t A U place col l → P t) :
    (s.Readable i → ∃ t, exec i s = .next t ∧ P t) ∧ (¬ s.Readable i → ∃ t, exec i s = .next t ∧ s.Overran t i) := by
  obtain rfl := hA
  obtain rfl : s.unalignedNeed i = U := (s.unalignedNeed_eq hm).trans hU
  obtain ⟨hdone, hover⟩ := Runs.answers (L := fun t => t.locals = l) (oob := False)
    (px := fun r c => (visits place col 64 r c).getD (s.byteAt .cur (s.pixAddr r c)))
    (h.weaken fun _ t _ hfill => ⟨hfill.painted, hfill.locals, by rw [hfill.refOob, or_false]⟩)
  refine ⟨fun hr => ?_, hover⟩
  obtain ⟨t, ht, htile, hl⟩ := hdone hr
  exact ⟨t, ht, hP t ⟨⟨_, htile, fun r c _ hc => visits_lastWrite 64 place col _ hc⟩, hl⟩⟩

end Sys2Proof.Machine
end

section
/-!
PROOFS. The block decodes and their Bank-1 forms (R240 to R251): the two computations that hand out the colours, one
byte for each (`supplies_u8`) or one nibble for each (`supplies_bankNibble`), each with the four traversals.
-/

namespace Sys2Proof.Machine

/-! ### RunMask (R240) -/

/-- The primitive-local registers of `RunMask` after `n` colours. -/
def State.runLocals (s : State) (n : Nat) : Locals where
  lastColor := if n = 0 then Config.lastColorInit else s.unalignedByte (n - 1)
  nibFlag := s.nibFlag
  nibByte := s.nibByte
  bank := s.bank

/-- Each colour is one unaligned byte. -/
theorem supplies_u8 (s : State) : Supplies u8 s (fun n => n) s.runLocals where
  mono := monotone_id
  take n A t ht hl := by
    rw [Nat.add_sub_cancel_left]
    refine Runs.andThen (A' := 0) (U' := 0) (reads_u8 t) fun v u _ ⟨hv, hu⟩ => ?_
    refine (runs_setLastColor u v).weaken fun _ w _ hset => ?_
    have hnew : s.runLocals (n + 1) = { u.locals with lastColor := v } := by
      rw [hu, hv, ht.unalignedByte]
      exact hl ▸ rfl
    exact hnew ▸ (State.Sets.of_read hu).trans hset

theorem runs_runMask {s : State} (hw : 8 ≤ s.width) {pos : Traversal} {place : Nat → Nat} (hpos : pos.Visits place) :
    Runs (runMask pos) s 8 (bitsBefore s.alignedByte 64) fun _ t =>
      s.Filled t (visits place s.runColour 64) (s.runLocals (bitsBefore s.alignedByte 64)) := by
  have h := Runs.andThen (A' := 8) (runs_setLastColor s Config.lastColorInit) fun _ t ht hset =>
    runs_maskLoop hw hpos (supplies_u8 s) (Nat.zero_add _) ht ((State.Filled.nothing s).sets hset)
  rw [Nat.zero_add, Nat.zero_add] at h
  exact h

/-! ### NextNibble and Bank1 (R246, R247) -/

/-- The high nibble is the second one of its byte. -/
theorem runs_nextNibble_high {t : State} (h : t.nibFlag = true) :
    Runs nextNibble t 0 0 fun v u => v = highNibble t.nibByte ∧ t.Sets u { t.locals with nibFlag := false } := by
  refine Runs.andThen (A' := 0) (U' := 0) (runs_get t) fun v u _ ⟨hv, hu⟩ => ?_
  subst v u
  rw [if_pos h]
  refine Runs.andThen (A' := 0) (U' := 0) (runs_mapLocals t fun l => { l with nibFlag := false }) fun _ u _ hu => ?_
  refine Runs.map (fun w : State => highNibble w.nibByte) (runs_get u) fun v w ⟨hv, hw⟩ => ⟨?_, hw ▸ hu⟩
  rw [hv, show u.nibByte = t.nibByte from congrArg Locals.nibByte hu.locals]

/-- The low nibble is the first one, and a byte is read for it. -/
theorem runs_nextNibble_low {t : State} (h : t.nibFlag = false) :
    Runs nextNibble t 0 1 fun v u => v = lowNibble (t.unalignedByte 0) ∧
      t.Sets u { t.locals with nibByte := t.unalignedByte 0, nibFlag := true } := by
  refine Runs.andThen (A' := 0) (U' := 1) (runs_get t) fun v u _ ⟨hv, hu⟩ => ?_
  subst v u
  rw [if_neg (Bool.eq_false_iff.1 h)]
  refine Runs.andThen (A' := 0) (U' := 0) (reads_u8 t) fun b u _ ⟨hb, hu⟩ => ?_
  subst hb
  have hread := State.Sets.of_read hu
  refine (runs_mapLocals u fun l => { l with nibByte := t.unalignedByte 0, nibFlag := true }).map
    (fun _ => lowNibble (t.unalignedByte 0)) fun _ w hset => ⟨rfl, ?_⟩
  rw [hread.locals] at hset
  exact hread.trans hset

/-- What `Bank1` takes for each set bit. -/
def bankNibble : Exec Byte := do
  let n ← nextNibble
  return bankPixel (← get).bank n

/-- A nibble taken is stored in `LAST_COLOR` as an entry of the bank. -/
theorem runs_bankNibble {t : State} {N : Nat} {v : BitVec 4} {l : Locals}
    (h : Runs nextNibble t 0 N fun x u => x = v ∧ t.Sets u l) :
    Runs (bankNibble >>= setLastColor) t 0 N fun _ u => t.Sets u { l with lastColor := bankPixel l.bank v } := by
  refine Runs.andThen (A' := 0) (U' := 0) (Q := fun x u => x = bankPixel l.bank v ∧ t.Sets u l) ?_
    fun x u _ ⟨hx, hu⟩ => ?_
  · refine Runs.andThen (A' := 0) (U' := 0) h fun x u _ ⟨hx, hu⟩ => ?_
    refine Runs.map (fun w : State => bankPixel w.bank x) (runs_get u) fun y w ⟨hy, hw⟩ => ⟨?_, hw ▸ hu⟩
    rw [hy, hx, show u.bank = l.bank from congrArg Locals.bank hu.locals]
  · refine (runs_setLastColor u x).weaken fun _ w _ hset => ?_
    rw [hu.locals, hx] at hset
    exact hu.trans hset

/-- The primitive-local registers of `Bank1` after `n` colours. -/
def State.bankLocals (s : State) (n : Nat) : Locals where
  lastColor := if n = 0 then Config.lastColorInit
    else bankEntry (s.unalignedByte 0) (nibbleOf (fun j => s.unalignedByte (1 + j)) (n - 1))
  nibFlag := decide (n % 2 = 1)
  nibByte := if n = 0 then s.nibByte else s.unalignedByte ((n + 1) / 2)
  bank := bankEntry (s.unalignedByte 0) 0

theorem State.bankLocals_odd (s : State) (k : Nat) :
    s.bankLocals (2 * k + 1) = { s.bankLocals (2 * k) with
      lastColor := bankPixel (bankEntry (s.unalignedByte 0) 0) (lowNibble (s.unalignedByte (1 + k)))
      nibFlag := true
      nibByte := s.unalignedByte (1 + k) } := by
  rw [← bankBase_eq, lowNibble_eq (fun j => s.unalignedByte (1 + j)), bankPixel_bankBase_ofNat, State.bankLocals,
    if_neg (Nat.succ_ne_zero _), if_neg (Nat.succ_ne_zero _), Nat.add_sub_cancel,
    show (2 * k + 1 + 1) / 2 = 1 + k by omega, show (2 * k + 1) % 2 = 1 by omega]
  rfl

theorem State.bankLocals_even (s : State) (k : Nat) :
    s.bankLocals (2 * k + 1 + 1) = { s.bankLocals (2 * k + 1) with
      lastColor := bankPixel (bankEntry (s.unalignedByte 0) 0) (highNibble (s.unalignedByte (1 + k)))
      nibFlag := false } := by
  rw [← bankBase_eq, highNibble_eq (fun j => s.unalignedByte (1 + j)), bankPixel_bankBase_ofNat, State.bankLocals_odd,
    State.bankLocals, if_neg (Nat.succ_ne_zero _), if_neg (Nat.succ_ne_zero _), Nat.add_sub_cancel,
    show (2 * k + 1 + 1 + 1) / 2 = 1 + k by omega, show (2 * k + 1 + 1) % 2 = 0 by omega]
  rfl

/-- The bank byte comes first, then one nibble for each colour. -/
theorem supplies_bankNibble (s : State) : Supplies bankNibble s (fun n => 1 + (n + 1) / 2) s.bankLocals where
  mono _ _ h := by dsimp only; omega
  take n A t ht hl := by
    have hflag : t.nibFlag = decide (n % 2 = 1) := congrArg Locals.nibFlag hl
    have hbyte : t.nibByte = (s.bankLocals n).nibByte := congrArg Locals.nibByte hl
    obtain ⟨k, rfl | rfl⟩ := n.even_or_odd'
    · have htake := runs_bankNibble (runs_nextNibble_low (t := t) (by rw [hflag]; simp))
      rw [ht.unalignedByte, hl, show 1 + (2 * k + 1) / 2 + 0 = 1 + k by omega] at htake
      rw [State.bankLocals_odd, show 1 + (2 * k + 1 + 1) / 2 - (1 + (2 * k + 1) / 2) = 1 by omega]
      exact htake
    · have htake := runs_bankNibble (runs_nextNibble_high (t := t) (by rw [hflag]; simp))
      rw [hbyte, hl, State.bankLocals_odd] at htake
      rw [State.bankLocals_even, State.bankLocals_odd,
        show 1 + (2 * k + 1 + 1 + 1) / 2 - (1 + (2 * k + 1 + 1) / 2) = 0 by omega]
      exact htake

theorem runs_bank1 {s : State} (hw : 8 ≤ s.width) {pos : Traversal} {place : Nat → Nat} (hpos : pos.Visits place) :
    Runs (bank1 pos) s 8 (1 + (bitsBefore s.alignedByte 64 + 1) / 2) fun _ t =>
      s.Filled t (visits place s.bankRunColour 64) (s.bankLocals (bitsBefore s.alignedByte 64)) := by
  refine Runs.andThen (A := 0) (A' := 8) (reads_u8 s) fun b t ht ⟨hb, hread⟩ => ?_
  rw [← Nat.zero_add 8, ← Nat.zero_add (_ / 2)]
  refine Runs.andThen (runs_mapLocals t fun l => { l with bank := bankBase b, nibFlag := false })
    fun _ u hu hset => ?_
  rw [← Nat.zero_add 8, ← Nat.zero_add (_ / 2)]
  refine Runs.andThen (runs_setLastColor u Config.lastColorInit) fun _ v hv hset' => ?_
  have hstart := (State.Sets.of_read hread).trans (hset.trans hset')
  rw [hset.locals, (State.Sets.of_read hread).locals, hb, bankBase_eq] at hstart
  exact runs_maskLoop (U := fun n => 1 + (n + 1) / 2) hw hpos (supplies_bankNibble s) (by dsimp only)
    (ht.trans (hu.trans hv)) ((State.Filled.nothing s).sets hstart)

/-! ### The statements -/

/-- Settles O30: the rows, or the columns, are the runs of the traversal. -/
theorem blockHVResult : Obligations.BlockHVResult :=
  ⟨⟨rfl, fun _ hw => Runs.fillAnswers (i := .blockH) (runs_runMask hw posH_visits) rfl rfl rfl
      fun _ h => ⟨h.pixels posH_lastVisit, h.registers⟩⟩,
    rfl, fun _ hw => Runs.fillAnswers (i := .blockV) (runs_runMask hw posV_visits) rfl rfl rfl
      fun _ h => ⟨h.pixels posV_lastVisit, h.registers⟩⟩

/-- Settles O31, for whatever the tables are. -/
theorem blockD1D2Result : Obligations.BlockD1D2Result :=
  ⟨⟨rfl, fun _ hw => Runs.fillAnswers (i := .blockD1) (runs_runMask hw (posTable_visits Config.diag1)) rfl rfl rfl
      fun _ h => ⟨h.tile, h.registers⟩⟩,
    rfl, fun _ hw => Runs.fillAnswers (i := .blockD2) (runs_runMask hw (posTable_visits Config.diag2)) rfl rfl rfl
      fun _ h => ⟨h.tile, h.registers⟩⟩

/-- Settles O32: as O30, with the nibbles of the bank. -/
theorem bank1HVResult : Obligations.Bank1HVResult :=
  ⟨⟨rfl, fun _ hw => Runs.fillAnswers (i := .bank1H) (runs_bank1 hw posH_visits) rfl rfl rfl
      fun _ h => ⟨h.pixels posH_lastVisit, h.bankRegisters⟩⟩,
    rfl, fun _ hw => Runs.fillAnswers (i := .bank1V) (runs_bank1 hw posV_visits) rfl rfl rfl
      fun _ h => ⟨h.pixels posV_lastVisit, h.bankRegisters⟩⟩

/-- Settles O33: as O31, with the nibbles of the bank. -/
theorem bank1D1D2Result : Obligations.Bank1D1D2Result :=
  ⟨⟨rfl, fun _ hw => Runs.fillAnswers (i := .bank1D1) (runs_bank1 hw (posTable_visits Config.diag1)) rfl rfl rfl
      fun _ h => ⟨h.tile, h.bankRegisters⟩⟩,
    rfl, fun _ hw => Runs.fillAnswers (i := .bank1D2) (runs_bank1 hw (posTable_visits Config.diag2)) rfl rfl rfl
      fun _ h => ⟨h.tile, h.bankRegisters⟩⟩

end Sys2Proof.Machine
end

section
/-!
PROOFS. The composites (R270 to R273). What is said of a composite needs two things: that its base reads its records,
whatever it draws (`runs_baseBody`), and what its overlay draws over any tile (`draws_update4`, `draws_update8`,
`draws_update16`). `composite_completes` and `composite_overruns` join the two, once for all 33 opcodes.
-/

namespace Sys2Proof

/-! ### A composite and its two parts -/

/-- `i` runs the base of the instruction `b`, which has no overlay, and then the overlay `o` (R103, R273). -/
abbrev Instr.Composes (i b : Instr) (o : Overlay) : Prop :=
  b.overlay = none ∧ b.base.takesOverlay = true ∧ i.base = b.base ∧ i.overlay = some o

/-- No base that takes an overlay has masks of its own (R103, R104). -/
theorem Base.unalignedSize_eq_of_takesOverlay {b : Base} (h : b.takesOverlay = true) (m n : Nat) :
    b.unalignedSize m = b.unalignedSize n := by
  cases b with
  | prime | blockH | blockV | blockD1 | blockD2 | bank1H | bank1V | bank1D1 | bank1D2 => cases h
  | _ => rfl

theorem Instr.Composes.alignedSize {i b : Instr} {o : Overlay} (h : i.Composes b o) :
    b.alignedSize + o.alignedSize = i.alignedSize := by
  obtain ⟨hb, -, hi, ho⟩ := h
  simp [Instr.alignedSize, hb, hi, ho]

theorem Instr.Composes.widestAligned {i b : Instr} {o : Overlay} (h : i.Composes b o) :
    i.widestAligned = max b.widestAligned 1 := by
  obtain ⟨hb, -, hi, ho⟩ := h
  simp [Instr.widestAligned, hb, hi, ho]

theorem Instr.Composes.widestUnaligned {i b : Instr} {o : Overlay} (h : i.Composes b o) :
    i.widestUnaligned = max b.widestUnaligned o.widestUnaligned := by
  obtain ⟨hb, -, hi, ho⟩ := h
  simp [Instr.widestUnaligned, hb, hi, ho]

end Sys2Proof

namespace Sys2Proof.Machine

/-! ### Position words (R270) -/

theorem State.Advanced.unalignedWord {s t : State} {A U : Nat} (h : s.Advanced t A U) (k n : Nat) :
    t.unalignedWord k n = s.unalignedWord (U + k) n :=
  State.unalignedWord_add h.inTile h.unaPtr h.unaFits k n

/-- A word of `n` bytes keeps the number that they spell (R61). -/
theorem State.toNat_unalignedWord (s : State) (k n : Nat) :
    (BitVec.ofNat (8 * n) (s.unalignedWord k n)).toNat = s.unalignedWord k n := by
  rw [BitVec.toNat_ofNat, Nat.pow_mul]
  exact Nat.mod_eq_of_lt (s.memRead_lt .pl _ n)

/-- A position field holds the tile offset of its pixel, the column in its low three bits. -/
theorem toNat_idx_position (v : BitVec 24) (k : Nat) :
    (idx (idx v 6 k) 3 1).toNat = fieldOf v.toNat 6 k / 8 ∧ (idx (idx v 6 k) 3 0).toNat = fieldOf v.toNat 6 k % 8 := by
  have hlt : fieldOf v.toNat 6 k < 64 := fieldOf_lt _ _ _
  simp only [toNat_idx]
  generalize fieldOf v.toNat 6 k = p at hlt
  unfold fieldOf
  omega

/-! ### Paint in groups -/

/-- The layers of a second group lie over those of the first. -/
theorem layers_add (px : Nat → Nat → Nat → Option Byte) (m n : Nat) :
    layers px (m + n) = paintOver (layers (fun k => px (m + k)) n) (layers px m) := by
  induction n with
  | zero => rfl
  | succ n ih =>
    rw [← Nat.add_assoc, layers, ih]
    funext r c
    exact Option.or_assoc.symm

/-- Visits that go on from others, each with its own place and colour. -/
theorem visits_append {place place₁ place₂ : Nat → Nat} {col col₁ col₂ : Nat → Byte} {m n : Nat}
    (h₁ : ∀ k, k < m → place k = place₁ k ∧ col k = col₁ k)
    (h₂ : ∀ k, k < n → place (m + k) = place₂ k ∧ col (m + k) = col₂ k) (r c : Nat) :
    visits place col (m + n) r c = paintOver (visits place₂ col₂ n) (visits place₁ col₁ m) r c := by
  rw [visits, layers_add, paintOver, paintOver, visits, visits]
  congr 1
  · exact layers_congr fun k hk => by rw [(h₂ k hk).1, (h₂ k hk).2]
  · exact layers_congr fun k hk => by rw [(h₁ k hk).1, (h₁ k hk).2]

/-- `draws_parts` when the rounds read records of different sizes: after `i` rounds `A i` and `U i` bytes are read. -/
theorem draws_partsUpTo {s : State} {n : Nat} {g : Nat → Exec Unit} {A U : Nat → Nat} (part : Nat → Nat → Nat)
    (px : Nat → Nat → Option Byte) (hA : A 0 = 0) (hU : U 0 = 0) (hmA : Monotone A) (hmU : Monotone U)
    (hpart : ∀ r c, r < 8 → c < 8 → part r c < n)
    (hg : ∀ i t, i < n → s.Advanced t (A i) (U i) → Draws (g i) t (A (i + 1) - A i) (U (i + 1) - U i)
      (fun r c => if part r c = i then px r c else none) False) :
    Draws (forUpTo n g) s (A n) (U n) px False := by
  refine (Draws.loop (n := n) A U (fun i r c => if part r c = i then px r c else none) (fun _ => False) hA hU
    (fun i => hmA i.le_succ) (fun i => hmU i.le_succ) fun i t hi ht ha hu fa fu =>
      hg i t hi ⟨ht, ha, hu, fa, fu⟩).congr (fun r c hr hc => ?_) (by simp)
  cases hpx : px r c with
  | none => exact (layers_none fun i _ => by rw [hpx, ite_self]).symm
  | some v => exact (layers_last (hpart r c hr hc) (by rw [if_pos rfl, hpx]) fun j hj _ => if_neg hj.ne).symm

/-- What a drawing reads, whatever it draws. -/
theorem Draws.runs {f : Exec Unit} {s : State} {A U : Nat} {px : Nat → Nat → Option Byte} {oob : Prop}
    (h : Draws f s A U px oob) : Runs f s A U fun _ _ => True := h.weaken fun _ _ _ _ => trivial

/-! ### What each overlay draws -/

section Overlays

variable {s : State} (hw : 8 ≤ s.width)
include hw

/-- Four patches, at the tile offsets that the fields of one word hold (R270). -/
theorem draws_update4 :
    Draws update4 s 4 3 (visits (fun k => fieldOf (s.unalignedWord 0 3) 6 k) s.alignedByte 4) False := by
  refine Draws.afterReading (A := 0) (A' := 4) (U' := 0) (reads_u24 s) fun v t hv ht => ?_
  have hword : v.toNat = s.unalignedWord 0 3 := hv ▸ s.toNat_unalignedWord 0 3
  refine (Draws.loop (n := 4) (fun k => k) (fun _ => 0) _ (fun _ => False) rfl rfl Nat.le_succ
    (fun _ => Nat.le_refl 0) fun k u hk hu ha hu' fa fu => ?_).congr (fun _ _ _ _ => rfl) (by simp)
  have hsu := ht.trans ⟨hu, ha, hu', fa, fu⟩
  obtain ⟨hrow, hcol⟩ := toNat_idx_position v k
  have hlt : fieldOf v.toNat 6 k < 64 := fieldOf_lt _ _ _
  rw [Nat.add_sub_cancel_left, ← hword]
  refine Draws.afterReading (A' := 0) (U' := 0) (reads_a8 u) fun b w hb hw' => ?_
  rw [hb, hsu.alignedByte, Nat.zero_add, Nat.add_zero, ← hrow, ← hcol]
  exact draws_pix ((hsu.trans hw').width ▸ hw) (by omega) (by omega) _

/-- The patches of two words, the second four over the first (R271). -/
theorem draws_update8 :
    Draws update8 s 8 6
      (visits (fun k => fieldOf (s.unalignedWord (3 * (k / 4)) 3) 6 (k % 4)) s.alignedByte 8) False := by
  refine (Draws.seq (A' := 4) (U' := 3)
    (px' := visits (fun k => fieldOf (s.unalignedWord 3 3) 6 k) (fun k => s.alignedByte (4 + k)) 4) (draws_update4 hw)
    fun t ht ha hu fa fu => ?_).congr (fun r c _ _ => ?_) (or_self_iff).symm
  · have hst : s.Advanced t 4 3 := ⟨ht, ha, hu, fa, fu⟩
    simp only [← hst.alignedByte, ← hst.unalignedWord 0 3]
    exact draws_update4 (ht.width ▸ hw)
  · refine visits_append (m := 4) (n := 4) (fun k hk => ⟨?_, rfl⟩) (fun k hk => ⟨?_, rfl⟩) r c
    · rw [Nat.div_eq_of_lt hk, Nat.mod_eq_of_lt hk]
    · rw [Nat.add_div_left k (by decide), Nat.div_eq_of_lt hk, Nat.add_mod_left, Nat.mod_eq_of_lt hk]

/-- One row of replacements: a byte is read for each set bit of the row's mask byte (R272). -/
theorem draws_replacedRow (m : Byte) {r0 : Nat} (hr : r0 < 8) :
    Draws (forUpTo 8 fun c => do if m.getLsbD c then pix r0 c (← u8)) s 0 (bitsBefore (fun _ => m) 8)
      (fun r c => if r = r0 then if m.getLsbD c then some (s.unalignedByte (bitsBefore (fun _ => m) c)) else none
        else none) False := by
  refine draws_partsUpTo (n := 8) (A := fun _ => 0) (U := bitsBefore fun _ => m) (fun _ c => c) _ rfl rfl monotone_const
    (bitsBefore_mono _) (fun _ _ _ hc => hc) fun c0 t hc ht => ?_
  rw [bitsBefore_succ, Nat.mod_eq_of_lt hc, Nat.add_sub_cancel_left]
  cases hbit : m.getLsbD c0 with
  | false =>
    refine (Draws.nothing t).congr (fun r c _ _ => ite_eq_right_iff.2 ?_) Iff.rfl
    rintro rfl
    rw [hbit, if_neg Bool.false_ne_true, ite_self]
  | true =>
    refine Draws.afterReading (A' := 0) (U' := 0) (reads_u8 t) fun v u hv hu => ?_
    rw [hv, ht.unalignedByte]
    refine (draws_pix ((ht.trans hu).width ▸ hw) hr hc _).congr (fun r c _ _ => ?_) Iff.rfl
    rw [← ite_and, dot]
    refine if_ctx_congr and_comm (fun ⟨_, hcol⟩ => ?_) fun _ => rfl
    rw [hcol, if_pos hbit, Nat.add_zero]

/-- Row `r` finds its bytes after those of the rows before it (R272). -/
theorem draws_update16 : Draws update16 s 8 (bitsBefore s.alignedByte 64)
    (fun r c => if (s.alignedByte r).getLsbD c then some (s.unalignedByte (bitsBefore s.alignedByte (8 * r + c)))
      else none) False := by
  refine draws_partsUpTo (n := 8) (A := fun r => r) (U := fun r => bitsBefore s.alignedByte (8 * r)) (fun r _ => r) _ rfl
    rfl monotone_id (fun _ _ h => bitsBefore_mono _ (Nat.mul_le_mul_left 8 h)) (fun _ _ hr _ => hr) fun r0 t hr ht => ?_
  rw [Nat.mul_succ, bitsBefore_byte _ r0 (Nat.le_refl 8), Nat.add_sub_cancel_left, Nat.add_sub_cancel_left,
    ← Nat.zero_add (bitsBefore _ 8)]
  refine Draws.afterReading (A' := 0) (reads_a8 t) fun m u hm hu => ?_
  have hsu := ht.trans hu
  rw [ht.alignedByte, Nat.add_zero] at hm
  subst hm
  refine (draws_replacedRow (hsu.width ▸ hw) _ hr).congr (fun r c _ hc => ?_) Iff.rfl
  refine if_ctx_congr Iff.rfl (fun hrow => ?_) fun _ => rfl
  rw [hrow, hsu.unalignedByte, Nat.add_zero, bitsBefore_byte _ r0 hc.le]

/-! ### The bases that take an overlay -/

/-- A base that takes an overlay reads the record that R104 gives it, whatever the number of set mask bits. -/
theorem runs_baseBody {b : Base} (h : b.takesOverlay = true) (ones : Nat) :
    Runs (baseBody b) s b.alignedSize (b.unalignedSize ones) fun _ _ => True := by
  cases b with
  | zero => exact (draws_zero hw).runs
  | shortMotion8 => exact (draws_shortMotion8 hw).runs
  | motion8 => exact (draws_motion8 hw).runs
  | shortMotion4 => exact (draws_shortMotion4 hw).runs
  | motion4 => exact (draws_motion4 hw).runs
  | singleFill => exact (draws_singleFill hw).runs
  | fourFill => exact (draws_fourFill hw).runs
  | roMotion8 => exact (draws_roMotion8 hw).runs
  | rcMotion8 => exact (draws_rcMotion8 hw).runs
  | roMotion4 => exact (draws_roMotion4 hw).runs
  | rcMotion4 => exact (draws_rcMotion4 hw).runs
  | _ => cases h

end Overlays

/-! ### Base and overlay together -/

/-- A computation whose records fit ends. -/
theorem Runs.ends {α : Type} {f : Exec α} {s : State} {A U : Nat} {Q : α → State → Prop} (h : Runs f s A U Q)
    (ha : s.Fits s.alnPtr A) (hu : s.Fits s.unaPtr U) : ∃ v t, f s = .ok v t ∧ s.Advanced t A U ∧ Q v t := by
  have hc := h.came
  cases hr : f s with
  | ok v t =>
    rw [hr] at hc
    obtain ⟨ht, -, fa, fu, pa, pu, hq⟩ := hc
    exact ⟨v, t, rfl, ⟨ht, pa, pu, fa, fu⟩, hq⟩
  | error e t =>
    rw [hr] at hc
    obtain ⟨-, -, -, ⟨-, -, hn⟩ | ⟨-, -, hn⟩⟩ := hc
    · exact absurd ha hn
    · exact absurd hu hn

/-- What is left of a step when the first part of its body has ended. -/
theorem runTile_bind {α : Type} {f : Exec α} {g : α → Exec Unit} {s u : State} {v : α} (i : Instr)
    (h : f s = .ok v u) : runTile i (f >>= g) s = runTile i (g v) u := by
  have hbind : (f >>= g) s = g v u := by
    change EStateM.bind f g s = _
    rw [EStateM.bind, h]
  rw [runTile, runTile, hbind]

/-- Over any tile `u` the overlay `o` draws `px u`, and reads the record that R104 gives it. -/
abbrev OverlayDraws (o : Overlay) (px : State → Nat → Nat → Option Byte) : Prop :=
  ∀ u : State, 8 ≤ u.width →
    Draws (overlayBody o) u o.alignedSize (o.unalignedSize (bitsBefore u.alignedByte 64)) (px u) False

section Composes

variable {i b : Instr} {o : Overlay} (h : i.Composes b o)
include h

theorem instrBody_composite : instrBody i = instrBody b >>= fun _ => overlayBody o := by
  obtain ⟨hb, -, hi, ho⟩ := h
  simp only [instrBody, hb, hi, ho]

theorem runs_compositeBase {s : State} (hw : 8 ≤ s.width) :
    Runs (instrBody b) s b.alignedSize (s.unalignedNeed b) fun _ _ => True := by
  obtain ⟨hb, ht, -, -⟩ := h
  simp only [instrBody, Instr.alignedSize, State.unalignedNeed, Instr.unalignedSize, hb]
  exact runs_baseBody hw ht _

/-- A base that takes an overlay has no masks, so the set bits counted are those of the overlay's (R104). -/
theorem unalignedNeed_composite (s : State) :
    s.unalignedNeed b + o.unalignedSize (maskOnes (s.mask i)) = s.unalignedNeed i := by
  obtain ⟨hb, ht, hi, ho⟩ := h
  have hbase : s.unalignedNeed b = i.base.unalignedSize (maskOnes (s.mask i)) := by
    simp only [State.unalignedNeed, Instr.unalignedSize, hb, hi]
    exact Base.unalignedSize_eq_of_takesOverlay ht _ _
  rw [hbase, State.unalignedNeed, Instr.unalignedSize, ho]
  rfl

/-- The masks of an overlay, if it has any, come where the base has left `ALN_PTR` (R272, R273). -/
theorem overlayNeed_composite {s u : State} {U : Nat} (hu : s.Advanced u b.alignedSize U) :
    o.unalignedSize (maskOnes (s.mask i)) = o.unalignedSize (bitsBefore u.alignedByte 64) := by
  cases o with
  | update4 => rfl
  | update8 => rfl
  | update16 =>
    obtain ⟨hb, -, hi, ho⟩ := h
    have hmask : s.mask i = u.alignedByte := by
      funext k
      rw [hu.alignedByte, State.mask, State.alignedByte, Nat.add_assoc]
      simp [Instr.maskOffset, Instr.alignedSize, hb, hi, ho]
    rw [hmask, maskOnes_eq_bitsBefore]

theorem narrow_compositeOverlay : Narrow (overlayBody o) i.widestAligned i.widestUnaligned :=
  (narrow_overlayBody o).mono (h.widestAligned ▸ Nat.le_max_right ..) (h.widestUnaligned ▸ Nat.le_max_right ..)

/-- The overruns of a composite whose overlay first reads `n` bytes of `first`. -/
theorem composite_overruns {px : State → Nat → Nat → Option Byte} (hov : OverlayDraws o px) {first : StreamId} {n : Nat}
    (hfirst : ∀ t : State, t.payloadLen.toNat < (if first = .aligned then t.alnPtr else t.unaPtr).toNat + n →
      overlayBody o t = .error { stream := first, addr := (if first = .aligned then t.alnPtr else t.unaPtr).toNat } t)
    {s : State} (hw : 8 ≤ s.width) : s.CompositeOverruns b i first n := by
  refine .of_runs (R := fun _ _ => True) (exec_eq_runTile b s) (instrBody_composite h ▸ exec_eq_runTile i s)
    (runs_compositeBase h hw) (fun u hu pa pu fa fu _ => ?_) h.alignedSize (unalignedNeed_composite h s)
    (narrow_instrBody b) (narrow_compositeOverlay h) (h.widestAligned ▸ Nat.le_max_left ..)
    (h.widestUnaligned ▸ Nat.le_max_left ..) hfirst
  rw [overlayNeed_composite h ⟨hu, pa, pu, fa, fu⟩]
  exact (hov u (hu.width ▸ hw)).runs

/-- A composite whose records fit runs its base, and its overlay draws over the tile that the base leaves. -/
theorem composite_completes {px : State → Nat → Nat → Option Byte} (hov : OverlayDraws o px) {s : State}
    (hw : 8 ≤ s.width) (hr : s.Readable i) :
    s.Readable b ∧ ∃ u t, exec b s = .next u ∧ exec i s = .next t ∧ u.SameLocals t ∧
      u.TileDone t o.alignedSize (o.unalignedSize (bitsBefore u.alignedByte 64))
        (fun r c => (px u r c).getD (u.byteAt .cur (s.pixAddr r c))) False := by
  obtain ⟨ha, hu⟩ := hr
  rw [← h.alignedSize] at ha
  rw [← unalignedNeed_composite h s] at hu
  obtain ⟨⟨⟩, u, hbody, hsu, -⟩ := (runs_compositeBase h hw).ends ha.mono hu.mono
  rw [overlayNeed_composite h hsu] at hu
  rw [State.fits_add hsu.alnFits, ← hsu.alnPtr, ← hsu.inTile.fits] at ha
  rw [State.fits_add hsu.unaFits, ← hsu.unaPtr, ← hsu.inTile.fits] at hu
  obtain ⟨t, hrun, hut, pa, pu, hpx, hl, hoob⟩ := Runs.completes (i := i) (hov u (hsu.width ▸ hw)) ha hu
  refine ⟨⟨hsu.alnFits, hsu.unaFits⟩, u, t, ?_, ?_, hl, ⟨hut, ?_, ?_, fun r c hr hc => ?_, hoob⟩⟩
  · rw [exec_eq_runTile, runTile, hbody]
  · rw [exec_eq_runTile, instrBody_composite h, runTile_bind i hbody, hrun]
  · rw [pa, State.toNat_advance ha]
  · rw [pu, State.toNat_advance hu]
  · rw [hpx r c hr hc, hsu.inTile.pixAddr]

end Composes

/-! ### The statements -/

/-- Settles O34: four patches over what the base draws. -/
theorem update4CompositeResult : Obligations.Update4CompositeResult := by
  intro p hp s hw
  have hc : p.2.Composes p.1 .update4 := by revert p; decide
  refine ⟨fun hr => ?_, composite_overruns hc (fun _ => draws_update4) (fun _ => update4_overrun) hw⟩
  obtain ⟨hb, u, t, hu, ht, hl, htile⟩ := composite_completes hc (fun _ => draws_update4) hw hr
  exact ⟨hb, u, t, hu, ht, hl, _, htile, fun _ _ _ hc => visits_lastWrite 4 _ _ _ hc⟩

/-- Settles O35: eight patches over what the base draws. -/
theorem update8CompositeResult : Obligations.Update8CompositeResult := by
  intro p hp s hw
  have hc : p.2.Composes p.1 .update8 := by revert p; decide
  refine ⟨fun hr => ?_, composite_overruns hc (fun _ => draws_update8) (fun _ => update8_overrun) hw⟩
  obtain ⟨hb, u, t, hu, ht, hl, htile⟩ := composite_completes hc (fun _ => draws_update8) hw hr
  exact ⟨hb, u, t, hu, ht, hl, _, htile, fun _ _ _ hc => visits_lastWrite 8 _ _ _ hc⟩

/-- Settles O36: where a mask bit is set, a byte of its own over what the base draws. -/
theorem update16CompositeResult : Obligations.Update16CompositeResult := by
  intro p hp s hw
  have hc : p.2.Composes p.1 .update16 := by revert p; decide
  refine ⟨fun hr => ?_, composite_overruns hc (fun _ => draws_update16) (fun _ => update16_overrun) hw⟩
  obtain ⟨hb, u, t, hu, ht, hl, htile⟩ := composite_completes hc (fun _ => draws_update16) hw hr
  refine ⟨hb, u, t, hu, ht, hl, { htile with pixels := fun r c hr hc => ?_ }⟩
  exact (htile.pixels r c hr hc).trans (apply_ite (Option.getD · _) _ _ _)

end Sys2Proof.Machine
end

section
/-!
PROOFS. Faults (R320 to R325): the state that ConfigFault leaves, the overrun of an instruction in its first read, and
the step outside a run.
-/

namespace Sys2Proof.Machine

/-! ### Outside a run (R325, R350) -/

/-- Settles O49: the two values of `RUN` other than BUSY. -/
theorem idleOrHaltedStepDoesNothing : Obligations.IdleOrHaltedStepDoesNothing := by
  intro s h
  unfold step
  cases hr : s.run with
  | idle => rfl
  | halted => rfl
  | busy => exact absurd hr h

/-! ### ConfigFault (R131, R322) -/

/-- The reasons for which START refuses a configuration. -/
theorem State.configBad_iff {caps : Config.Caps} {s : State} :
    s.configBad caps = true ↔ s.width = 0 ∨ s.height = 0 ∨ s.width % 8 ≠ 0 ∨ s.height % 8 ≠ 0 ∨
      s.width * s.height > caps.fbCap ∨ s.payloadLen.toNat > caps.plCap := by
  have hdims : dimsWellFormed s.width s.height = false ↔
      ¬ (s.width ≠ 0 ∧ s.height ≠ 0 ∧ s.width % 8 = 0 ∧ s.height % 8 = 0) := by
    rw [← dimsWellFormed_iff, Bool.not_eq_true]
  simp only [State.configBad, Bool.or_eq_true, Bool.not_eq_true', decide_eq_true_eq, hdims]
  rw [State.frameSize]
  tauto

theorem State.start_of_configBad {caps : Config.Caps} {s : State} (h : s.configBad caps = true) :
    s.start caps = { s with flags := s.startFlags }.faultEntry 0 .configFault := by
  rcases s.start_cases caps with ⟨-, e⟩ | ⟨hgood, -⟩ | ⟨hgood, -⟩
  · exact e
  · rw [h] at hgood; cases hgood
  · rw [h] at hgood; cases hgood

/-- Both ways to go on, a run and an overrun on the head field, leave `ERR_CONFIG` as START has cleared it. -/
theorem State.start_errConfig_of_not_configBad {caps : Config.Caps} {s : State} (h : ¬ s.configBad caps = true) :
    (s.start caps).flags.errConfig = false := by
  rcases s.start_cases caps with ⟨hbad, -⟩ | ⟨-, -, e⟩ | ⟨-, -, e⟩
  · exact absurd hbad h
  · rw [e]; rfl
  · rw [e]; rfl

/-- Settles O51: START goes by `configBad`, which holds for the reasons of R131 and no other. -/
theorem startConfigFault : Obligations.StartConfigFault := by
  intro caps s v hr h0 h1 bad
  have hbad : s.configBad caps = true ↔ bad := State.configBad_iff
  rw [State.hostWriteReg_ctrl hr, State.writeCtrl_start h1 h0]
  exact ⟨fun h => State.start_of_configBad (hbad.2 h),
    fun h => State.start_errConfig_of_not_configBad (mt hbad.1 h)⟩

/-! ### An overrun in the first read (R321, R323, R324) -/

theorem u8_overrun {s : State} (h : s.payloadLen.toNat < s.unaPtr.toNat + 1) :
    u8 s = .error { stream := .unaligned, addr := s.unaPtr.toNat } s := bind_error (unalignedRead_overrun h)

theorem a8_overrun {s : State} (h : s.payloadLen.toNat < s.alnPtr.toNat + 1) :
    a8 s = .error { stream := .aligned, addr := s.alnPtr.toNat } s := bind_error (alignedRead_overrun h)

theorem readList_error {n : Nat} {f : Exec Byte} {s t : State} {e : Overrun} (h : f s = .error e t) :
    readList (n + 1) f s = .error e t := bind_error h

/-- An instruction whose first read is one unaligned byte. -/
theorem instrBody_overrun_of_unaligned_first {i : Instr} (hi : i ∈ [Instr.oneBit, .threeBit, .fourBit, .threeBitSplit,
      .prime, .oneBank, .twoBanks, .bank1H, .bank1V, .bank1D1, .bank1D2])
    {s : State} (h : s.payloadLen.toNat < s.unaPtr.toNat + 1) :
    instrBody i s = .error { stream := .unaligned, addr := s.unaPtr.toNat } s := by
  have hbyte := u8_overrun h
  have hcolours (n : Nat) := readList_error (n := n) hbyte
  cases i with
  | oneBit => exact bind_error (hcolours 1)
  | threeBit => exact bind_error (hcolours 7)
  | fourBit => exact bind_error (hcolours 15)
  | threeBitSplit => exact forUpTo_error (bind_error (hcolours 7))
  | prime | oneBank | twoBanks | bank1H | bank1V | bank1D1 | bank1D2 => exact bind_error hbyte
  | _ => exact absurd hi (by decide)

theorem maskLoop_overrun (pos : Traversal) (next : Exec Byte) {s : State}
    (h : s.payloadLen.toNat < s.alnPtr.toNat + 1) :
    maskLoop pos next s = .error { stream := .aligned, addr := s.alnPtr.toNat } s :=
  forUpTo_error (bind_error (a8_overrun h))

/-- A run to mask sets `LAST_COLOR` before it reads the first mask (R240). -/
theorem runMask_overrun (pos : Traversal) {s : State} (h : s.payloadLen.toNat < s.alnPtr.toNat + 1) :
    runMask pos s = .error { stream := .aligned, addr := s.alnPtr.toNat }
      { s with lastColor := Config.lastColorInit } :=
  maskLoop_overrun pos u8 (s := { s with lastColor := Config.lastColorInit }) h

/-- An instruction whose first read is an aligned mask. -/
theorem instrBody_overrun_of_mask_first {i : Instr} (hi : i ∈ [Instr.blockH, .blockV, .blockD1, .blockD2])
    {s : State} (h : s.payloadLen.toNat < s.alnPtr.toNat + 1) :
    instrBody i s = .error { stream := .aligned, addr := s.alnPtr.toNat }
      { s with lastColor := Config.lastColorInit } := by
  cases i with
  | blockH | blockV | blockD1 | blockD2 => exact runMask_overrun _ h
  | _ => exact absurd hi (by decide)

/-- What the overrun of an instruction leaves when its body has moved neither pointer (R321, R323). -/
theorem exec_of_instrBody_error {i : Instr} {s t : State} {stream : StreamId} {p : Ptr}
    (h : instrBody i s = .error { stream := stream, addr := p.toNat } t)
    (ha : t.alnPtr = s.alnPtr) (hu : t.unaPtr = s.unaPtr) (ht : t.tileIdx = s.tileIdx) :
    ∃ u, exec i s = .next u ∧ u.run = .halted ∧ u.alnPtr = s.alnPtr ∧ u.unaPtr = s.unaPtr ∧
      u.fault = { kind := 1, tile := s.tileIdx, opcode := i.opcode, stream := stream.code, addr := p } := by
  obtain ⟨w, -, -, wa, wu, -, hw⟩ := t.overrunInStep_spec i.opcode { stream := stream, addr := p.toNat }
  have hexec : exec i s = .next (t.overrunInStep i.opcode { stream := stream, addr := p.toNat }) := by
    rw [exec_eq_runTile, runTile, h]
  refine ⟨_, hexec, rfl, ?_⟩
  rw [hw]
  exact ⟨wa.trans ha, wu.trans hu, by simp [ht]⟩

/-- Settles O40: the body ends in its first read, before a pointer has moved. -/
theorem firstReadOverrunIsReported : Obligations.FirstReadOverrunIsReported := by
  constructor
  · intro i hi s h
    exact exec_of_instrBody_error (instrBody_overrun_of_unaligned_first hi h) rfl rfl rfl
  · intro i hi s h
    exact exec_of_instrBody_error (instrBody_overrun_of_mask_first hi h) rfl rfl rfl

end Sys2Proof.Machine
end
